-- ==== Sys2Proof/Word.lean ====
section
/-!
DEFINITION. The word types of the command port and of the datapath (spec/20_memory.md R45, R47; spec/00_scope.md R12).
-/

namespace Sys2Proof

/-- One byte of the byte transport of R45, and the header's `OP` and `R` fields (R56). -/
abbrev Byte := BitVec 8

/-- The header's `IMM16` field (R56). -/
abbrev Half := BitVec 16

/-- One command-port word, one register, one delay-line cell (R45, R47). -/
abbrev Word := BitVec 32

/-- The encoding of an IEEE binary32 value: bit 31 is the sign (R45, R12). -/
abbrev F32 := BitVec 32

/-- The encoding of an IEEE binary64 value: the sample rate of CONFIGURE (R17, R59). -/
abbrev F64 := BitVec 64

end Sys2Proof
end

