-- ==== Sys2Proof/Syntax.lean ====
section
/-!
DEFINITION. The seven commands (spec/30_encoding.md R57, one constructor per row of spec/opcode_table.json) and the names
of the registers (spec/10_state.md R37). A command carries its header's fields, the reserved ones too (a header whose
reserved field is nonzero is still that command, not executed: R69), and its operand words.
-/

namespace Sys2Proof

inductive Instr where
  /-- CONFIGURE (R59): reserved `R`, channel count `CH`, the sample rate's low and high words. -/
  | configure (r : Byte) (ch : Half) (srLo srHi : Word)
  /-- RELEASE (R60): reserved `R` and `IMM16`. -/
  | release (r : Byte) (imm : Half)
  /-- WRITE_REG (R61): register number, reserved `IMM16`, the value word. -/
  | writeReg (reg : Byte) (imm : Half) (v : Word)
  /-- READ_REG (R62): register number, `INDEX` (a channel for 0x20, reserved otherwise: R58). -/
  | readReg (reg : Byte) (idx : Half)
  /-- PROCESS_FRAME (R63): reserved `R`; the lane count `B` is the number of samples. -/
  | processFrame (r : Byte) (xs : List Word)
  /-- PROCESS_BLOCK (R64): lane count `B`, frame count `N`, `N × B` samples, frame-major. -/
  | processBlock (b : Byte) (n : Half) (xs : List Word)
  /-- READ_DL (R65): reserved `R`, channel, cell index. -/
  | readDl (r : Byte) (ch : Half) (i : Word)
  deriving DecidableEq, Repr

/-- The assigned registers (R37). -/
inductive RegName where
  | status | capacity | channels | srLo | srHi | sr32
  | rate | depth | mix | phase | smooth | wptr | id | maxch | maxcap
  deriving DecidableEq, Repr

end Sys2Proof
end

