-- ==== Sys2Proof/WellFormed.lean ====
section
/-!
DEFINITION. Which terms of Instr some command words stand for: those whose operand words are as many as their header
announces (spec/30_encoding.md R63, R64, R66). Reserved fields do not matter here (R66, R69).
-/

namespace Sys2Proof

/-- The operand words of the term are those its header can announce: a lane count fits 16 bits (R63), a block's words
are `N × B` (R64), every other command has its operands by its shape. -/
def Instr.wellFormed : Instr → Bool
  | .configure _ _ _ _ => true
  | .release _ _ => true
  | .writeReg _ _ _ => true
  | .readReg _ _ => true
  | .processFrame _ xs => decide (xs.length < 65536)
  | .processBlock b n xs => decide (xs.length = n.toNat * b.toNat)
  | .readDl _ _ _ => true

end Sys2Proof
end

