-- ==== Sys2Proof/Decode.lean ====
section
/-!
DEFINITION. The decoder of the command stream, total on every list of words (spec/30_encoding.md R55 to R71, R74), the
byte transport of the words (spec/20_memory.md R45), and after them the encoder, written from the same tables.
-/

namespace Sys2Proof

/-- The fields of a header word (R56). -/
structure Header where
  op : Byte
  r : Byte
  imm : Half
  deriving DecidableEq, Repr

/-- Why no command can be taken from the stream. -/
inductive DecodeError where
  /-- The stream holds no word: the block is idle between commands (R165, R171). -/
  | noHeader
  /-- A header with `OP = 0x00` or `OP >= 0x08` (R70). -/
  | illegalOpcode (op : Byte)
  /-- The header stands, but so many of its operand words are not there yet (R176). -/
  | incomplete (missing : Nat)
  deriving DecidableEq, Repr

/-- R56: `OP = [31:24]`, `R = [23:16]`, `IMM16 = [15:0]`. -/
def headerOf (h : Word) : Header :=
  { op := h.extractLsb' 24 8, r := h.extractLsb' 16 8, imm := h.extractLsb' 0 16 }

/-- R56, the other way: the header word with these fields. -/
def headerWord (op r : Byte) (imm : Half) : Word :=
  op ++ r ++ imm

/-- R57, R70: `0x00` and `0x08` to `0xFF` are illegal. -/
def illegalOp (op : Byte) : Bool :=
  op.toNat == 0 || decide (8 ≤ op.toNat)

/-- R57, R66: how many operand words the header announces, a function of the header alone. -/
def opsCount (h : Header) : Nat :=
  match h.op.toNat with
  | 1 => 2
  | 3 => 1
  | 5 => h.imm.toNat
  | 6 => h.imm.toNat * h.r.toNat
  | 7 => 1
  | _ => 0

/-- R57, R67: how many response words the command emits, a function of the header alone. -/
def respCount (h : Header) : Nat :=
  match h.op.toNat with
  | 4 => 1
  | 5 => h.imm.toNat
  | 6 => h.imm.toNat * h.r.toNat
  | 7 => 1
  | _ => 0

/-- R69, R74 (`rsv`): a reserved field of the header is nonzero. -/
def reservedSet (h : Header) : Bool :=
  match h.op.toNat with
  | 1 => h.r != 0
  | 2 => h.r != 0 || h.imm != 0
  | 3 => h.imm != 0
  | 4 => h.r != 0x20 && h.imm != 0
  | 5 => h.r != 0
  | 7 => h.r != 0
  | _ => false

/-- R57, R59 to R65: the command with this header and these operand words. -/
def buildInstr (h : Header) (args : List Word) : Option Instr :=
  match h.op.toNat, args with
  | 1, [lo, hi] => some (.configure h.r h.imm lo hi)
  | 2, [] => some (.release h.r h.imm)
  | 3, [v] => some (.writeReg h.r h.imm v)
  | 4, [] => some (.readReg h.r h.imm)
  | 5, xs => some (.processFrame h.r xs)
  | 6, xs => some (.processBlock h.r h.imm xs)
  | 7, [i] => some (.readDl h.r h.imm i)
  | _, _ => none

/-- R55, R74: takes one command from the head of the stream, and answers it with the words after it. -/
def decode (ws : List Word) : Except DecodeError (Instr × List Word) :=
  match ws with
  | [] => .error .noHeader
  | h :: rest =>
    if illegalOp (headerOf h).op then .error (.illegalOpcode (headerOf h).op)
    else if rest.length < opsCount (headerOf h) then
      .error (.incomplete (opsCount (headerOf h) - rest.length))
    else
      match buildInstr (headerOf h) (rest.take (opsCount (headerOf h))) with
      | some i => .ok (i, rest.drop (opsCount (headerOf h)))
      | none => .error (.illegalOpcode (headerOf h).op)

/-- R45: the words that a byte transport's bytes carry, each least significant byte first. A tail shorter than a word
carries none. -/
def wordsOfBytes : List Byte → List Word
  | b0 :: b1 :: b2 :: b3 :: rest => (b3 ++ b2 ++ b1 ++ b0 : Word) :: wordsOfBytes rest
  | _ => []

/-- R45: a word's bytes on a byte transport, least significant first. -/
def bytesOfWord (w : Word) : List Byte :=
  [w.extractLsb' 0 8, w.extractLsb' 8 8, w.extractLsb' 16 8, w.extractLsb' 24 8]

/-- R45: a word stream's bytes on a byte transport. -/
def bytesOfWords : List Word → List Byte
  | [] => []
  | w :: ws => bytesOfWord w ++ bytesOfWords ws

/-- R45, R74: the decoder on a byte transport. -/
def decodeBytes (bs : List Byte) : Except DecodeError (Instr × List Word) :=
  decode (wordsOfBytes bs)

/-- `n` words read from a number, the first word least significant. -/
def wordsOfNat : Nat → Nat → List Word
  | 0, _ => []
  | n + 1, v => BitVec.ofNat 32 v :: wordsOfNat n (v / 4294967296)

/-- The words of the instruction whose first `nbits` bits are `w` (bit 0 the least significant of the first word) and
whose other bits are 0: the header and as many operand words as it announces (R66). -/
def tableWords (nbits w : Nat) : List Word :=
  wordsOfNat (1 + opsCount (headerOf (BitVec.ofNat 32 (w % 2 ^ nbits)))) (w % 2 ^ nbits)

/-- What the decoder reads from an instruction of the opcode table, its bits numbered as the table numbers them. -/
def decodeTableWord (nbits w : Nat) : Option Instr :=
  match decode (tableWords nbits w) with
  | .ok (i, _) => some i
  | .error _ => none

/-- R57, R59 to R65: the words of a command, header first. -/
def encode : Instr → List Word
  | .configure r ch lo hi => [headerWord 0x01 r ch, lo, hi]
  | .release r imm => [headerWord 0x02 r imm]
  | .writeReg reg imm v => [headerWord 0x03 reg imm, v]
  | .readReg reg idx => [headerWord 0x04 reg idx]
  | .processFrame r xs => headerWord 0x05 r (BitVec.ofNat 16 xs.length) :: xs
  | .processBlock b n xs => headerWord 0x06 b n :: xs
  | .readDl r ch i => [headerWord 0x07 r ch, i]

end Sys2Proof
end

