-- ==== Sys2Proof/Config.lean ====
section
/-!
DEFINITION. What the implementation fixes and the spec leaves open (spec/00_scope.md R7, R16; spec/93_implementation_defined.md U1, U2, U5).
Every constant here is opaque, with no body: nothing in Lean can find its value, so a theorem holds whatever it is.
The properties the spec does state of each (a range, a sign, a NaN) are imposed by the one operation that reads it,
in Machine/Float.lean and Machine/Ops.lean, and nothing else is.
-/

namespace Sys2Proof

/-- Any natural number: `Machine.maxChannels` reads from it an integer of `1 .. 65535` (R7(a), U5). DEDUCED,
safe: every value R7 admits is some value of it (log entry 1). -/
opaque Config.maxChannelsRaw : Nat

/-- Any natural number: `Machine.maxCapacity` reads from it an integer of `1024 .. 2^24` (R7(b), U5). DEDUCED,
safe: every value R7 admits is some value of it (log entry 1). -/
opaque Config.maxCapacityRaw : Nat

/-- Any function: `Machine.sin2pi` reads from it a sine unit with the four properties of R16 (R7(c), U1).
DEDUCED, safe: every function R16 admits is some value of it (log entry 2). -/
opaque Config.sin2piRaw : F32 → F32

/-- The FREE VALUE of U2: the encoding of the `n`-th NaN that arithmetic produces. `Machine.freeNaN` reads from it some
NaN, and which one is left open. DESIGN CHOICE, safe for a claim about one run (log entry 3). -/
opaque Config.freeNaNRaw : Nat → F32

end Sys2Proof
end

