-- ==== Sys2Proof/Machine/Float.lean ====
section
/-!
DEFINITION. The numeric primitives (spec/00_scope.md R12 to R17): IEEE binary32 arithmetic with one rounding to nearest,
ties to even, gradual underflow and the default results of overflow, invalid operations and division by zero; the
ordered comparisons; the conversions; the literals of R15; the sine unit of R16.

A finite binary32 value is a whole number of units of `2^-149`, so it is held as its sign and that number; an operation
computes the exact result as a quotient of naturals in those units and rounds it once. Where an operation's result is a
NaN, which NaN is a free value (U2): each primitive takes the number `n` of the draw to use for it (log entry 3). What
IEEE 754 says and R12 only names is PRESUMED (log entry 9).
-/

namespace Sys2Proof.Machine

/-! ### Encodings -/

/-- The magnitude bits of infinity; a larger magnitude is a NaN. -/
def infMag : Nat := 0x7F800000

/-- Bit 31 (R45). -/
def signBit (b : F32) : Bool := decide (2147483648 ≤ b.toNat)

/-- Bits [30:0]. -/
def magBits (b : F32) : Nat := b.toNat % 2147483648

/-- R13: true for every NaN encoding. -/
def isNaN (b : F32) : Bool := decide (infMag < magBits b)

/-- The encoding with this sign and these magnitude bits. -/
def packF32 (neg : Bool) (mag : Nat) : F32 :=
  BitVec.ofNat 32 (mag + if neg then 2147483648 else 0)

/-- The value of finite magnitude bits, in units of `2^-149`: subnormals and the first normal binade are their own
count, and each further binade doubles the unit. -/
def unitsOf (mag : Nat) : Nat :=
  if mag < 8388608 then mag
  else (8388608 + mag % 8388608) * 2 ^ (mag / 8388608 - 1)

/-- What a binary32 encoding stands for (R12). -/
inductive Fp where
  | nan
  | inf (neg : Bool)
  /-- A finite value: its sign and its magnitude in units of `2^-149`. Both zeros are `fin _ 0`. -/
  | fin (neg : Bool) (units : Nat)
  deriving DecidableEq, Repr

/-- The value of an encoding. -/
def fpOf (b : F32) : Fp :=
  if magBits b < infMag then .fin (signBit b) (unitsOf (magBits b))
  else if magBits b = infMag then .inf (signBit b)
  else .nan

/-- R13: `neg32` flips the sign bit. -/
def neg32 (b : F32) : F32 := b ^^^ 0x80000000#32

/-- R13: `abs32` clears the sign bit. -/
def abs32 (b : F32) : F32 := b &&& 0x7FFFFFFF#32

/-! ### Rounding -/

/-- The whole number nearest `n / d`, ties to even. -/
def rneDiv (n d : Nat) : Nat :=
  if d < 2 * (n % d) ∨ (2 * (n % d) = d ∧ n / d % 2 = 1) then n / d + 1 else n / d

/-- How many bits the whole part of `n / d` has above a significand of `p` bits: the exponent of the rounding unit. -/
def dropBits (p n d : Nat) : Nat := Nat.log2 (n / d) + 1 - p

/-- The magnitude bits of `n / d` units, rounded once to a significand of `p` bits; `top` is infinity's magnitude, where
an overflow ends. A carry out of the significand moves into the exponent by itself. -/
def roundMag (p top n d : Nat) : Nat :=
  min (dropBits p n d * 2 ^ (p - 1) + rneDiv n (d * 2 ^ dropBits p n d)) top

/-- Binary32: 24 significand bits, `n / d` in units of `2^-149`. -/
def round32 (n d : Nat) : Nat := roundMag 24 infMag n d

/-! ### NaN results -/

/-- An encoding as a NaN: itself if it is one, otherwise some NaN. -/
def asNaN (b : F32) : F32 := if isNaN b then b else 0x7FC00000#32

/-- U2: the encoding of the `n`-th NaN result, any NaN (log entry 3). -/
def freeNaN (n : Nat) : F32 := asNaN (Config.freeNaNRaw n)

/-! ### Arithmetic -/

/-- The exact sum of two finite values, rounded once (R12). An exact zero of operands that are not two negative zeros is
`+0`, as round to nearest has it. -/
def addFinite (s : Bool) (x : Nat) (t : Bool) (y : Nat) : F32 :=
  if s = t then packF32 s (round32 (x + y) 1)
  else if y < x then packF32 s (round32 (x - y) 1)
  else if x < y then packF32 t (round32 (y - x) 1)
  else packF32 false 0

/-- R12: `add32`. -/
def add32 (n : Nat) (a b : F32) : F32 :=
  match fpOf a, fpOf b with
  | .nan, _ => freeNaN n
  | _, .nan => freeNaN n
  | .inf s, .inf t => if s = t then packF32 s infMag else freeNaN n
  | .inf s, .fin _ _ => packF32 s infMag
  | .fin _ _, .inf t => packF32 t infMag
  | .fin s x, .fin t y => addFinite s x t y

/-- R12: `sub32`. -/
def sub32 (n : Nat) (a b : F32) : F32 := add32 n a (neg32 b)

/-- R12: `mul32`. Zero times infinity is an invalid operation. -/
def mul32 (n : Nat) (a b : F32) : F32 :=
  match fpOf a, fpOf b with
  | .nan, _ => freeNaN n
  | _, .nan => freeNaN n
  | .inf s, .inf t => packF32 (s != t) infMag
  | .inf s, .fin t y => if y = 0 then freeNaN n else packF32 (s != t) infMag
  | .fin s x, .inf t => if x = 0 then freeNaN n else packF32 (s != t) infMag
  | .fin s x, .fin t y => packF32 (s != t) (round32 (x * y) (2 ^ 149))

/-- R12: `div32`. A nonzero finite value over zero is a signed infinity; 0/0 and infinity over infinity are invalid. -/
def div32 (n : Nat) (a b : F32) : F32 :=
  match fpOf a, fpOf b with
  | .nan, _ => freeNaN n
  | _, .nan => freeNaN n
  | .inf _, .inf _ => freeNaN n
  | .inf s, .fin t _ => packF32 (s != t) infMag
  | .fin s _, .inf t => packF32 (s != t) 0
  | .fin s x, .fin t y =>
    if y = 0 then (if x = 0 then freeNaN n else packF32 (s != t) infMag)
    else packF32 (s != t) (round32 (x * 2 ^ 149) y)

/-! ### Comparisons -/

/-- Orders the encodings that are no NaN as their values: both zeros are 0, and magnitudes are ordered as their bits. -/
def ordKey (b : F32) : Int := if signBit b then -(magBits b : Int) else (magBits b : Int)

/-- R13: `a < b`, false on a NaN. -/
def lt32 (a b : F32) : Bool := !isNaN a && !isNaN b && decide (ordKey a < ordKey b)

/-- R13: `a <= b`, false on a NaN. -/
def le32 (a b : F32) : Bool := !isNaN a && !isNaN b && decide (ordKey a ≤ ordKey b)

/-- R13: `a > b`. -/
def gt32 (a b : F32) : Bool := lt32 b a

/-- R13: `a >= b`. -/
def ge32 (a b : F32) : Bool := le32 b a

/-! ### Conversions -/

/-- R14: `toF32`, exact below `2^24`. -/
def toF32 (n : Nat) : F32 := packF32 false (round32 (n * 2 ^ 149) 1)

/-- R14: `floorInt`, for a finite value `>= 0` (`-0` is one), and nothing otherwise. -/
def floorInt (v : F32) : Option Nat :=
  match fpOf v with
  | .fin neg units => if neg = true ∧ units ≠ 0 then none else some (units / 2 ^ 149)
  | .inf _ => none
  | .nan => none

/-- Bit 63 of a binary64 encoding. -/
def signBit64 (d : F64) : Bool := decide (9223372036854775808 ≤ d.toNat)

/-- Bits [62:0] of a binary64 encoding. -/
def magBits64 (d : F64) : Nat := d.toNat % 9223372036854775808

/-- The magnitude bits of binary64 infinity; a larger magnitude is a NaN. -/
def infMag64 : Nat := 0x7FF0000000000000

/-- R13 on binary64 (R131). -/
def isNaN64 (d : F64) : Bool := decide (infMag64 < magBits64 d)

/-- The value of finite binary64 magnitude bits, in units of `2^-1074`. -/
def unitsOf64 (mag : Nat) : Nat :=
  if mag < 4503599627370496 then mag
  else (4503599627370496 + mag % 4503599627370496) * 2 ^ (mag / 4503599627370496 - 1)

/-- R14, R17: `roundF32` of a binary64 value: nearest, ties to even, overflowing to a signed infinity. A NaN is no value
that R14 rounds; it gives a free NaN, and CONFIGURE rounds none (R131). A zero keeps its sign, as does a negative value
that rounds to zero: DESIGN CHOICE, unsafe in principle, but CONFIGURE rounds only values above 0 (log entry 17). -/
def roundF32 (n : Nat) (d : F64) : F32 :=
  if isNaN64 d then freeNaN n
  else if magBits64 d = infMag64 then packF32 (signBit64 d) infMag
  else packF32 (signBit64 d) (round32 (unitsOf64 (magBits64 d)) (2 ^ 925))

/-- R14: `roundF32` of the real number `num / den`, with its sign. R14 is silent on the sign of a zero result, of a literal
`-0.0` or of a negative number that rounds to zero: the minus sign is kept, giving `-0`. DESIGN CHOICE, unsafe: log
entry 17. -/
def roundRational32 (neg : Bool) (num den : Nat) : F32 :=
  packF32 neg (round32 (num * 2 ^ 149) den)

/-- R72: the binary64 encoding nearest the real number `num / den`, with its sign. The sign of a zero result is kept as in
`roundRational32` (DESIGN CHOICE, unsafe: log entry 17), and a number beyond the greatest finite binary64 by half a unit or
more gives a signed infinity (DESIGN CHOICE, unsafe: log entry 20). -/
def roundRational64 (neg : Bool) (num den : Nat) : F64 :=
  BitVec.ofNat 64 (roundMag 53 infMag64 (num * 2 ^ 1074) den +
    if neg then 9223372036854775808 else 0)

/-! ### The literals (R15) -/

def lit_0_5 : F32 := 0x3F000000#32
def lit_1_0 : F32 := 0x3F800000#32
def lit_2_0 : F32 := 0x40000000#32
def lit_2_5 : F32 := 0x40200000#32
def lit_1_5 : F32 := 0x3FC00000#32
def lit_0_9995 : F32 := 0x3F7FDF3B#32
def lit_0_0005 : F32 := 0x3A03126F#32
def lit_15 : F32 := 0x41700000#32
def lit_7 : F32 := 0x40E00000#32
def lit_1000 : F32 := 0x447A0000#32
def lit_10 : F32 := 0x41200000#32
def lit_0_999 : F32 := 0x3F7FBE77#32
def lit_0_3 : F32 := 0x3E99999A#32
def lit_0_7 : F32 := 0x3F333333#32
def lit_0_2 : F32 := 0x3E4CCCCD#32
def lit_0_95 : F32 := 0x3F733333#32
def lit_0_99 : F32 := 0x3F7D70A4#32
def lit_0_1 : F32 := 0x3DCCCCCD#32

/-- `+0`. -/
def lit_0 : F32 := 0#32

/-- `-1.0`: R117's `sgn` of a negative output. -/
def lit_m1 : F32 := 0xBF800000#32

/-! ### Clamps and the sine unit -/

/-- R36, R109: `clampParam` and `clampDelay` are one computation; a NaN becomes the lower bound, and `-0` is kept. -/
def clamp32 (v lo hi : F32) : F32 :=
  if ge32 v lo then (if gt32 v hi then hi else v) else lo

/-- R16: the sine unit. `Config.sin2piRaw` is any function; (b) a finite phase gives a value in `[-1, 1]`, (c) `+0` gives
`+0`, (d) an infinity or a NaN gives a NaN, and (a) the result depends on the phase alone. Every function with the four
properties is this one for some raw function (log entry 2). -/
def sin2pi (p : F32) : F32 :=
  match fpOf p with
  | .fin neg units =>
    if neg = false ∧ units = 0 then lit_0
    else if le32 lit_m1 (Config.sin2piRaw p) && le32 (Config.sin2piRaw p) lit_1_0 then
      Config.sin2piRaw p
    else lit_0
  | .inf _ => asNaN (Config.sin2piRaw p)
  | .nan => asNaN (Config.sin2piRaw p)

end Sys2Proof.Machine
end

