-- ==== Sys2Proof/Machine/State.lean ====
section
/-!
DEFINITION. The state of the block as plain data (spec/10_state.md R20 to R38), the reasons a step can stop, and the state
after power-on reset (spec/70_reset_and_hazards.md R170).
-/

namespace Sys2Proof.Machine

/-- The codes of `STATUS.STATE` (R22). Codes 6 and 7 are never produced, so no constructor stands for them. -/
inductive StateCode where
  /-- 0: no CONFIGURE has run since power-on. -/
  | unconfigured
  /-- 1: the last CONFIGURE succeeded and no RELEASE has run since. -/
  | enabled
  /-- 2: the last of CONFIGURE and RELEASE was a RELEASE. -/
  | released
  /-- 3: the last CONFIGURE had a sample rate that is a NaN or `<= 0`. -/
  | badSampleRate
  /-- 4: the last CONFIGURE had a channel count of 0 or above `MAX_CHANNELS`. -/
  | badChannelCount
  /-- 5: the last CONFIGURE computed a capacity below 4 or above `MAX_CAPACITY`. -/
  | badCapacity
  deriving DecidableEq, Repr

/-- The delay-line storage as bytes (Host.Cell), in one canonical form: addresses strictly rising, no byte 0 listed.
Cell `i` of channel `c` is the four bytes at `4 * (c * 2^32 + i)`, least significant first (DESIGN CHOICE, safe: log entry 5).
A byte that is not listed reads as 0 (R49, R82); a cell that is not active in the session has no value at all (R42, U3;
DESIGN CHOICE, safe: log entry 4). -/
abbrev Memory := List Host.Cell

/-- The write cursors, in the same canonical form: (channel, cursor) pairs, channels strictly rising, no cursor 0
listed; a channel that is not listed has cursor 0 (R37, R133; DESIGN CHOICE, safe: log entry 12). -/
abbrev Cursors := List (Nat × Word)

/-- The architectural state (R20), the command port with the words in flight on it (R44(3), R55; the model's own: R20
says the stream is no state of the block), and the model's own counter of free NaNs. -/
structure State where
  /-- `STATUS.STATE` (R21, R22). -/
  state : StateCode
  /-- `STATUS.BADCMD` (R21, R153). -/
  badCmd : Bool
  /-- `CAPACITY` (R23). -/
  capacity : Word
  /-- `CHANNELS` (R24). -/
  channels : Word
  /-- `SR_LO` (R25). -/
  srLo : Word
  /-- `SR_HI` (R25). -/
  srHi : Word
  /-- `SR32` (R26). -/
  sr32 : F32
  /-- `RATE` (R27). -/
  rate : F32
  /-- `DEPTH` (R28). -/
  depth : F32
  /-- `MIX` (R29). -/
  mix : F32
  /-- `PHASE` (R30). -/
  phase : F32
  /-- `SMOOTH` (R31). -/
  smooth : F32
  /-- `WPTR[c]` (R32). -/
  wptr : Cursors
  /-- `DL[c][i]` (R40). -/
  mem : Memory
  /-- Model's own: the command words the host has sent and the block has not taken (R44(3), R55; log entry 6). -/
  cmdIn : List Word
  /-- Model's own: the response words emitted and not yet taken by the host (R55, R177; log entry 6). -/
  respOut : List Word
  /-- Model's own: the response words the host has taken, oldest first (R182's observation; log entry 6). -/
  hostLog : List Word
  /-- Model's own: how many free NaNs have been drawn (U2; log entry 3). -/
  nanDraw : Nat
  deriving DecidableEq, Repr

/-- Why a step stops with a fault. The spec gives the block no fault (R150), and no state that meets `State.Inv` raises
one: both stand for reads the spec gives no meaning to, in states no run reaches. -/
inductive Fault where
  /-- MemRead or MemWrite of a cell outside `c < CHANNELS`, `i < CAPACITY`, where R42 and R43 do not define it. Raised by
  `memRead` and `memWrite`, reached only from a state outside `State.Inv`. SAFE: it stops where the spec is silent (log entry 4). -/
  | inactiveCell (c i : Nat)
  /-- `floorInt` of a value that is negative, infinite or a NaN, where R14 does not define it. Raised by `lane`, reached
  only from a state outside `State.Inv`. SAFE: it stops where the spec is silent (log entry 11). -/
  | unindexablePosition (rp : F32)
  deriving DecidableEq, Repr

/-- Why a step refuses. -/
inductive Refusal where
  /-- An instruction that has no meaning yet. Raised by no arm of `exec`: every instruction has its meaning. SAFE. -/
  | notModelled (mnemonic : String)
  deriving DecidableEq, Repr

/-- The state right after power-on reset (R37, R170). No cell is active, so no cell has a value (R49); the ports are
empty (R171; DESIGN CHOICE: log entry 6); the NaN counter starts at 0 (DESIGN CHOICE: log entry 3). -/
def State.reset : State where
  state := .unconfigured
  badCmd := false
  capacity := 0
  channels := 0
  srLo := 0
  srHi := 0
  sr32 := 0
  rate := 0x3DCCCCCD#32
  depth := 0
  mix := 0
  phase := 0
  smooth := 0x3F000000#32
  wptr := []
  mem := []
  cmdIn := []
  respOut := []
  hostLog := []
  nanDraw := 0

end Sys2Proof.Machine
end

