-- ==== Sys2Proof/Machine/Ops.lean ====
section
/-!
DEFINITION. The named operations over the state: the storage limits, the canonical lists, the delay-line memory
(spec/20_memory.md), the registers, the command port, and the command error. The block has no exception to take (R150,
R157); `setBadCmd` and `notExecuted` are what it does instead (R152, R153, R69), once for all commands.
-/

namespace Sys2Proof.Machine

/-! ### The storage limits -/

/-- R7(a), R33: `MAX_CHANNELS`, an integer of `1 .. 65535`. -/
def maxChannels : Nat := 1 + Config.maxChannelsRaw % 65535

/-- R7(b), R33: `MAX_CAPACITY`, an integer of `1024 .. 2^24`. -/
def maxCapacity : Nat := 1024 + Config.maxCapacityRaw % 16776193

/-! ### Canonical lists: keys strictly rising, no value equal to what an unlisted key reads as -/

/-- What a key reads as: its listed value, otherwise the default. -/
def cellsGet {β : Type} (dflt : β) : List (Nat × β) → Nat → β
  | [], _ => dflt
  | (a, v) :: t, k => if a = k then v else cellsGet dflt t k

/-- Writes a key, keeping the canonical form: writing the default removes the entry. -/
def cellsSet {β : Type} [DecidableEq β] (dflt : β) : List (Nat × β) → Nat → β → List (Nat × β)
  | [], k, v => if v = dflt then [] else [(k, v)]
  | (a, w) :: t, k, v =>
    if k < a then (if v = dflt then (a, w) :: t else (k, v) :: (a, w) :: t)
    else if k = a then (if v = dflt then t else (k, v) :: t)
    else (a, w) :: cellsSet dflt t k v

/-- The canonical form. -/
abbrev CellsWf {β : Type} (dflt : β) (l : List (Nat × β)) : Prop :=
  l.Pairwise (fun x y => x.1 < y.1) ∧ ∀ e ∈ l, e.2 ≠ dflt

/-! ### The delay-line memory -/

/-- The canonical form of the memory. -/
abbrev Memory.wf (m : Memory) : Prop := CellsWf (0 : Byte) m

/-- What an unlisted byte reads as: R49 and R82, the zeros of the configuration clear. -/
def Memory.unlisted : Byte := 0

/-- One byte of the memory. -/
def Memory.readByte (m : Memory) (a : Nat) : Byte := cellsGet Memory.unlisted m a

/-- Writes one byte of the memory. -/
def Memory.writeByte (m : Memory) (a : Nat) (b : Byte) : Memory := cellsSet Memory.unlisted m a b

/-- The address of the first of the four bytes of cell `i` of channel `c` (DESIGN CHOICE, safe: log entry 5). Cells of different channels,
and cells whose indices are different 32-bit numbers, share no byte. -/
def cellAddr (c i : Nat) : Nat := 4 * (c * 4294967296 + i)

/-- The word at an address, its bytes least significant first (R45; DESIGN CHOICE, safe: log entry 5). -/
def Memory.readWord (m : Memory) (a : Nat) : Word :=
  (m.readByte (a + 3) ++ m.readByte (a + 2) ++ m.readByte (a + 1) ++ m.readByte a : Word)

/-- Writes the word at an address. -/
def Memory.writeWord (m : Memory) (a : Nat) (w : Word) : Memory :=
  (((m.writeByte a (w.extractLsb' 0 8)).writeByte (a + 1) (w.extractLsb' 8 8)).writeByte (a + 2)
    (w.extractLsb' 16 8)).writeByte (a + 3) (w.extractLsb' 24 8)

/-- R48, R49: cell `i` of channel `c` is active: in use in this session. -/
def State.active (s : State) (c i : Nat) : Bool :=
  decide (c < s.channels.toNat) && decide (i < s.capacity.toNat)

/-- What the model holds of cell `i` of channel `c`: its word if it is active, otherwise no value (U3). -/
def State.cell (s : State) (c i : Nat) : Option Word :=
  if s.active c i then some (s.mem.readWord (cellAddr c i)) else none

/-- R42: `MemRead(c, i)`. -/
def memRead (c i : Nat) (s : State) : Except Fault Word :=
  match s.cell c i with
  | some w => .ok w
  | none => .error (.inactiveCell c i)

/-! ### Registers -/

/-- R22: the block is enabled exactly when `STATE = 1`. -/
def State.isEnabled (s : State) : Bool := decide (s.state = .enabled)

/-- R32: the write cursor of channel `c`. -/
def State.cursor (s : State) (c : Nat) : Word := cellsGet (0 : Word) s.wptr c

def State.setState (s : State) (c : StateCode) : State := { s with state := c }

/-- R153: `setBadCmd()` and nothing else. -/
def State.setBadCmd (s : State) : State := { s with badCmd := true }

/-- R139: the write-1-to-clear of `BADCMD`. -/
def State.clearBadCmd (s : State) : State := { s with badCmd := false }

/-- R23, R24: `CAPACITY` and `CHANNELS`, written together. -/
def State.setExtent (s : State) (cap ch : Word) : State := { s with capacity := cap, channels := ch }

/-- R25: `SR_LO` and `SR_HI`. -/
def State.setSampleRate (s : State) (lo hi : Word) : State := { s with srLo := lo, srHi := hi }

/-- R26: `SR32`. -/
def State.setSr32 (s : State) (v : F32) : State := { s with sr32 := v }

def State.setRate (s : State) (v : F32) : State := { s with rate := v }

def State.setDepth (s : State) (v : F32) : State := { s with depth := v }

def State.setMix (s : State) (v : F32) : State := { s with mix := v }

/-- R30, R31: `PHASE` and `SMOOTH`. -/
def State.setOscillator (s : State) (p v : F32) : State := { s with phase := p, smooth := v }

/-- R32: the write cursor of channel `c`. -/
def State.setCursor (s : State) (c : Nat) (w : Word) : State :=
  { s with wptr := cellsSet (0 : Word) s.wptr c w }

/-- R133: every write cursor is 0. -/
def State.clearCursors (s : State) : State := { s with wptr := [] }

def State.setMem (s : State) (m : Memory) : State := { s with mem := m }

/-- Counts `k` free NaNs as drawn, so that later ones are others (log entry 3). -/
def State.draw (s : State) (k : Nat) : State := { s with nanDraw := s.nanDraw + k }

/-- R43: `MemWrite(c, i, v)`. -/
def memWrite (c i : Nat) (v : Word) (s : State) : Except Fault State :=
  if s.active c i then .ok (s.setMem (s.mem.writeWord (cellAddr c i) v))
  else .error (.inactiveCell c i)

/-- R49: no byte is listed. Every active cell then reads `+0` (R132's clear, R82), and a cell that is not active has no
value (R136, R134: unspecified; DESIGN CHOICE, safe: log entry 4). -/
def State.forgetCells (s : State) : State := s.setMem []

/-! ### The command port -/

/-- R10, R55: `respond`, for response words in order. -/
def State.respond (s : State) (ws : List Word) : State := { s with respOut := s.respOut ++ ws }

/-- The host takes every response word the block has emitted (R177; DESIGN CHOICE, safe: log entry 6). -/
def State.takeResponses (s : State) : State :=
  { s with hostLog := s.hostLog ++ s.respOut, respOut := [] }

/-- The command words left on the port. -/
def State.setInput (s : State) (ws : List Word) : State := { s with cmdIn := ws }

/-- R181: the host sends command words. -/
def State.send (s : State) (ws : List Word) : State := s.setInput (s.cmdIn ++ ws)

/-- R45, R181: the host sends command words on a byte transport. -/
def State.sendBytes (s : State) (bs : List Byte) : State := s.send (wordsOfBytes bs)

/-- R69: a command that is not executed emits its responses, sets `BADCMD`, and changes no other state. -/
def State.notExecuted (s : State) (resp : List Word) : State := (s.respond resp).setBadCmd

/-- R70: an illegal header is a one-word command that sets `BADCMD` and does nothing else. -/
def State.illegalHeader (s : State) : State := (s.setInput s.cmdIn.tail).setBadCmd

/-- Takes the next command from the port (R55): the command, and the state without its words. -/
def fetch (s : State) : Except DecodeError (Instr × State) :=
  match decode s.cmdIn with
  | .ok (i, rest) => .ok (i, s.setInput rest)
  | .error e => .error e

/-- What the block does when the port holds no command it can take. With no word it is idle (R165); with a header whose
operand words are not all there it waits for them (R176; DEDUCED, unsafe: log entry 7); an illegal header is R70's. -/
def noCommand (e : DecodeError) (s : State) : State :=
  match e with
  | .noHeader => s
  | .incomplete _ => s
  | .illegalOpcode _ => s.illegalHeader

end Sys2Proof.Machine
end

