-- ==== Sys2Proof/Machine/Operands.lean ====
section
/-!
DEFINITION. The operand forms: register numbers (spec/10_state.md R33, R34, R37), the sample rate's two words and the
parameter words (spec/30_encoding.md R58, R68).
-/

namespace Sys2Proof.Machine

/-- R37: the register with this number, none for an unassigned one (R34). -/
def regOfNumber (reg : Byte) : Option RegName :=
  match reg.toNat with
  | 0x00 => some .status
  | 0x01 => some .capacity
  | 0x02 => some .channels
  | 0x03 => some .srLo
  | 0x04 => some .srHi
  | 0x05 => some .sr32
  | 0x08 => some .rate
  | 0x09 => some .depth
  | 0x0A => some .mix
  | 0x10 => some .phase
  | 0x11 => some .smooth
  | 0x20 => some .wptr
  | 0x30 => some .id
  | 0x31 => some .maxch
  | 0x32 => some .maxcap
  | _ => none

/-- R37, the other way: the number of a register. -/
def numberOfReg : RegName → Byte
  | .status => 0x00
  | .capacity => 0x01
  | .channels => 0x02
  | .srLo => 0x03
  | .srHi => 0x04
  | .sr32 => 0x05
  | .rate => 0x08
  | .depth => 0x09
  | .mix => 0x0A
  | .phase => 0x10
  | .smooth => 0x11
  | .wptr => 0x20
  | .id => 0x30
  | .maxch => 0x31
  | .maxcap => 0x32

/-- R2, R33: the identification word. -/
def idWord : Word := 0x4B5A0001#32

/-- R59, R68: the sample rate is the binary64 value `{operand 2, operand 1}`. -/
def sampleRateOf (lo hi : Word) : F64 := hi ++ lo

/-- R27, R36: what a write of `v` to `RATE` stores. -/
def clampRate (v : F32) : F32 := clamp32 v lit_0_1 lit_2_0

/-- R28, R29, R36: what a write of `v` to `DEPTH` or `MIX` stores. -/
def clampUnit (v : F32) : F32 := clamp32 v lit_0 lit_1_0

end Sys2Proof.Machine
end

