-- ==== Sys2Proof/Machine/Flags.lean ====
section
/-!
DEFINITION. The fields of `STATUS` (spec/10_state.md R21, R22; spec/60_exceptions.md R152, R153), the block's only flags
(R35), and when a command's reserved fields make it not executed (spec/30_encoding.md R69).
-/

namespace Sys2Proof.Machine

/-- R22: the code of `STATUS.STATE`, bits [2:0]. -/
def StateCode.code : StateCode → BitVec 3
  | .unconfigured => 0
  | .enabled => 1
  | .released => 2
  | .badSampleRate => 3
  | .badChannelCount => 4
  | .badCapacity => 5

/-- R21, R142: `STATUS` as it is read, `zext_32({BADCMD, STATE})`. -/
def State.statusWord (s : State) : Word :=
  (0#28 ++ BitVec.ofBool s.badCmd ++ s.state.code : Word)

/-- R139: a write of `v` to `STATUS` clears `BADCMD` if bit 3 is set, and changes nothing otherwise. -/
def State.writeStatus (s : State) (v : Word) : State :=
  if v.getLsbD 3 then s.clearBadCmd else s

/-- R57, R69: `R` of CONFIGURE, PROCESS_FRAME and READ_DL is reserved. -/
def rsvR (r : Byte) : Bool := decide (r ≠ 0)

/-- R57, R69: both fields of RELEASE are reserved. -/
def rsvBoth (r : Byte) (imm : Half) : Bool := decide (r ≠ 0) || decide (imm ≠ 0)

/-- R57, R69: `IMM16` of WRITE_REG is reserved. -/
def rsvImm (imm : Half) : Bool := decide (imm ≠ 0)

/-- R58, R69: `IMM16` of READ_REG is reserved unless the register is `WPTR`. -/
def rsvIndex (reg : Byte) (idx : Half) : Bool := decide (reg ≠ 0x20) && decide (idx ≠ 0)

/-- R69: the command's reserved field is nonzero, so it is not executed. PROCESS_BLOCK has no reserved field. -/
def rsvOf : Instr → Bool
  | .configure r _ _ _ => rsvR r
  | .release r imm => rsvBoth r imm
  | .writeReg _ imm _ => rsvImm imm
  | .readReg reg idx => rsvIndex reg idx
  | .processFrame r _ => rsvR r
  | .processBlock _ _ _ => false
  | .readDl r _ _ => rsvR r

end Sys2Proof.Machine
end

