-- ==== Sys2Proof/Machine/Control.lean ====
section
/-!
DEFINITION. The control commands (spec/44_control.md R130 to R149).
-/

namespace Sys2Proof.Machine

/-! ### CONFIGURE -/

/-- R131: `SR <= 0`, for a sample rate that is no NaN; `-0` is. -/
def sampleRateNotPositive (sr : F64) : Bool := signBit64 sr || decide (magBits64 sr = 0)

/-- R131: `max(1024, floor(SR * 35 / 1000))`, exact, of a finite sample rate. -/
def capacityOf (sr : F64) : Nat :=
  max 1024 (unitsOf64 (magBits64 sr) * 35 / (1000 * 2 ^ 1074))

/-- R131: CHECK_CONFIG, its checks in their order. The answer is the new `STATE`. -/
def checkConfig (sr : F64) (ch : Nat) : StateCode :=
  if isNaN64 sr || sampleRateNotPositive sr then .badSampleRate
  else if ch = 0 ∨ maxChannels < ch then .badChannelCount
  else if magBits64 sr = infMag64 then .badCapacity
  else if capacityOf sr < 4 ∨ maxCapacity < capacityOf sr then .badCapacity
  else .enabled

/-- R133: RESET_SESSION, on every CONFIGURE. -/
def resetSession (s : State) : State := (s.setOscillator lit_0 lit_0_5).clearCursors

/-- R132: START_SESSION. The clear leaves every active cell `+0`. -/
def startSession (sr : F64) (ch : Nat) (s : State) : State :=
  (((s.setExtent (BitVec.ofNat 32 (capacityOf sr)) (BitVec.ofNat 32 ch)).setSr32
    (roundF32 s.nanDraw sr)).forgetCells).setState .enabled

/-- R134, R136: the session, if any, ends in a disabled state: no capacity, no channels, no cell with a value. -/
def endSession (code : StateCode) (s : State) : State :=
  ((s.setExtent 0 0).forgetCells).setState code

/-- R130: CONFIGURE. -/
def configure (ch : Half) (lo hi : Word) (s : State) : State :=
  match checkConfig (sampleRateOf lo hi) ch.toNat with
  | .enabled =>
    startSession (sampleRateOf lo hi) ch.toNat (resetSession (s.setSampleRate lo hi))
  | code => endSession code (resetSession (s.setSampleRate lo hi))

/-- CONFIGURE (R130). -/
def execConfigure (r : Byte) (ch : Half) (lo hi : Word) (s : State) :
    Host.Outcome State Fault Refusal :=
  if rsvR r then .next (s.notExecuted []) else .next (configure ch lo hi s)

/-! ### RELEASE -/

/-- RELEASE (R136). -/
def execRelease (r : Byte) (imm : Half) (s : State) : Host.Outcome State Fault Refusal :=
  if rsvBoth r imm then .next (s.notExecuted []) else .next (endSession .released s)

/-! ### Register access -/

/-- R138: WRITE_REG. A parameter is clamped, `STATUS` clears `BADCMD` on a set bit 3, and a read-only or unassigned
register is a command error. -/
def writeRegister (reg : Byte) (v : Word) (s : State) : State :=
  match regOfNumber reg with
  | some .rate => s.setRate (clampRate v)
  | some .depth => s.setDepth (clampUnit v)
  | some .mix => s.setMix (clampUnit v)
  | some .status => s.writeStatus v
  | _ => s.setBadCmd

/-- WRITE_REG (R138). -/
def execWriteReg (reg : Byte) (imm : Half) (v : Word) (s : State) :
    Host.Outcome State Fault Refusal :=
  if rsvImm imm then .next (s.notExecuted []) else .next (writeRegister reg v s)

/-- R142: what READ_REG finds under an assigned register: its value, or nothing for a cursor that cannot be read. -/
def readNamed (reg : RegName) (idx : Half) (s : State) : Option Word :=
  match reg with
  | .status => some s.statusWord
  | .capacity => some s.capacity
  | .channels => some s.channels
  | .srLo => some s.srLo
  | .srHi => some s.srHi
  | .sr32 => some s.sr32
  | .rate => some s.rate
  | .depth => some s.depth
  | .mix => some s.mix
  | .phase => some s.phase
  | .smooth => some s.smooth
  | .wptr =>
    if s.isEnabled ∧ idx.toNat < s.channels.toNat then some (s.cursor idx.toNat) else none
  | .id => some idWord
  | .maxch => some (BitVec.ofNat 32 maxChannels)
  | .maxcap => some (BitVec.ofNat 32 maxCapacity)

/-- R142: what READ_REG finds under a register number, nothing for an unassigned one. -/
def readRegister (reg : Byte) (idx : Half) (s : State) : Option Word :=
  match regOfNumber reg with
  | some name => readNamed name idx s
  | none => none

/-- R142, R145: a read responds the value it finds; where it finds none it responds 0 and sets `BADCMD`. -/
def respondRead (found : Option Word) (s : State) : State :=
  match found with
  | some w => s.respond [w]
  | none => s.notExecuted [0]

/-- READ_REG (R142). -/
def execReadReg (reg : Byte) (idx : Half) (s : State) : Host.Outcome State Fault Refusal :=
  if rsvIndex reg idx then .next (s.notExecuted [0]) else .next (respondRead (readRegister reg idx s) s)

/-! ### Delay-line read-back -/

/-- R145: the cell READ_DL finds: one that is active in an enabled block. -/
def readCell (ch : Half) (i : Word) (s : State) : Option Word :=
  if s.isEnabled then s.cell ch.toNat i.toNat else none

/-- READ_DL (R145). -/
def execReadDl (r : Byte) (ch : Half) (i : Word) (s : State) : Host.Outcome State Fault Refusal :=
  if rsvR r then .next (s.notExecuted [0]) else .next (respondRead (readCell ch i s) s)

end Sys2Proof.Machine
end

