-- ==== Sys2Proof/Machine/DelayLine.lean ====
section
/-!
DEFINITION. The delay line's micro-operations (spec/40_delay_line.md R75 to R82).
-/

namespace Sys2Proof.Machine

/-- R76: DL_WRITE stores at the current cursor; the cursor is unchanged. -/
def dlWrite (c : Nat) (v : F32) (s : State) : Except Fault State :=
  memWrite c (s.cursor c).toNat v s

/-- R77: DL_ADVANCE moves the cursor by 1 modulo the capacity. -/
def dlAdvance (c : Nat) (s : State) : State :=
  s.setCursor c (BitVec.ofNat 32 (((s.cursor c).toNat + 1) % s.capacity.toNat))

/-- R78: the index of tap `j` (0 to 3) at base index `idx1`: `(idx1 - 1 + j) mod cap`, the remainder that is never
negative (R9). -/
def tapIndex (cap idx1 j : Nat) : Nat :=
  (((idx1 : Int) - 1 + (j : Int)) % (cap : Int)).toNat

/-- The four taps of R78. -/
structure Taps where
  y0 : F32
  y1 : F32
  y2 : F32
  y3 : F32
  deriving DecidableEq, Repr

/-- R78: DL_TAPS. -/
def dlTaps (c idx1 : Nat) (s : State) : Except Fault Taps := do
  let y0 ← memRead c (tapIndex s.capacity.toNat idx1 0) s
  let y1 ← memRead c (tapIndex s.capacity.toNat idx1 1) s
  let y2 ← memRead c (tapIndex s.capacity.toNat idx1 2) s
  let y3 ← memRead c (tapIndex s.capacity.toNat idx1 3) s
  return { y0 := y0, y1 := y1, y2 := y2, y3 := y3 }

end Sys2Proof.Machine
end

