-- ==== Sys2Proof/Machine/Oscillator.lean ====
section
/-!
DEFINITION. The modulation oscillator (spec/41_oscillator.md R85 to R94). `n` is the number of the first free NaN draw.
-/

namespace Sys2Proof.Machine

/-- R85: the increment `RATE / SR32`. -/
def oscIncrement (n : Nat) (rate sr32 : F32) : F32 := div32 n rate sr32

/-- R86: subtracts 1.0 at most once. A NaN fails the comparison and is kept. -/
def oscWrap (n : Nat) (p : F32) : F32 := if ge32 p lit_1_0 then sub32 n p lit_1_0 else p

/-- R85, R86: the new `PHASE`. -/
def oscPhase (n : Nat) (rate sr32 phase : F32) : F32 :=
  oscWrap (n + 2) (add32 (n + 1) phase (oscIncrement n rate sr32))

/-- R87: `lfo = 0.5 + 0.5 * s`, for the sine `s`. -/
def oscLfo (n : Nat) (s : F32) : F32 := add32 (n + 1) lit_0_5 (mul32 n lit_0_5 s)

/-- R88: the new `SMOOTH`. -/
def oscSmooth (n : Nat) (smooth lfo : F32) : F32 :=
  add32 (n + 2) (mul32 n lit_0_9995 smooth) (mul32 (n + 1) lit_0_0005 lfo)

/-- How many free NaN draws one OSC_STEP may use. -/
def oscDraws : Nat := 8

/-- R89: OSC_STEP. -/
def oscStep (s : State) : State :=
  let p := oscPhase s.nanDraw s.rate s.sr32 s.phase
  let lfo := oscLfo (s.nanDraw + 3) (sin2pi p)
  (s.setOscillator p (oscSmooth (s.nanDraw + 5) s.smooth lfo)).draw oscDraws

end Sys2Proof.Machine
end

