-- ==== Sys2Proof/Machine/Interpolator.lean ====
section
/-!
DEFINITION. The Catmull-Rom interpolator (spec/42_interpolator.md R95 to R104). Every sum and product is one rounding, in
the order written. `n` is the number of the first free NaN draw.
-/

namespace Sys2Proof.Machine

/-- R96: `c1 = 0.5 * (y2 - y0)`. -/
def crC1 (n : Nat) (t : Taps) : F32 := mul32 (n + 1) lit_0_5 (sub32 n t.y2 t.y0)

/-- R97: `c2 = ((y0 - 2.5*y1) + 2.0*y2) - 0.5*y3`. -/
def crC2 (n : Nat) (t : Taps) : F32 :=
  sub32 (n + 5)
    (add32 (n + 3) (sub32 (n + 1) t.y0 (mul32 n lit_2_5 t.y1)) (mul32 (n + 2) lit_2_0 t.y2))
    (mul32 (n + 4) lit_0_5 t.y3)

/-- R98: `c3 = 0.5*(y3 - y0) + 1.5*(y1 - y2)`. -/
def crC3 (n : Nat) (t : Taps) : F32 :=
  add32 (n + 4) (mul32 (n + 1) lit_0_5 (sub32 n t.y3 t.y0))
    (mul32 (n + 3) lit_1_5 (sub32 (n + 2) t.y1 t.y2))

/-- How many free NaN draws one CR_INTERP may use. -/
def crDraws : Nat := 21

/-- R99: CR_INTERP, the direct power form: `((c0 + c1*frac) + c2*f2) + c3*f3`, `f2 = frac*frac`, `f3 = f2*frac`. -/
def crInterp (n : Nat) (t : Taps) (frac : F32) : F32 :=
  let c0 := t.y1
  let c1 := crC1 n t
  let c2 := crC2 (n + 2) t
  let c3 := crC3 (n + 8) t
  let f2 := mul32 (n + 13) frac frac
  let f3 := mul32 (n + 14) f2 frac
  add32 (n + 20)
    (add32 (n + 18) (add32 (n + 16) c0 (mul32 (n + 15) c1 frac)) (mul32 (n + 17) c2 f2))
    (mul32 (n + 19) c3 f3)

end Sys2Proof.Machine
end

