-- ==== Sys2Proof/Machine/Engine.lean ====
section
/-!
DEFINITION. The chorus voice engine: the lane pipeline and the two processing commands (spec/43_engine.md R105 to R129).
`n` is the number of the first free NaN draw.
-/

namespace Sys2Proof.Machine

/-- R106: `modulatedDepth = (DEPTH * DEPTH) * SMOOTH`. -/
def modulatedDepth (n : Nat) (depth smooth : F32) : F32 :=
  mul32 (n + 1) (mul32 n depth depth) smooth

/-- R107: `delayTimeMs = 15.0 + 7.0 * modulatedDepth`. -/
def delayTimeMs (n : Nat) (m : F32) : F32 := add32 (n + 1) lit_15 (mul32 n lit_7 m)

/-- R108, R109: the delay in samples, clamped to `[10, CAPACITY - 10]`. -/
def delaySamples (n : Nat) (ms sr32 : F32) (cap : Nat) : F32 :=
  clamp32 (div32 (n + 1) (mul32 n ms sr32) lit_1000) lit_10 (toF32 (cap - 10))

/-- R106 to R109: the delay in samples that a lane uses, from the registers. -/
def laneDelay (n : Nat) (s : State) : F32 :=
  delaySamples (n + 4) (delayTimeMs (n + 2) (modulatedDepth n s.depth s.smooth)) s.sr32
    s.capacity.toNat

/-- R110: the value a lane writes, the attenuated input. -/
def attenuated (n : Nat) (x : F32) : F32 := mul32 n x lit_0_999

/-- R111: the read position, `cursor - ds`, with one `CAPACITY` added if it is negative. -/
def readPosition (n : Nat) (w cap : Nat) (ds : F32) : F32 :=
  if lt32 (sub32 n (toF32 w) ds) lit_0 then add32 (n + 1) (sub32 n (toF32 w) ds) (toF32 cap)
  else sub32 n (toF32 w) ds

/-- R112: the fraction of the read position above its base index. -/
def fraction (n : Nat) (rp : F32) (idx1 : Nat) : F32 := sub32 n rp (toF32 idx1)

/-- R114: the depth compensation gain `1.0 - ((DEPTH - 0.3) / 0.7) * 0.2`. -/
def depthGain (n : Nat) (depth : F32) : F32 :=
  sub32 (n + 3) lit_1_0
    (mul32 (n + 2) (div32 (n + 1) (sub32 n depth lit_0_3) lit_0_7) lit_0_2)

/-- R114: the compensated wet sample; only a depth strictly above 0.3 compensates. -/
def compensate (n : Nat) (depth d : F32) : F32 :=
  if gt32 depth lit_0_3 then mul32 (n + 4) d (depthGain n depth) else d

/-- R115: `wetGain = MIX * 0.95`. -/
def wetGain (n : Nat) (mix : F32) : F32 := mul32 n mix lit_0_95

/-- R115: `dryGain = 1.0 - MIX`. -/
def dryGain (n : Nat) (mix : F32) : F32 := sub32 n lit_1_0 mix

/-- R116: `output = x * dryGain + delayedSample * wetGain`. -/
def mixDown (n : Nat) (mix x d : F32) : F32 :=
  add32 (n + 4) (mul32 (n + 2) x (dryGain (n + 1) mix)) (mul32 (n + 3) d (wetGain n mix))

/-- R117: the soft clip of `|output| > 0.99`. -/
def softClip (n : Nat) (out : F32) : F32 :=
  if gt32 (abs32 out) lit_0_99 then
    let k := mul32 n (if gt32 out lit_0 then lit_1_0 else lit_m1) lit_0_99
    add32 (n + 3) k (mul32 (n + 2) (sub32 (n + 1) out k) lit_0_3)
  else out

/-- How many free NaN draws one lane may use. -/
def laneDraws : Nat := 45

/-- R113 to R117: the lane's output from its input, its taps and its fraction. -/
def laneOutput (n : Nat) (depth mix x : F32) (t : Taps) (frac : F32) : F32 :=
  softClip (n + 31) (mixDown (n + 26) mix x (compensate (n + 21) depth (crInterp n t frac)))

/-- R106 to R111: the read position of channel `c`'s lane, from the registers. -/
def lanePosition (c : Nat) (s : State) : F32 :=
  readPosition (s.nanDraw + 7) (s.cursor c).toNat s.capacity.toNat (laneDelay s.nanDraw s)

/-- R119: LANE(c, x), steps 2 to 11 of R105. -/
def lane (c : Nat) (x : F32) (s : State) : Except Fault (State × F32) :=
  match dlWrite c (attenuated (s.nanDraw + 6) x) s with
  | .error f => .error f
  | .ok written =>
    match floorInt (lanePosition c s) with
    | none => .error (.unindexablePosition (lanePosition c s))
    | some idx1 =>
      match dlTaps c idx1 written with
      | .error f => .error f
      | .ok taps =>
        .ok ((dlAdvance c written).draw laneDraws,
          laneOutput (s.nanDraw + 10) s.depth s.mix x taps
            (fraction (s.nanDraw + 9) (lanePosition c s) idx1))

/-- R120: the lanes of a frame from lane `c` on, in increasing order; a lane at or above `CHANNELS` passes through. -/
def lanesFrom (c : Nat) : List F32 → State → Except Fault (State × List F32)
  | [], s => .ok (s, [])
  | x :: xs, s =>
    if c < s.channels.toNat then
      match lane c x s with
      | .error f => .error f
      | .ok (s1, y) =>
        match lanesFrom (c + 1) xs s1 with
        | .error f => .error f
        | .ok (s2, ys) => .ok (s2, y :: ys)
    else
      match lanesFrom (c + 1) xs s with
      | .error f => .error f
      | .ok (s2, ys) => .ok (s2, x :: ys)

/-- R120: a frame is processed when the block is enabled and `min(B, CHANNELS) >= 1`. -/
def State.processes (s : State) (b : Nat) : Bool :=
  s.isEnabled && decide (1 ≤ min b s.channels.toNat)

/-- R120: one frame: the oscillator steps once and then the lanes run, or every sample passes through (R122). -/
def frame (xs : List F32) (s : State) : Except Fault (State × List F32) :=
  if s.processes xs.length then lanesFrom 0 xs (oscStep s) else .ok (s, xs)

/-- R121: `n` frames of `b` lanes each, in frame-major order (R64). -/
def frames (b : Nat) : Nat → List F32 → State → Except Fault (State × List F32)
  | 0, _, s => .ok (s, [])
  | n + 1, xs, s =>
    match frame (xs.take b) s with
    | .error f => .error f
    | .ok (s1, ys) =>
      match frames b n (xs.drop b) s1 with
      | .error f => .error f
      | .ok (s2, zs) => .ok (s2, ys ++ zs)

/-- A processing command's outcome: its responses are emitted in order (R67). -/
def respondFrames (r : Except Fault (State × List F32)) : Host.Outcome State Fault Refusal :=
  match r with
  | .ok (s, ys) => .next (s.respond ys)
  | .error f => .fault f

/-- PROCESS_FRAME (R120). With a nonzero reserved field the inputs are the responses (R67, R69). -/
def execProcessFrame (r : Byte) (xs : List Word) (s : State) : Host.Outcome State Fault Refusal :=
  if rsvR r then .next (s.notExecuted xs) else respondFrames (frame xs s)

/-- PROCESS_BLOCK (R121). -/
def execProcessBlock (b : Byte) (n : Half) (xs : List Word) (s : State) :
    Host.Outcome State Fault Refusal :=
  respondFrames (frames b.toNat n.toNat xs s)

end Sys2Proof.Machine
end

