-- ==== Sys2Proof/Machine/Dispatch.lean ====
section
/-!
DEFINITION. The meaning of every command, one direct call each.
-/

namespace Sys2Proof.Machine

def exec (i : Instr) (s : State) : Host.Outcome State Fault Refusal :=
  match i with
  | .configure r ch lo hi => Sys2Proof.Machine.execConfigure r ch lo hi s
  | .release r imm => Sys2Proof.Machine.execRelease r imm s
  | .writeReg reg imm v => Sys2Proof.Machine.execWriteReg reg imm v s
  | .readReg reg idx => Sys2Proof.Machine.execReadReg reg idx s
  | .processFrame r xs => Sys2Proof.Machine.execProcessFrame r xs s
  | .processBlock b n xs => Sys2Proof.Machine.execProcessBlock b n xs s
  | .readDl r ch cell => Sys2Proof.Machine.execReadDl r ch cell s

end Sys2Proof.Machine
end

