-- ==== Sys2Proof/Machine/Step.lean ====
section
/-!
DEFINITION. One step of the machine: one whole command (spec/70_reset_and_hazards.md R180, R182).
-/

namespace Sys2Proof.Machine

/-- One step. The host takes the responses that are still out (R177: no header is accepted before), and then the block
takes the next command from the port and runs it to completion (R6), or does what `noCommand` says. -/
def step (s : State) : Host.Outcome State Fault Refusal :=
  match fetch s.takeResponses with
  | .ok (i, t) => exec i t
  | .error e => .next (noCommand e s.takeResponses)

/-- The state with an instruction's words next on the command port (DESIGN CHOICE, safe: log entry 8). -/
def State.withFetchWord (s : State) (nbits w : Nat) : State :=
  s.setInput (tableWords nbits w ++ s.cmdIn)

end Sys2Proof.Machine
end

