-- ==== Sys2Proof/Machine/Assembly.lean ====
section
/-!
DEFINITION. The assembly lines of spec/30_encoding.md R72 and the pseudo-instructions of R73, from the line's parsed
operands on: what commands a line stands for. The block itself never sees a line (R72: the syntax is the spec's own).
-/

namespace Sys2Proof.Machine

/-- A decimal literal: `num / 10^places`, with its sign. -/
structure Decimal where
  neg : Bool
  num : Nat
  places : Nat
  deriving DecidableEq, Repr

/-- R72: a sample or parameter value, a decimal or a hexadecimal literal. -/
inductive Literal where
  | hex (w : Word)
  | dec (d : Decimal)
  deriving DecidableEq, Repr

/-- R72: the lines, and R73's pseudo-instructions after them. -/
inductive AsmLine where
  | configure (sampleRate : Decimal) (channelCount : Half)
  | release
  | writeReg (reg : Byte) (value : Literal)
  | readReg (reg : Byte)
  | readWptr (channel : Half)
  | processFrame (values : List Literal)
  | processBlock (b : Byte) (values : List Literal)
  | readDl (channel : Half) (index : Word)
  | setParams (r d m : Literal)
  | clearBad
  | readSr
  | process (r d m : Literal) (b : Byte) (values : List Literal)
  deriving DecidableEq, Repr

/-- R72: a decimal literal assembles to its `roundF32`, a hexadecimal one is its word. A decimal `-0.0` assembles to `-0`:
DESIGN CHOICE, log entry 17. -/
def literalWord : Literal → Word
  | .hex w => w
  | .dec d => roundRational32 d.neg d.num (10 ^ d.places)

/-- R72: the sample rate assembles to its nearest binary64. -/
def decimal64 (d : Decimal) : F64 := roundRational64 d.neg d.num (10 ^ d.places)

/-- R59, R72: CONFIGURE with its sample rate low word first. -/
def asmConfigure (sr : Decimal) (ch : Half) : Instr :=
  .configure 0 ch ((decimal64 sr).extractLsb' 0 32) ((decimal64 sr).extractLsb' 32 32)

/-- R68, R72: the value word of a WRITE_REG line. For `RATE`, `DEPTH` and `MIX` (R68: the binary32 operands) it is R72's word
of a parameter value. For any other register R72 gives a decimal value no word, and line 5 of P6 (95_test_vectors.md)
assembles `WRITE_REG CAPACITY, 5` to `0x00000005`: a whole decimal from 0 to `2^32 - 1` is that integer (DEDUCED, unsafe),
and any other decimal its `roundF32` (DESIGN CHOICE, unsafe): log entry 18. -/
def valueWord (reg : Byte) (v : Literal) : Word :=
  match v with
  | .hex w => w
  | .dec d =>
    if reg = 0x08 ∨ reg = 0x09 ∨ reg = 0x0A then literalWord (.dec d)
    else if d.neg = false ∧ d.places = 0 ∧ d.num < 4294967296 then BitVec.ofNat 32 d.num
    else literalWord (.dec d)

/-- R61, R72: WRITE_REG, its decimal values as `valueWord` reads them (log entry 18). -/
def asmWriteReg (reg : Byte) (v : Literal) : Instr := .writeReg reg 0 (valueWord reg v)

/-- R64, R72: `N` is the number of values over `B`. For `B = 0` R72's quotient has no value, and `N` is then 0, as Lean
divides: DESIGN CHOICE, unsafe for the header word alone (log entry 19). -/
def asmProcessBlock (b : Byte) (vs : List Literal) : Instr :=
  .processBlock b (BitVec.ofNat 16 (vs.length / b.toNat)) (vs.map literalWord)

/-- R73: `SETPARAMS`. -/
def asmSetParams (r d m : Literal) : List Instr :=
  [asmWriteReg (numberOfReg .rate) r, asmWriteReg (numberOfReg .depth) d,
    asmWriteReg (numberOfReg .mix) m]

/-- R72, R73: the commands of a line. -/
def assemble : AsmLine → List Instr
  | .configure sr ch => [asmConfigure sr ch]
  | .release => [.release 0 0]
  | .writeReg reg v => [asmWriteReg reg v]
  | .readReg reg => [.readReg reg 0]
  | .readWptr ch => [.readReg (numberOfReg .wptr) ch]
  | .processFrame vs => [.processFrame 0 (vs.map literalWord)]
  | .processBlock b vs => [asmProcessBlock b vs]
  | .readDl ch i => [.readDl 0 ch i]
  | .setParams r d m => asmSetParams r d m
  | .clearBad => [asmWriteReg (numberOfReg .status) (.hex 0x8)]
  | .readSr => [.readReg (numberOfReg .srLo) 0, .readReg (numberOfReg .srHi) 0]
  | .process r d m b vs => asmSetParams r d m ++ [asmProcessBlock b vs]

/-- R72: the command words of a line. -/
def assembleWords (l : AsmLine) : List Word := (assemble l).flatMap encode

end Sys2Proof.Machine
end

