-- ==== Sys2Proof/Safety.lean ====
section
/-!
DEFINITION. What holds in every state a run reaches (spec/10_state.md R39), and what a safe step is (spec/60_exceptions.md R150).
-/

namespace Sys2Proof.Machine

/-- R39(a): the three parameters are in their domains, none a NaN (a NaN is in no domain: R13). -/
structure State.ParamsLegal (s : State) : Prop where
  rate : le32 lit_0_1 s.rate = true ∧ le32 s.rate lit_2_0 = true
  depth : le32 lit_0 s.depth = true ∧ le32 s.depth lit_1_0 = true
  mix : le32 lit_0 s.mix = true ∧ le32 s.mix lit_1_0 = true

/-- R39(b) to (d): the extent of the session. -/
structure State.ExtentLegal (s : State) : Prop where
  capacity : s.state = .enabled → 1024 ≤ s.capacity.toNat ∧ s.capacity.toNat ≤ maxCapacity
  channels : s.state = .enabled → 1 ≤ s.channels.toNat ∧ s.channels.toNat ≤ maxChannels
  cursors : s.state = .enabled → ∀ c, c < s.channels.toNat → (s.cursor c).toNat < s.capacity.toNat
  disabled : s.state ≠ .enabled → s.capacity = 0 ∧ s.channels = 0

/-- The model's own: the two lists are in their canonical form, a listed cursor belongs to a channel the block has
(R32), and a listed byte to an active cell (log entry 4). -/
structure State.Canonical (s : State) : Prop where
  mem : Memory.wf s.mem
  wptr : CellsWf (0 : Word) s.wptr
  wptrKeys : ∀ e ∈ s.wptr, e.1 < maxChannels
  memKeys : ∀ e ∈ s.mem, s.active (e.1 / 4 / 4294967296) (e.1 / 4 % 4294967296) = true

/-- The invariant of every run. -/
structure State.Inv (s : State) : Prop where
  params : s.ParamsLegal
  extent : s.ExtentLegal
  canonical : s.Canonical

/-- R23 to R26: while enabled, the session's registers are those of the CONFIGURE whose sample rate `SR_LO`, `SR_HI` hold,
and that CONFIGURE passes its checks. -/
def State.SessionOfSampleRate (s : State) : Prop :=
  s.state = .enabled →
    checkConfig (sampleRateOf s.srLo s.srHi) s.channels.toNat = .enabled ∧
    s.capacity.toNat = capacityOf (sampleRateOf s.srLo s.srHi) ∧
    ∀ n, s.sr32 = roundF32 n (sampleRateOf s.srLo s.srHi)

/-- R90, R91: `PHASE` in `[0, 1)` and `SMOOTH` in `[0, 1]`. -/
structure State.OscillatorInRange (s : State) : Prop where
  phase : le32 lit_0 s.phase = true ∧ lt32 s.phase lit_1_0 = true
  smooth : le32 lit_0 s.smooth = true ∧ le32 s.smooth lit_1_0 = true

/-- The commands of a list, one after another, until one stops (R6). -/
def execAll : List Instr → State → Host.Outcome State Fault Refusal
  | [], s => .next s
  | i :: is, s =>
    match exec i s with
    | .next t => execAll is t
    | .fault f => .fault f
    | .refused r => .refused r

/-- R121: the `n` PROCESS_FRAME commands of `b` lanes that a PROCESS_BLOCK is. -/
def frameCommands (b : Nat) : Nat → List Word → List Instr
  | 0, _ => []
  | n + 1, xs => .processFrame 0 (xs.take b) :: frameCommands b n (xs.drop b)

/-- The value of a finite binary32 encoding, in units of `2^-149`. -/
def valueUnits (b : F32) : Int :=
  if signBit b then -(unitsOf (magBits b) : Int) else (unitsOf (magBits b) : Int)

/-- The value of a finite binary64 encoding, in units of `2^-1074`. -/
def valueUnits64 (d : F64) : Int :=
  if signBit64 d then -(unitsOf64 (magBits64 d) : Int) else (unitsOf64 (magBits64 d) : Int)

/-- R12: `r` is the real number `z / d` (in units of `2^-149`) rounded once, to nearest with ties to even. It is no NaN; a
finite `r` is at least as near as every finite value, and even if another value is as near; `r` is infinite only where no
finite value is large enough, and exactly from the midpoint between the greatest finite value and `2^128` on; and where
`z` is not 0, `r` has its sign, be it a zero, finite or infinite. -/
def RoundedOnce (z : Int) (d : Nat) (r : F32) : Prop :=
  isNaN r = false ∧
  (magBits r < infMag → ∀ c : F32, magBits c < infMag →
    |(d : Int) * valueUnits r - z| ≤ |(d : Int) * valueUnits c - z| ∧
    (|(d : Int) * valueUnits r - z| = |(d : Int) * valueUnits c - z| → valueUnits c ≠ valueUnits r →
      magBits r % 2 = 0)) ∧
  (magBits r = infMag → ∀ c : F32, magBits c < infMag → |(d : Int) * valueUnits c| < |z|) ∧
  (magBits r = infMag ↔ (d : Int) * (33554431 * 2 ^ 252) ≤ |z|) ∧
  (z ≠ 0 → signBit r = decide (z < 0))

/-- A safe step is one that answers a next state (R150: nothing halts the block). -/
def State.StepsOn (s : State) : Prop := ∃ t, step s = .next t

/-- The states of the runs of R182: from power-on reset, by steps of the block and words the host sends. -/
inductive Reachable : State → Prop where
  | reset : Reachable State.reset
  | step {s t : State} : Reachable s → Machine.step s = .next t → Reachable t
  | send {s : State} (ws : List Word) : Reachable s → Reachable (s.send ws)

end Sys2Proof.Machine
end

