-- ==== Sys2Proof/Certificates/Slice0/Obligations.lean ====
section
/-!
DEFINITION. The statements for the provers. `∃ d : Nat → Nat` in a statement about arithmetic says that each operation may
use a free NaN of its own (U2; log entry 3): nothing in a statement depends on which.
-/

open Sys2Proof Sys2Proof.Machine

/-! ### The command stream -/

/-- R57, R59 to R66, R74: decoding the words of a well-formed command gives it back, and leaves the words after them. -/
def Obligations.DecodeOfEncodeIsTheCommand : Prop :=
  ∀ (i : Instr) (rest : List Word), i.wellFormed = true → decode (encode i ++ rest) = .ok (i, rest)

/-- R57, R71: every command that the decoder takes is well-formed, and its words are exactly those taken: no bit of the
stream is dropped or invented. -/
def Obligations.EncodeOfDecodeIsTheWords : Prop :=
  ∀ (ws rest : List Word) (i : Instr), decode ws = .ok (i, rest) →
    i.wellFormed = true ∧ encode i ++ rest = ws

/-- R66: the length of a command is `1 + ops`, a function of its header alone; an illegal header has no operands. -/
def Obligations.LengthIsAFunctionOfTheHeader : Prop :=
  ∀ (h : Word) (rest : List Word),
    let op := (h.extractLsb' 24 8).toNat
    let r := (h.extractLsb' 16 8).toNat
    let imm := (h.extractLsb' 0 16).toNat
    let ops := if op = 1 then 2 else if op = 3 ∨ op = 7 then 1 else if op = 5 then imm
      else if op = 6 then imm * r else 0
    if op = 0 ∨ 8 ≤ op then
      ∀ s : State, s.cmdIn = h :: rest → ∃ t, step s = .next t ∧ t.cmdIn = rest
    else
      (ops ≤ rest.length → ∃ i, decode (h :: rest) = .ok (i, rest.drop ops)) ∧
      (rest.length < ops → decode (h :: rest) = .error (.incomplete (ops - rest.length)))

/-- R70: a header with `OP = 0x00` or `OP >= 0x08` is a one-word command that sets `BADCMD`, consumes no operand words,
emits no response and does nothing else. The responses emitted so far are the same ones, taken by the host or not. -/
def Obligations.IllegalHeaderSetsBadCmd : Prop :=
  ∀ (s : State) (h : Word) (rest : List Word), s.cmdIn = h :: rest →
    ((h.extractLsb' 24 8).toNat = 0 ∨ 8 ≤ (h.extractLsb' 24 8).toNat) →
    ∃ t, step s = .next t ∧
      t = { s with cmdIn := rest, badCmd := true, hostLog := t.hostLog, respOut := t.respOut } ∧
      t.hostLog ++ t.respOut = s.hostLog ++ s.respOut

/-- R59 to R65: words written out from the formats decode to the commands they stand for. -/
def Obligations.WrittenOutWordsDecode : Prop :=
  decode [0x01000001, 0x00000000, 0x40E58880] = .ok (.configure 0 1 0x00000000 0x40E58880, []) ∧
  decode [0x02000000] = .ok (.release 0 0, []) ∧
  decode [0x03080000, 0x3F4CCCCD] = .ok (.writeReg 0x08 0 0x3F4CCCCD, []) ∧
  decode [0x04200003] = .ok (.readReg 0x20 3, []) ∧
  decode [0x05000001, 0x3F800000] = .ok (.processFrame 0 [0x3F800000], []) ∧
  decode [0x06020001, 0x3F000000, 0xBF000000] = .ok (.processBlock 2 1 [0x3F000000, 0xBF000000], []) ∧
  decode [0x07000000, 0x00000358] = .ok (.readDl 0 0 0x358, [])

/-- R6, R177, R180: a step whose port begins with a command runs exactly that command, to completion, once the host has
taken the responses of the command before. That the host takes them at the head of the step is log entry 6's. -/
def Obligations.StepRunsTheDecodedCommand : Prop :=
  ∀ (s : State) (i : Instr) (rest : List Word), decode s.cmdIn = .ok (i, rest) →
    step s = exec i { s with cmdIn := rest, hostLog := s.hostLog ++ s.respOut, respOut := [] }

/-- R165, R176: with no word, or a header whose operand words are not all there, the block waits and nothing changes
(but the host takes the responses of the command before, log entry 6). That it waits is log entry 7's. -/
def Obligations.StepWaitsForWholeCommands : Prop :=
  ∀ s : State, (s.cmdIn = [] ∨ ∃ k, decode s.cmdIn = .error (.incomplete k)) →
    step s = .next { s with hostLog := s.hostLog ++ s.respOut, respOut := [] }

/-- R45: a byte transport carries each word least significant byte first, and the words come out as they went in. -/
def Obligations.ByteTransportKeepsTheWords : Prop :=
  ∀ ws : List Word,
    wordsOfBytes (bytesOfWords ws) = ws ∧ decodeBytes (bytesOfWords ws) = decode ws ∧
    ∀ w : Word, (bytesOfWords (w :: ws)).take 4 =
      [w.extractLsb' 0 8, w.extractLsb' 8 8, w.extractLsb' 16 8, w.extractLsb' 24 8]

/-- R73: SETPARAMS stores the three clamped values, CLEARBAD clears `BADCMD`. -/
def Obligations.PseudoInstructionsExpand : Prop :=
  (∀ (s : State) (r d m : Literal), execAll (assemble (.setParams r d m)) s =
    .next { s with rate := clampRate (literalWord r), depth := clampUnit (literalWord d),
                   mix := clampUnit (literalWord m) }) ∧
  (∀ s : State, execAll (assemble .clearBad) s = .next { s with badCmd := false }) ∧
  (∀ s : State, execAll (assemble .readSr) s =
    .next { s with respOut := s.respOut ++ [s.srLo, s.srHi] }) ∧
  (∀ (r d m : Literal) (b : Byte) (vs : List Literal), assemble (.process r d m b vs) =
    assemble (.setParams r d m) ++ assemble (.processBlock b vs))

/-! ### Reset and the invariants -/

/-- R170: the registers after power-on reset. -/
def Obligations.PowerOnResetValues : Prop :=
  State.reset.state = .unconfigured ∧ State.reset.badCmd = false ∧
  State.reset.capacity = 0 ∧ State.reset.channels = 0 ∧
  State.reset.srLo = 0 ∧ State.reset.srHi = 0 ∧ State.reset.sr32 = 0 ∧
  State.reset.rate = 0x3DCCCCCD#32 ∧ State.reset.depth = 0 ∧ State.reset.mix = 0 ∧
  State.reset.phase = 0 ∧ State.reset.smooth = 0x3F000000#32 ∧
  (∀ c, State.reset.cursor c = 0)

/-- The invariant of R39 and of the model's canonical lists holds after power-on reset. -/
def Obligations.ResetMeetsTheInvariant : Prop := State.reset.Inv

/-- R39, R80: every step keeps the invariant, from every state that has it. -/
def Obligations.StepKeepsTheInvariant : Prop :=
  ∀ s t : State, s.Inv → step s = .next t → t.Inv

/-- R150: the block never halts: in every state with the invariant a step answers a next state, whatever words wait on the
port. -/
def Obligations.StepNeverStops : Prop :=
  ∀ s : State, s.Inv → ∃ t, step s = .next t

/-- R39(a) to (e): what holds after every command of every run from power-on reset, whatever words the host sends and
whenever it sends them; and such a run never stops (R150). -/
def Obligations.EveryRunKeepsR39 : Prop :=
  ∀ s : State, Reachable s →
    (le32 0x3DCCCCCD#32 s.rate = true ∧ le32 s.rate 0x40000000#32 = true) ∧
    (le32 0 s.depth = true ∧ le32 s.depth 0x3F800000#32 = true) ∧
    (le32 0 s.mix = true ∧ le32 s.mix 0x3F800000#32 = true) ∧
    (s.state = .enabled → 1024 ≤ s.capacity.toNat ∧ s.capacity.toNat ≤ maxCapacity ∧
      1 ≤ s.channels.toNat ∧ s.channels.toNat ≤ maxChannels) ∧
    (s.state = .enabled → ∀ c, c < s.channels.toNat → (s.cursor c).toNat < s.capacity.toNat) ∧
    (s.state ≠ .enabled → s.capacity = 0 ∧ s.channels = 0) ∧
    s.statusWord.toNat < 16 ∧
    ∃ t, step s = .next t

/-- R23 to R26: while enabled, `CAPACITY` and `SR32` are those of the sample rate in `{SR_HI, SR_LO}`, and that sample
rate passes CONFIGURE's checks with `CHANNELS`. It holds at reset and every step keeps it. -/
def Obligations.SessionRegistersFollowTheSampleRate : Prop :=
  State.reset.SessionOfSampleRate ∧
  ∀ s t : State, s.Inv → s.SessionOfSampleRate → step s = .next t → t.SessionOfSampleRate

/-! ### CONFIGURE and RELEASE -/

/-- R131 to R133: a CONFIGURE whose checks pass starts a session. What the two lists hold is said by reading them; the
rest of the state is spelled out. -/
def Obligations.ConfigureStartsASession : Prop :=
  ∀ (s : State) (ch : Half) (lo hi : Word),
    let sr : F64 := hi ++ lo
    let cap := max 1024 (unitsOf64 (magBits64 sr) * 35 / (1000 * 2 ^ 1074))
    magBits64 sr < 0x7FF0000000000000 → signBit64 sr = false → magBits64 sr ≠ 0 →
    1 ≤ ch.toNat → ch.toNat ≤ maxChannels → cap ≤ maxCapacity →
    ∃ t, exec (.configure 0 ch lo hi) s = .next t ∧
      t = { s with state := .enabled, capacity := BitVec.ofNat 32 cap, channels := ch.zeroExtend 32,
                   srLo := lo, srHi := hi, sr32 := t.sr32, phase := 0, smooth := 0x3F000000#32,
                   wptr := t.wptr, mem := t.mem } ∧
      t.capacity.toNat = cap ∧
      (∀ n, t.sr32 = roundF32 n sr) ∧
      (∀ c, t.cursor c = 0) ∧
      (∀ c i, c < ch.toNat → i < cap → t.cell c i = some 0)

/-- R131, R134: a CONFIGURE that fails a check, the first one in the order of R131, enters that disabled state. The block
then has no active cell (U3; log entry 4). -/
def Obligations.ConfigureEntersDisabledStates : Prop :=
  ∀ (s : State) (ch : Half) (lo hi : Word),
    let sr : F64 := hi ++ lo
    let badRate := isNaN64 sr = true ∨ signBit64 sr = true ∨ magBits64 sr = 0
    let badCount := ch.toNat = 0 ∨ maxChannels < ch.toNat
    let badCap := magBits64 sr = 0x7FF0000000000000 ∨
      maxCapacity < max 1024 (unitsOf64 (magBits64 sr) * 35 / (1000 * 2 ^ 1074))
    ∀ code, ((badRate ∧ code = .badSampleRate) ∨ (¬badRate ∧ badCount ∧ code = .badChannelCount) ∨
        (¬badRate ∧ ¬badCount ∧ badCap ∧ code = .badCapacity)) →
      ∃ t, exec (.configure 0 ch lo hi) s = .next t ∧
        t = { s with state := code, capacity := 0, channels := 0, srLo := lo, srHi := hi,
                     phase := 0, smooth := 0x3F000000#32, wptr := t.wptr, mem := t.mem } ∧
        (∀ c, t.cursor c = 0) ∧ (∀ c i, t.cell c i = none)

/-- R135: two CONFIGURE commands with the same operands, with any commands but WRITE_REG between them, leave the same
state, but for `BADCMD` and the words on the port, which they do not set, and `SR32` where they fail, which R134 leaves
unchanged. -/
def Obligations.ConfigureIsIdempotent : Prop :=
  ∀ (s s1 s2 s3 : State) (ch : Half) (lo hi : Word) (is : List Instr),
    (∀ reg imm v, Instr.writeReg reg imm v ∉ is) →
    exec (.configure 0 ch lo hi) s = .next s1 → execAll is s1 = .next s2 →
    exec (.configure 0 ch lo hi) s2 = .next s3 →
    s3 = { s1 with badCmd := s3.badCmd, sr32 := s3.sr32, respOut := s3.respOut, nanDraw := s3.nanDraw } ∧
    (s1.state = .enabled → s3.sr32 = s1.sr32)

/-- R136, R137: RELEASE ends the session from any state and keeps every other register; a second one changes nothing. The
block then has no active cell (U3; log entry 4). -/
def Obligations.ReleaseEndsTheSession : Prop :=
  ∀ s : State, ∃ t, exec (.release 0 0) s = .next t ∧
    t = { s with state := .released, capacity := 0, channels := 0, mem := t.mem } ∧
    (∀ c i, t.cell c i = none) ∧
    exec (.release 0 0) t = .next t

/-- R158: a disabled state is left only by a CONFIGURE that succeeds. -/
def Obligations.OnlyConfigureEnables : Prop :=
  ∀ (s t : State) (i : Instr), s.state ≠ .enabled → exec i s = .next t → t.state = .enabled →
    ∃ ch lo hi, i = .configure 0 ch lo hi ∧ checkConfig (hi ++ lo) ch.toNat = .enabled

/-! ### Register access -/

/-- R36, R138, R139: what WRITE_REG does, for every register number. -/
def Obligations.WriteRegStores : Prop :=
  ∀ (s : State) (v : Word),
    let clampParam : F32 → F32 → F32 := fun lo hi =>
      if le32 lo v = false then lo else if lt32 hi v = true then hi else v
    exec (.writeReg 0x08 0 v) s = .next { s with rate := clampParam 0x3DCCCCCD#32 0x40000000#32 } ∧
    exec (.writeReg 0x09 0 v) s = .next { s with depth := clampParam 0 0x3F800000#32 } ∧
    exec (.writeReg 0x0A 0 v) s = .next { s with mix := clampParam 0 0x3F800000#32 } ∧
    exec (.writeReg 0x00 0 v) s = .next (if v.getLsbD 3 then { s with badCmd := false } else s) ∧
    ∀ reg : Byte, reg ≠ 0x00 → reg ≠ 0x08 → reg ≠ 0x09 → reg ≠ 0x0A →
      exec (.writeReg reg 0 v) s = .next { s with badCmd := true }

/-- R27 to R29, R36: whatever is written, the stored parameter is in its domain; a value of the domain is stored as it
is, `-0` too; a NaN is stored as the lower bound. -/
def Obligations.StoredParametersAreInTheirDomains : Prop :=
  ∀ v : Word,
    (le32 0x3DCCCCCD#32 (clampRate v) = true ∧ le32 (clampRate v) 0x40000000#32 = true) ∧
    (le32 0 (clampUnit v) = true ∧ le32 (clampUnit v) 0x3F800000#32 = true) ∧
    (le32 0x3DCCCCCD#32 v = true → le32 v 0x40000000#32 = true → clampRate v = v) ∧
    (le32 0 v = true → le32 v 0x3F800000#32 = true → clampUnit v = v) ∧
    (isNaN v = true → clampRate v = 0x3DCCCCCD#32 ∧ clampUnit v = 0) ∧
    clampUnit 0x80000000#32 = 0x80000000#32

/-- R142, R22: READ_REG responds each assigned register (`STATUS` with the numbers of R22's codes), a cursor only while enabled and in range, and for every other number
it responds 0 and sets `BADCMD`. -/
def Obligations.ReadRegResponds : Prop :=
  ∀ s : State,
    let found : Byte → Word → Prop := fun reg w =>
      exec (.readReg reg 0) s = .next { s with respOut := s.respOut ++ [w] }
    found 0x00 (BitVec.ofNat 32 ((if s.badCmd then 8 else 0) + match s.state with
      | .unconfigured => 0
      | .enabled => 1
      | .released => 2
      | .badSampleRate => 3
      | .badChannelCount => 4
      | .badCapacity => 5)) ∧
    found 0x01 s.capacity ∧ found 0x02 s.channels ∧ found 0x03 s.srLo ∧ found 0x04 s.srHi ∧
    found 0x05 s.sr32 ∧ found 0x08 s.rate ∧ found 0x09 s.depth ∧ found 0x0A s.mix ∧
    found 0x10 s.phase ∧ found 0x11 s.smooth ∧ found 0x30 0x4B5A0001#32 ∧
    found 0x31 (BitVec.ofNat 32 maxChannels) ∧ found 0x32 (BitVec.ofNat 32 maxCapacity) ∧
    (∀ idx : Half, exec (.readReg 0x20 idx) s = .next
      (if s.state = .enabled ∧ idx.toNat < s.channels.toNat then
        { s with respOut := s.respOut ++ [s.cursor idx.toNat] }
      else { s with respOut := s.respOut ++ [0], badCmd := true })) ∧
    (∀ reg : Byte, reg ∉ [0x00, 0x01, 0x02, 0x03, 0x04, 0x05, 0x08, 0x09, 0x0A, 0x10, 0x11, 0x20, 0x30,
        0x31, 0x32] →
      exec (.readReg reg 0) s = .next { s with respOut := s.respOut ++ [0], badCmd := true })

/-- R145, R146: READ_DL responds an active cell of an enabled block; out of range, or disabled, it responds 0 and sets
`BADCMD`. -/
def Obligations.ReadDlResponds : Prop :=
  ∀ (s : State) (ch : Half) (i : Word),
    exec (.readDl 0 ch i) s = .next
      (if s.state = .enabled ∧ ch.toNat < s.channels.toNat ∧ i.toNat < s.capacity.toNat then
        { s with respOut := s.respOut ++ [s.mem.readWord (cellAddr ch.toNat i.toNat)] }
      else { s with respOut := s.respOut ++ [0], badCmd := true })

/-- R143, R145, R164: the two reads change nothing but the responses and `BADCMD`, in any state and for any operands: no
register, no cursor, no byte of the delay lines; and neither clears `BADCMD`. -/
def Obligations.ReadsChangeNothingElse : Prop :=
  ∀ (s t : State) (i : Instr), ((∃ reg idx, i = .readReg reg idx) ∨ (∃ r ch k, i = .readDl r ch k)) →
    exec i s = .next t → t = { s with respOut := t.respOut, badCmd := t.badCmd } ∧ (s.badCmd = true → t.badCmd = true)

/-! ### Reserved fields, responses and BADCMD -/

/-- R69: a command whose reserved field is nonzero is not executed: it emits its responses (0, or its inputs), sets
`BADCMD`, and changes no other state; a step of it consumes its operand words. -/
def Obligations.ReservedFieldsAreNotExecuted : Prop :=
  ∀ (s : State) (r : Byte) (imm : Half),
    let notExecuted : Instr → List Word → Prop := fun i resp =>
      exec i s = .next { s with respOut := s.respOut ++ resp, badCmd := true }
    (r ≠ 0 → (∀ ch lo hi, notExecuted (.configure r ch lo hi) []) ∧
      (∀ xs, notExecuted (.processFrame r xs) xs) ∧
      (∀ ch i, notExecuted (.readDl r ch i) [0])) ∧
    (r ≠ 0 ∨ imm ≠ 0 → notExecuted (.release r imm) []) ∧
    (imm ≠ 0 → (∀ reg v, notExecuted (.writeReg reg imm v) []) ∧
      (∀ reg, reg ≠ 0x20 → notExecuted (.readReg reg imm) [0])) ∧
    (∀ (i : Instr) (rest : List Word), decode s.cmdIn = .ok (i, rest) → rsvOf i = true →
      ∃ t, step s = .next t ∧
        t = { s with cmdIn := rest, badCmd := true, hostLog := t.hostLog, respOut := t.respOut } ∧
        t.hostLog ++ t.respOut = s.hostLog ++ s.respOut ++ match i with
          | .configure _ _ _ _ => []
          | .release _ _ => []
          | .writeReg _ _ _ => []
          | .readReg _ _ => [0]
          | .processFrame _ xs => xs
          | .processBlock _ _ xs => xs
          | .readDl _ _ _ => [0])

/-- R57, R67: a command emits exactly as many responses as its header says, whatever the state and the operands. -/
def Obligations.ResponsesAreAsManyAsTheHeaderSays : Prop :=
  ∀ (s t : State) (i : Instr), i.wellFormed = true → exec i s = .next t →
    ∃ ws, t.respOut = s.respOut ++ ws ∧
      ws.length = match i with
        | .configure _ _ _ _ => 0
        | .release _ _ => 0
        | .writeReg _ _ _ => 0
        | .readReg _ _ => 1
        | .processFrame _ xs => xs.length
        | .processBlock b n _ => n.toNat * b.toNat
        | .readDl _ _ _ => 1

/-- R153: `setBadCmd` sets `BADCMD` and nothing else; the bit is 0 after power-on reset, and once 1 it stays 1 through every
command, an illegal header too, but a WRITE_REG to `STATUS` with bit 3 set, and that one clears it. -/
def Obligations.BadCmdIsSticky : Prop :=
  State.reset.badCmd = false ∧
  (∀ s : State, s.setBadCmd = { s with badCmd := true }) ∧
  (∀ (s t : State) (i : Instr), s.badCmd = true → exec i s = .next t →
    (t.badCmd = false ↔ ∃ v : Word, i = .writeReg 0x00 0 v ∧ v.getLsbD 3 = true)) ∧
  (∀ s t : State, s.badCmd = true → step s = .next t →
    (t.badCmd = false ↔ ∃ (v : Word) (rest : List Word),
      decode s.cmdIn = .ok (.writeReg 0x00 0 v, rest) ∧ v.getLsbD 3 = true))

/-- R152: a command sets `BADCMD` exactly for a nonzero reserved field, a write to a read-only or unassigned register, a
read of an unassigned register or of a cursor out of range, and a read of a cell out of range. -/
def Obligations.BadCmdIsSetOnlyByCommandErrors : Prop :=
  ∀ (s t : State) (i : Instr), s.badCmd = false → exec i s = .next t →
    (t.badCmd = true ↔
      rsvOf i = true ∨
      (∃ reg imm v, i = .writeReg reg imm v ∧ reg ∉ [0x00, 0x08, 0x09, 0x0A]) ∨
      (∃ reg idx, i = .readReg reg idx ∧
        (reg ∉ [0x00, 0x01, 0x02, 0x03, 0x04, 0x05, 0x08, 0x09, 0x0A, 0x10, 0x11, 0x20, 0x30, 0x31, 0x32] ∨
          (reg = 0x20 ∧ ¬(s.state = .enabled ∧ idx.toNat < s.channels.toNat)))) ∨
      (∃ r ch k, i = .readDl r ch k ∧
        ¬(s.state = .enabled ∧ ch.toNat < s.channels.toNat ∧ k.toNat < s.capacity.toNat)))

/-- R141: no command other than WRITE_REG writes `RATE`, `DEPTH` or `MIX`, and WRITE_REG of a parameter answers in every
state. -/
def Obligations.ParametersAreWrittenOnlyByWriteReg : Prop :=
  (∀ (s t : State) (i : Instr), exec i s = .next t → (∀ reg imm v, i ≠ .writeReg reg imm v) →
    t.rate = s.rate ∧ t.depth = s.depth ∧ t.mix = s.mix) ∧
  (∀ (s : State) (v : Word) (reg : Byte), reg = 0x08 ∨ reg = 0x09 ∨ reg = 0x0A →
    ∃ t, exec (.writeReg reg 0 v) s = .next t ∧ t.badCmd = s.badCmd)

/-- R22 to R26: `STATE`, `CAPACITY`, `CHANNELS`, `SR_LO`, `SR_HI` and `SR32` change only in CONFIGURE and RELEASE. That no
command touches the words left on the port (R55, R66: a command's words are its own) nor the host's log is said of `cmdIn`
and `hostLog`, fields of the model's own (log entry 6). -/
def Obligations.SessionRegistersChangeOnlyInConfigureAndRelease : Prop :=
  ∀ (s t : State) (i : Instr), exec i s = .next t →
    t.cmdIn = s.cmdIn ∧ t.hostLog = s.hostLog ∧
    ((∀ r ch lo hi, i ≠ .configure r ch lo hi) → (∀ r imm, i ≠ .release r imm) →
      t.state = s.state ∧ t.capacity = s.capacity ∧ t.channels = s.channels ∧
      t.srLo = s.srLo ∧ t.srHi = s.srHi ∧ t.sr32 = s.sr32)

/-! ### The delay line -/

/-- R42, R43: a word written to an active cell is read back from it, all 32 bits, and every other cell keeps its own. -/
def Obligations.CellReadsBackWhatWasWritten : Prop :=
  ∀ (s : State) (c i : Nat) (v : Word), Memory.wf s.mem → c < s.channels.toNat → i < s.capacity.toNat →
    ∃ t, memWrite c i v s = .ok t ∧ memRead c i t = .ok v ∧ t = { s with mem := t.mem } ∧
      ∀ c' i', (c' ≠ c ∨ i' ≠ i) → c' < s.channels.toNat → i' < s.capacity.toNat →
        memRead c' i' t = memRead c' i' s

/-- R79: the four taps of a processed lane differ from the cell the lane has just written: they lie 9 to
`CAPACITY - 8` cells above the cursor, modulo the capacity. -/
def Obligations.TapsKeepClearOfTheCursor : Prop :=
  ∀ (s : State) (c : Nat), s.Inv → s.state = .enabled → c < s.channels.toNat →
    ∃ idx1, floorInt (lanePosition c s) = some idx1 ∧
      ∀ j, j < 4 → tapIndex s.capacity.toNat idx1 j ≠ (s.cursor c).toNat ∧
        ∃ k, 9 ≤ k ∧ k ≤ s.capacity.toNat - 8 ∧
          tapIndex s.capacity.toNat idx1 j = ((s.cursor c).toNat + k) % s.capacity.toNat

/-- R80: each processed lane moves its cursor by 1 modulo the capacity, so a block of `N` frames moves it by `N`; a cursor
without a lane stays. The block command answers. -/
def Obligations.BlockMovesTheCursors : Prop :=
  ∀ (s : State) (b : Byte) (n : Half) (xs : List Word), s.Inv → s.state = .enabled →
    xs.length = n.toNat * b.toNat →
    ∃ t, exec (.processBlock b n xs) s = .next t ∧
      ∀ c, (t.cursor c).toNat =
        if c < b.toNat ∧ c < s.channels.toNat then ((s.cursor c).toNat + n.toNat) % s.capacity.toNat
        else (s.cursor c).toNat

/-- R81: after a block of `N` frames on a fresh session, the line of a processed channel holds its attenuated inputs, the
latest at `N - 1` modulo the capacity, and the `+0` of the clear where nothing has been written. -/
def Obligations.LineHoldsTheLatestInputs : Prop :=
  ∀ (s : State) (b : Byte) (n : Half) (xs : List Word) (c : Nat), s.Inv → s.state = .enabled →
    (∀ c, s.cursor c = 0) → (∀ c i, s.active c i = true → s.cell c i = some 0) →
    xs.length = n.toNat * b.toNat → c < b.toNat → c < s.channels.toNat →
    ∃ t, exec (.processBlock b n xs) s = .next t ∧
      ∀ j, j < s.capacity.toNat →
        (j < n.toNat → ∃ x d, xs[(n.toNat - 1 - j) * b.toNat + c]? = some x ∧
          t.cell c ((n.toNat + s.capacity.toNat - 1 - j) % s.capacity.toNat) =
            some (mul32 d x 0x3F7FBE77#32)) ∧
        (n.toNat ≤ j →
          t.cell c ((n.toNat + s.capacity.toNat - 1 - j) % s.capacity.toNat) = some 0)

/-! ### Processing -/

/-- R122(a), R174: in a disabled state every PROCESS command passes its samples through, bit for bit, and changes no
other state. -/
def Obligations.DisabledBlockPassesThrough : Prop :=
  ∀ s : State, s.state ≠ .enabled →
    (∀ xs, exec (.processFrame 0 xs) s = .next { s with respOut := s.respOut ++ xs }) ∧
    (∀ (b : Byte) (n : Half) (xs : List Word), xs.length = n.toNat * b.toNat →
      exec (.processBlock b n xs) s = .next { s with respOut := s.respOut ++ xs })

/-- R121, R123: a frame without lanes, and a block without lanes or without frames, changes nothing. -/
def Obligations.EmptyFramesDoNothing : Prop :=
  ∀ s : State, exec (.processFrame 0 []) s = .next s ∧
    (∀ n : Half, exec (.processBlock 0 n []) s = .next s) ∧
    (∀ b : Byte, exec (.processBlock b 0 []) s = .next s)

/-- R54, R120, R122, R123: a frame steps the oscillator and then runs one lane per channel. What lane `c` answers, and
what it does to its cursor and its line, is what it would do alone; a lane at or above `CHANNELS` passes through; a
channel without a lane is untouched. The frame command answers. The free NaNs a lane alone would use are numbered as the
model numbers them in the frame, `laneDraws` a lane (the model's choice: log entry 3). -/
def Obligations.FrameRunsItsLanesIndependently : Prop :=
  ∀ (s : State) (xs : List Word), s.Inv → s.state = .enabled → xs ≠ [] →
    ∃ t ys, exec (.processFrame 0 xs) s = .next t ∧ t.respOut = s.respOut ++ ys ∧
      ys.length = xs.length ∧
      (∀ c x, xs[c]? = some x → s.channels.toNat ≤ c → ys[c]? = some x) ∧
      (∀ c x, xs[c]? = some x → c < s.channels.toNat →
        ∃ u y, lane c x ((oscStep s).draw (laneDraws * c)) = .ok (u, y) ∧ ys[c]? = some y ∧
          t.cursor c = u.cursor c ∧ ∀ i, t.cell c i = u.cell c i) ∧
      (∀ c, xs.length ≤ c → t.cursor c = s.cursor c ∧ ∀ i, t.cell c i = s.cell c i)

/-- R85 to R89: a processed frame steps the oscillator exactly once, however many lanes it has. -/
def Obligations.FrameStepsTheOscillatorOnce : Prop :=
  ∀ (s : State) (xs : List Word), s.Inv → s.state = .enabled → xs ≠ [] →
    ∃ t, exec (.processFrame 0 xs) s = .next t ∧ ∃ d : Nat → Nat,
      let inc := div32 (d 0) s.rate s.sr32
      let p := add32 (d 1) s.phase inc
      let phase := if le32 0x3F800000#32 p = true then sub32 (d 2) p 0x3F800000#32 else p
      let lfo := add32 (d 4) 0x3F000000#32 (mul32 (d 3) 0x3F000000#32 (sin2pi phase))
      t.phase = phase ∧
      t.smooth = add32 (d 7) (mul32 (d 5) 0x3F7FDF3B#32 s.smooth) (mul32 (d 6) 0x3A03126F#32 lfo)

/-- R106 to R119: the lane pipeline, as its pseudocode is written, for every channel of a session. The taps are read from
the lane's state after its write; the lane writes its cell and its cursor and nothing else. -/
def Obligations.LaneFollowsItsPseudocode : Prop :=
  ∀ (s : State) (c : Nat) (x : F32), s.Inv → s.state = .enabled → c < s.channels.toNat →
    ∃ (d : Nat → Nat) (idx1 : Nat) (y0 y1 y2 y3 out : F32) (t : State),
      lane c x s = .ok (t, out) ∧
      (let cap := s.capacity.toNat
       let w := (s.cursor c).toNat
       let depthCurve := mul32 (d 0) s.depth s.depth
       let modulatedDepth := mul32 (d 1) depthCurve s.smooth
       let delayTimeMs := add32 (d 3) 0x41700000#32 (mul32 (d 2) 0x40E00000#32 modulatedDepth)
       let ds0 := div32 (d 5) (mul32 (d 4) delayTimeMs s.sr32) 0x447A0000#32
       let ds := if le32 0x41200000#32 ds0 = false then 0x41200000#32
         else if lt32 (toF32 (cap - 10)) ds0 = true then toF32 (cap - 10) else ds0
       let rp0 := sub32 (d 7) (toF32 w) ds
       let rp := if lt32 rp0 0 = true then add32 (d 8) rp0 (toF32 cap) else rp0
       let frac := sub32 (d 9) rp (toF32 idx1)
       let c1 := mul32 (d 11) 0x3F000000#32 (sub32 (d 10) y2 y0)
       let c2 := sub32 (d 17) (add32 (d 15) (sub32 (d 13) y0 (mul32 (d 12) 0x40200000#32 y1))
         (mul32 (d 14) 0x40000000#32 y2)) (mul32 (d 16) 0x3F000000#32 y3)
       let c3 := add32 (d 22) (mul32 (d 19) 0x3F000000#32 (sub32 (d 18) y3 y0))
         (mul32 (d 21) 0x3FC00000#32 (sub32 (d 20) y1 y2))
       let f2 := mul32 (d 23) frac frac
       let f3 := mul32 (d 24) f2 frac
       let delayed := add32 (d 30) (add32 (d 28) (add32 (d 26) y1 (mul32 (d 25) c1 frac))
         (mul32 (d 27) c2 f2)) (mul32 (d 29) c3 f3)
       let g := sub32 (d 34) 0x3F800000#32
         (mul32 (d 33) (div32 (d 32) (sub32 (d 31) s.depth 0x3E99999A#32) 0x3F333333#32) 0x3E4CCCCD#32)
       let wet := if lt32 0x3E99999A#32 s.depth = true then mul32 (d 35) delayed g else delayed
       let mixed := add32 (d 40) (mul32 (d 38) x (sub32 (d 37) 0x3F800000#32 s.mix))
         (mul32 (d 39) wet (mul32 (d 36) s.mix 0x3F733333#32))
       let k := mul32 (d 41) (if lt32 0 mixed = true then 0x3F800000#32 else 0xBF800000#32) 0x3F7D70A4#32
       floorInt rp = some idx1 ∧ idx1 ≤ cap ∧
       t.cell c ((idx1 + cap - 1) % cap) = some y0 ∧ t.cell c (idx1 % cap) = some y1 ∧
       t.cell c ((idx1 + 1) % cap) = some y2 ∧ t.cell c ((idx1 + 2) % cap) = some y3 ∧
       out = (if lt32 0x3F7D70A4#32 (abs32 mixed) = true then
         add32 (d 44) k (mul32 (d 43) (sub32 (d 42) mixed k) 0x3E99999A#32) else mixed) ∧
       t.cell c w = some (mul32 (d 6) x 0x3F7FBE77#32) ∧
       (t.cursor c).toNat = (w + 1) % cap ∧
       (∀ c', c' ≠ c → t.cursor c' = s.cursor c') ∧
       (∀ c' i, (c' ≠ c ∨ i ≠ w) → t.cell c' i = s.cell c' i) ∧
       t = { s with wptr := t.wptr, mem := t.mem, nanDraw := t.nanDraw })

/-- R121: a PROCESS_BLOCK is exactly `N` consecutive PROCESS_FRAME commands of `B` lanes: the same next state, and the
same stop where one stops. -/
def Obligations.BlockIsItsFrames : Prop :=
  ∀ (s : State) (b : Byte) (n : Half) (xs : List Word),
    exec (.processBlock b n xs) s = execAll (frameCommands b.toNat n.toNat xs) s

/-- R41, R120, R121: what the processing commands leave unchanged: every register but `PHASE`, `SMOOTH` and the cursors of
the processed lanes (and `BADCMD` where the command is not executed), and every byte of the delay lines outside the cells
the processed lanes write, which lie at their cursors, moving by 1 a frame. -/
def Obligations.ProcessingFrameConditions : Prop :=
  ∀ (s t : State) (i : Instr) (lanes frames : Nat),
    ((∃ r xs, i = .processFrame r xs ∧ lanes = xs.length ∧ frames = 1) ∨
      (∃ b n xs, i = .processBlock b n xs ∧ lanes = b.toNat ∧ frames = n.toNat)) →
    s.Inv → exec i s = .next t →
    t = { s with phase := t.phase, smooth := t.smooth, wptr := t.wptr, mem := t.mem,
                 badCmd := t.badCmd, respOut := t.respOut, nanDraw := t.nanDraw } ∧
    (rsvOf i = false → t.badCmd = s.badCmd) ∧
    (∀ c, lanes ≤ c ∨ s.channels.toNat ≤ c → t.cursor c = s.cursor c) ∧
    (∀ a, (∀ c k, c < lanes → c < s.channels.toNat → k < frames →
        a < cellAddr c (((s.cursor c).toNat + k) % s.capacity.toNat) ∨
        cellAddr c (((s.cursor c).toNat + k) % s.capacity.toNat) + 4 ≤ a) →
      t.mem.readByte a = s.mem.readByte a)

/-- R108, R109: a lane's delay lies in `[10, CAPACITY - 10]` whatever the oscillator holds, a NaN too, which becomes
10 samples. -/
def Obligations.DelayIsClamped : Prop :=
  ∀ (n : Nat) (ms sr32 : F32) (cap : Nat), 1024 ≤ cap → cap ≤ 16777216 →
    le32 0x41200000#32 (delaySamples n ms sr32 cap) = true ∧
    le32 (delaySamples n ms sr32 cap) (toF32 (cap - 10)) = true ∧
    (isNaN ms = true → delaySamples n ms sr32 cap = 0x41200000#32)

/-- R111, R112: the read position of a processed lane is finite and not below zero, its base index is at most the
capacity, and its fraction is the exact one, in `[0, 1)`. -/
def Obligations.ReadPositionIsAnIndexAndAFraction : Prop :=
  ∀ (s : State) (c n : Nat), s.Inv → s.state = .enabled → c < s.channels.toNat →
    ∃ idx1, floorInt (lanePosition c s) = some idx1 ∧ idx1 ≤ s.capacity.toNat ∧
      valueUnits (fraction n (lanePosition c s) idx1) =
        valueUnits (lanePosition c s) - (idx1 : Int) * 2 ^ 149 ∧
      le32 0 (fraction n (lanePosition c s) idx1) = true ∧
      lt32 (fraction n (lanePosition c s) idx1) 0x3F800000#32 = true

/-- R125: with `DEPTH = +0` and a finite `SMOOTH` the delay is that of 15 ms exactly, whatever `RATE` and `SMOOTH` are; at
44100 Hz it is 661.5 samples. -/
def Obligations.DepthZeroGivesAFixedDelay : Prop :=
  ∀ s : State, s.depth = 0 → magBits s.smooth < infMag → ∀ n : Nat, ∃ m : Nat,
    laneDelay n s = delaySamples m 0x41700000#32 s.sr32 s.capacity.toNat ∧
    (s.sr32 = 0x472C4400#32 → s.capacity.toNat = 1543 → laneDelay n s = 0x44256000#32)

/-- R126: with `MIX = +0` and a finite wet sample, a finite input of magnitude at most 0.99 other than `-0` is the
output, bit for bit. -/
def Obligations.MixZeroIsDry : Prop :=
  ∀ (n m : Nat) (x wet : F32), magBits wet < infMag → le32 (abs32 x) 0x3F7D70A4#32 = true →
    x ≠ 0x80000000#32 → softClip m (mixDown n 0 x wet) = x

/-- R127: if every cell of a processed channel is a zero at the start of a block and every input of that channel is a
zero, every output of that channel in the block is a zero, whatever the oscillator and the parameters hold. -/
def Obligations.SilenceStaysSilent : Prop :=
  ∀ (s : State) (b : Byte) (n : Half) (xs : List Word) (c : Nat), s.Inv → s.state = .enabled →
    xs.length = n.toNat * b.toNat → c < b.toNat → c < s.channels.toNat →
    (∀ i w, s.cell c i = some w → magBits w = 0) →
    (∀ k x, k < n.toNat → xs[k * b.toNat + c]? = some x → magBits x = 0) →
    ∃ t ys, exec (.processBlock b n xs) s = .next t ∧ t.respOut = s.respOut ++ ys ∧
      ∀ k, k < n.toNat → ∃ y, ys[k * b.toNat + c]? = some y ∧ magBits y = 0

/-! ### The oscillator -/

/-- R16: the sine unit's properties: (b) a finite phase gives a value in `[-1, 1]`, (c) `+0` gives `+0`, (d) an infinity or
a NaN gives a NaN. -/
def Obligations.SineUnitProperties : Prop :=
  (∀ p : F32, magBits p < infMag →
    le32 0xBF800000#32 (sin2pi p) = true ∧ le32 (sin2pi p) 0x3F800000#32 = true) ∧
  sin2pi 0 = 0 ∧
  (∀ p : F32, infMag ≤ magBits p → isNaN (sin2pi p) = true)

/-- R87, R91: for a sine in `[-1, 1]` the LFO value is in `[0, 1]`, and for `SMOOTH` and the LFO value in `[0, 1]` the new
`SMOOTH` is in `[0, 1]`; the extremes are exact. -/
def Obligations.SmoothStaysInTheUnitInterval : Prop :=
  (∀ (n : Nat) (v : F32), le32 0xBF800000#32 v = true → le32 v 0x3F800000#32 = true →
    le32 0 (oscLfo n v) = true ∧ le32 (oscLfo n v) 0x3F800000#32 = true) ∧
  (∀ (n : Nat) (smooth lfo : F32), le32 0 smooth = true → le32 smooth 0x3F800000#32 = true →
    le32 0 lfo = true → le32 lfo 0x3F800000#32 = true →
    le32 0 (oscSmooth n smooth lfo) = true ∧ le32 (oscSmooth n smooth lfo) 0x3F800000#32 = true) ∧
  (∀ n, oscSmooth n 0 0 = 0 ∧ oscSmooth n 0x3F800000#32 0x3F800000#32 = 0x3F800000#32)

/-- R90: when the increment is below 1.0, the phase stays in `[0, 1)` after every oscillator step. -/
def Obligations.PhaseStaysBelowOne : Prop :=
  ∀ (n : Nat) (rate sr32 phase : F32), le32 0x3DCCCCCD#32 rate = true → le32 rate 0x40000000#32 = true →
    lt32 0 sr32 = true → lt32 (div32 n rate sr32) 0x3F800000#32 = true →
    le32 0 phase = true → lt32 phase 0x3F800000#32 = true →
    le32 0 (oscPhase n rate sr32 phase) = true ∧ lt32 (oscPhase n rate sr32 phase) 0x3F800000#32 = true

/-- R90, R91: every step keeps `PHASE` in `[0, 1)` and `SMOOTH` in `[0, 1]`, as long as an enabled session's `SR32` is
above 2.0, the greatest `RATE`. -/
def Obligations.StepKeepsTheOscillatorInRange : Prop :=
  State.reset.OscillatorInRange ∧
  ∀ s t : State, s.Inv → s.OscillatorInRange → (s.state = .enabled → lt32 0x40000000#32 s.sr32 = true) →
    step s = .next t → t.OscillatorInRange

/-- R93: with `SR32 = +0` a processed frame leaves the phase infinite and `SMOOTH` a NaN, and the next lane's delay is
then 10 samples. -/
def Obligations.ZeroSampleRateMakesTheOscillatorNaN : Prop :=
  ∀ (s : State) (xs : List Word), s.Inv → s.state = .enabled → xs ≠ [] → s.sr32 = 0 →
    le32 0 s.phase = true →
    ∃ t, exec (.processFrame 0 xs) s = .next t ∧ t.phase = 0x7F800000#32 ∧ isNaN t.smooth = true ∧
      ∀ n, laneDelay n t = 0x41200000#32

/-! ### The interpolator, the compensation and the soft clip -/

/-- R99, R104: the worked examples of the interpolator. -/
def Obligations.InterpolatorExamples : Prop :=
  ∀ n : Nat,
    crInterp n ⟨0, 0x3F800000, 0, 0⟩ 0x3F000000 = 0x3F100000#32 ∧
    crInterp n ⟨0, 0, 0x3F800000, 0⟩ 0x3F000000 = 0x3F100000#32 ∧
    crInterp n ⟨0, 0, 0, 0x3F800000⟩ 0x3F000000 = 0xBD800000#32 ∧
    crInterp n ⟨0x3F800000, 0, 0, 0⟩ 0x3F000000 = 0xBD800000#32 ∧
    crInterp n ⟨0, 0x3F800000, 0x40000000, 0x40400000⟩ 0x3E800000 = 0x3FA00000#32 ∧
    crInterp n ⟨0x3E800000, 0x3F000000, 0x3F400000, 0x3F800000⟩ 0x3DCCCCCD = 0x3F066666#32

/-- R100: at `frac = +0` the result is `y1`, for finite coefficients and a `y1` other than `-0`; taps of 1.0 give exactly 1.0,
and taps of `+0` give `+0`, at every `frac` in `[0, 1)`. -/
def Obligations.InterpolatorExactCases : Prop :=
  (∀ (n : Nat) (t : Taps), magBits t.y1 < infMag → t.y1 ≠ 0x80000000#32 →
    magBits (crC1 n t) < infMag → magBits (crC2 (n + 2) t) < infMag →
    magBits (crC3 (n + 8) t) < infMag → crInterp n t 0 = t.y1) ∧
  (∀ (n : Nat) (frac : F32), le32 0 frac = true → lt32 frac 0x3F800000#32 = true →
    crInterp n ⟨0x3F800000, 0x3F800000, 0x3F800000, 0x3F800000⟩ frac = 0x3F800000#32 ∧
    crInterp n ⟨0, 0, 0, 0⟩ frac = 0)

/-- R114: above 0.3 the compensation gain lies between 0.8 and 1.0, at 0.3 and below nothing is compensated, and at full
depth the gain is 0.8. -/
def Obligations.CompensationAttenuatesByAtMostAFifth : Prop :=
  (∀ (n : Nat) (depth : F32), lt32 0x3E99999A#32 depth = true → le32 depth 0x3F800000#32 = true →
    le32 0x3F4CCCCD#32 (depthGain n depth) = true ∧ le32 (depthGain n depth) 0x3F800000#32 = true) ∧
  (∀ (n : Nat) (depth d : F32), le32 depth 0x3E99999A#32 = true → compensate n depth d = d) ∧
  (∀ n, depthGain n 0x3F800000#32 = 0x3F4CCCCD#32)

/-- R117, R128: an output of magnitude at most 0.99, and a NaN, pass the soft clip unchanged, an infinite one stays
infinite, and one of magnitude at most 1.0233 comes out of it within `[-1.0, 1.0]`. -/
def Obligations.SoftClipBounds : Prop :=
  (∀ (n : Nat) (out : F32), le32 (abs32 out) 0x3F7D70A4#32 = true → softClip n out = out) ∧
  (∀ (n : Nat) (out : F32), isNaN out = true → softClip n out = out) ∧
  (∀ n, softClip n 0x7F800000#32 = 0x7F800000#32 ∧ softClip n 0xFF800000#32 = 0xFF800000#32) ∧
  (∀ (n : Nat) (out : F32), le32 (abs32 out) 0x3F82FB7F#32 = true →
    le32 (abs32 (softClip n out)) 0x3F800000#32 = true)

/-! ### The arithmetic -/

/-- R12: each of the four operations on finite operands is the exact result rounded once, to nearest with ties to even;
and the default results: a NaN for a NaN operand and for each invalid operation, a signed infinity for a division by zero,
and infinite operands. R12 names these as IEEE 754's; the standard's signs, zeros and infinities are PRESUMED (log entry
9). -/
def Obligations.ArithmeticRoundsOnce : Prop :=
  let inf : Bool → F32 := fun neg => if neg then 0xFF800000#32 else 0x7F800000#32
  let zero : Bool → F32 := fun neg => if neg then 0x80000000#32 else 0x00000000#32
  (∀ (n : Nat) (a b : F32), magBits a < infMag → magBits b < infMag →
    RoundedOnce (valueUnits a + valueUnits b) 1 (add32 n a b) ∧
    RoundedOnce (valueUnits a - valueUnits b) 1 (sub32 n a b) ∧
    RoundedOnce (valueUnits a * valueUnits b) (2 ^ 149) (mul32 n a b) ∧
    (valueUnits b ≠ 0 → RoundedOnce (valueUnits a * 2 ^ 149 * (valueUnits b).sign)
      (valueUnits b).natAbs (div32 n a b))) ∧
  (∀ (n : Nat) (a b : F32), magBits a < infMag → magBits b < infMag →
    (valueUnits a + valueUnits b = 0 → add32 n a b = zero (signBit a && signBit b)) ∧
    (valueUnits a - valueUnits b = 0 → sub32 n a b = zero (signBit a && !signBit b)) ∧
    signBit (mul32 n a b) = (signBit a != signBit b) ∧
    (valueUnits b ≠ 0 → signBit (div32 n a b) = (signBit a != signBit b))) ∧
  (∀ (n : Nat) (a b : F32), isNaN a = true ∨ isNaN b = true →
    isNaN (add32 n a b) = true ∧ isNaN (sub32 n a b) = true ∧
    isNaN (mul32 n a b) = true ∧ isNaN (div32 n a b) = true) ∧
  (∀ (n : Nat) (s t : Bool),
    (s = t → add32 n (inf s) (inf t) = inf s ∧ isNaN (sub32 n (inf s) (inf t)) = true) ∧
    (s ≠ t → isNaN (add32 n (inf s) (inf t)) = true ∧ sub32 n (inf s) (inf t) = inf s) ∧
    mul32 n (inf s) (inf t) = inf (s != t) ∧ isNaN (div32 n (inf s) (inf t)) = true) ∧
  (∀ (n : Nat) (s : Bool) (a : F32), magBits a < infMag →
    add32 n (inf s) a = inf s ∧ add32 n a (inf s) = inf s ∧
    sub32 n (inf s) a = inf s ∧ sub32 n a (inf s) = inf (!s) ∧
    (valueUnits a = 0 → isNaN (mul32 n (inf s) a) = true ∧ isNaN (mul32 n a (inf s)) = true) ∧
    (valueUnits a ≠ 0 → mul32 n (inf s) a = inf (s != signBit a) ∧ mul32 n a (inf s) = inf (s != signBit a)) ∧
    div32 n (inf s) a = inf (s != signBit a) ∧ div32 n a (inf s) = zero (s != signBit a)) ∧
  (∀ (n : Nat) (a b : F32), magBits a < infMag → magBits b < infMag → valueUnits b = 0 →
    (valueUnits a = 0 → isNaN (div32 n a b) = true) ∧
    (valueUnits a ≠ 0 → div32 n a b = inf (signBit a != signBit b)))

/-- R13, R14, R17: `<` and `<=` are false on a NaN, order finite values as their values (so both zeros are equal) and put
the infinities at the ends; `>` and `>=` are the same the other way; `isNaN`, `abs32` and `neg32` on the encoding. `toF32`
is exact below `2^24` and `floorInt` finds the integer again; `roundF32` rounds a binary64 value and a real number once,
and keeps an infinity. That an infinity and a NaN have these encodings is IEEE 754's (PRESUMED: log entry 9). R14 is silent
on the sign of a zero result: that a negative number that rounds to zero gives `-0`, which `RoundedOnce` says of `roundF32`
and `roundRational32`, is the model's choice (log entry 17). -/
def Obligations.ComparisonsOrderAndConversionsRound : Prop :=
  (∀ a b : F32, isNaN a = true ∨ isNaN b = true → lt32 a b = false ∧ le32 a b = false) ∧
  (∀ a b : F32, magBits a < infMag → magBits b < infMag →
    lt32 a b = decide (valueUnits a < valueUnits b) ∧ le32 a b = decide (valueUnits a ≤ valueUnits b)) ∧
  (∀ a : F32, isNaN a = false →
    lt32 a 0x7F800000#32 = decide (a ≠ 0x7F800000#32) ∧ lt32 0x7F800000#32 a = false ∧
    le32 a 0x7F800000#32 = true ∧ le32 0x7F800000#32 a = decide (a = 0x7F800000#32) ∧
    lt32 0xFF800000#32 a = decide (a ≠ 0xFF800000#32) ∧ lt32 a 0xFF800000#32 = false ∧
    le32 0xFF800000#32 a = true ∧ le32 a 0xFF800000#32 = decide (a = 0xFF800000#32)) ∧
  (∀ a b : F32, gt32 a b = lt32 b a ∧ ge32 a b = le32 b a) ∧
  (∀ a : F32, (isNaN a = true ↔ a.extractLsb' 23 8 = 0xFF#8 ∧ a.extractLsb' 0 23 ≠ 0#23) ∧
    abs32 a = (0#1 ++ a.extractLsb' 0 31 : F32) ∧
    neg32 a = (~~~(a.extractLsb' 31 1) ++ a.extractLsb' 0 31 : F32)) ∧
  (∀ n : Nat, n < 2 ^ 24 → valueUnits (toF32 n) = (n : Int) * 2 ^ 149 ∧ floorInt (toF32 n) = some n) ∧
  (∀ (n : Nat) (d : F64), magBits64 d < infMag64 → RoundedOnce (valueUnits64 d) (2 ^ 925) (roundF32 n d)) ∧
  (∀ n : Nat, roundF32 n 0x7FF0000000000000#64 = 0x7F800000#32 ∧ roundF32 n 0xFFF0000000000000#64 = 0xFF800000#32) ∧
  (∀ (neg : Bool) (num den : Nat), 0 < den →
    RoundedOnce ((if neg then -(num : Int) else (num : Int)) * 2 ^ 149) den (roundRational32 neg num den))

/-- R15: the literals are the binary32 values nearest their decimals. -/
def Obligations.LiteralsAreTheNearestValues : Prop :=
  [roundRational32 false 5 10, roundRational32 false 1 1, roundRational32 false 2 1,
    roundRational32 false 25 10, roundRational32 false 15 10, roundRational32 false 9995 10000,
    roundRational32 false 5 10000, roundRational32 false 15 1, roundRational32 false 7 1,
    roundRational32 false 1000 1, roundRational32 false 10 1, roundRational32 false 999 1000,
    roundRational32 false 3 10, roundRational32 false 7 10, roundRational32 false 2 10,
    roundRational32 false 95 100, roundRational32 false 99 100, roundRational32 false 1 10] =
  [0x3F000000#32, 0x3F800000#32, 0x40000000#32, 0x40200000#32, 0x3FC00000#32, 0x3F7FDF3B#32,
    0x3A03126F#32, 0x41700000#32, 0x40E00000#32, 0x447A0000#32, 0x41200000#32, 0x3F7FBE77#32,
    0x3E99999A#32, 0x3F333333#32, 0x3E4CCCCD#32, 0x3F733333#32, 0x3F7D70A4#32, 0x3DCCCCCD#32] ∧
  [lit_0_5, lit_1_0, lit_2_0, lit_2_5, lit_1_5, lit_0_9995, lit_0_0005, lit_15, lit_7, lit_1000, lit_10,
    lit_0_999, lit_0_3, lit_0_7, lit_0_2, lit_0_95, lit_0_99, lit_0_1] =
  [0x3F000000#32, 0x3F800000#32, 0x40000000#32, 0x40200000#32, 0x3FC00000#32, 0x3F7FDF3B#32,
    0x3A03126F#32, 0x41700000#32, 0x40E00000#32, 0x447A0000#32, 0x41200000#32, 0x3F7FBE77#32,
    0x3E99999A#32, 0x3F333333#32, 0x3E4CCCCD#32, 0x3F733333#32, 0x3F7D70A4#32, 0x3DCCCCCD#32]

/-- R131: the capacity of the sample rates the rule lists. -/
def Obligations.CapacityExamples : Prop :=
  ([roundRational64 false 44100 1, roundRational64 false 48000 1, roundRational64 false 96000 1,
    roundRational64 false 192000 1, roundRational64 false 29285 1, roundRational64 false 29286 1,
    roundRational64 false 8000 1].map capacityOf) = [1543, 1680, 3360, 6720, 1024, 1025, 1024]
end

