-- ==== Sys2Proof/Laws/Assembly.lean ====
section
/-!
SUPPORT. The value word of a WRITE_REG line (spec/30_encoding.md R72): for the three parameters it is the literal's word.
-/

namespace Sys2Proof.Machine

theorem valueWord_parameter {reg : Byte} (h : reg = 0x08 ∨ reg = 0x09 ∨ reg = 0x0A) (v : Literal) :
    valueWord reg v = literalWord v := by
  cases v with
  | hex w => rfl
  | dec d => exact if_pos h

@[simp] theorem valueWord_rate (v : Literal) : valueWord (numberOfReg .rate) v = literalWord v :=
  valueWord_parameter (.inl rfl) v

@[simp] theorem valueWord_depth (v : Literal) : valueWord (numberOfReg .depth) v = literalWord v :=
  valueWord_parameter (.inr (.inl rfl)) v

@[simp] theorem valueWord_mix (v : Literal) : valueWord (numberOfReg .mix) v = literalWord v :=
  valueWord_parameter (.inr (.inr rfl)) v

end Sys2Proof.Machine
end

