-- ==== Sys2Proof/Laws/State.lean ====
section
/-!
SUPPORT. What each named update of the state does to each field: one lemma per field per update, true by rfl.
-/

namespace Sys2Proof.Machine

/-! ### setState -/

@[simp] theorem State.setState_state (s : State) (v : StateCode) : (s.setState v).state = v := rfl
@[simp] theorem State.setState_badCmd (s : State) (v : StateCode) : (s.setState v).badCmd = s.badCmd := rfl
@[simp] theorem State.setState_capacity (s : State) (v : StateCode) : (s.setState v).capacity = s.capacity := rfl
@[simp] theorem State.setState_channels (s : State) (v : StateCode) : (s.setState v).channels = s.channels := rfl
@[simp] theorem State.setState_srLo (s : State) (v : StateCode) : (s.setState v).srLo = s.srLo := rfl
@[simp] theorem State.setState_srHi (s : State) (v : StateCode) : (s.setState v).srHi = s.srHi := rfl
@[simp] theorem State.setState_sr32 (s : State) (v : StateCode) : (s.setState v).sr32 = s.sr32 := rfl
@[simp] theorem State.setState_rate (s : State) (v : StateCode) : (s.setState v).rate = s.rate := rfl
@[simp] theorem State.setState_depth (s : State) (v : StateCode) : (s.setState v).depth = s.depth := rfl
@[simp] theorem State.setState_mix (s : State) (v : StateCode) : (s.setState v).mix = s.mix := rfl
@[simp] theorem State.setState_phase (s : State) (v : StateCode) : (s.setState v).phase = s.phase := rfl
@[simp] theorem State.setState_smooth (s : State) (v : StateCode) : (s.setState v).smooth = s.smooth := rfl
@[simp] theorem State.setState_wptr (s : State) (v : StateCode) : (s.setState v).wptr = s.wptr := rfl
@[simp] theorem State.setState_mem (s : State) (v : StateCode) : (s.setState v).mem = s.mem := rfl
@[simp] theorem State.setState_cmdIn (s : State) (v : StateCode) : (s.setState v).cmdIn = s.cmdIn := rfl
@[simp] theorem State.setState_respOut (s : State) (v : StateCode) : (s.setState v).respOut = s.respOut := rfl
@[simp] theorem State.setState_hostLog (s : State) (v : StateCode) : (s.setState v).hostLog = s.hostLog := rfl
@[simp] theorem State.setState_nanDraw (s : State) (v : StateCode) : (s.setState v).nanDraw = s.nanDraw := rfl

/-! ### setBadCmd -/

@[simp] theorem State.setBadCmd_state (s : State) : s.setBadCmd.state = s.state := rfl
@[simp] theorem State.setBadCmd_badCmd (s : State) : s.setBadCmd.badCmd = true := rfl
@[simp] theorem State.setBadCmd_capacity (s : State) : s.setBadCmd.capacity = s.capacity := rfl
@[simp] theorem State.setBadCmd_channels (s : State) : s.setBadCmd.channels = s.channels := rfl
@[simp] theorem State.setBadCmd_srLo (s : State) : s.setBadCmd.srLo = s.srLo := rfl
@[simp] theorem State.setBadCmd_srHi (s : State) : s.setBadCmd.srHi = s.srHi := rfl
@[simp] theorem State.setBadCmd_sr32 (s : State) : s.setBadCmd.sr32 = s.sr32 := rfl
@[simp] theorem State.setBadCmd_rate (s : State) : s.setBadCmd.rate = s.rate := rfl
@[simp] theorem State.setBadCmd_depth (s : State) : s.setBadCmd.depth = s.depth := rfl
@[simp] theorem State.setBadCmd_mix (s : State) : s.setBadCmd.mix = s.mix := rfl
@[simp] theorem State.setBadCmd_phase (s : State) : s.setBadCmd.phase = s.phase := rfl
@[simp] theorem State.setBadCmd_smooth (s : State) : s.setBadCmd.smooth = s.smooth := rfl
@[simp] theorem State.setBadCmd_wptr (s : State) : s.setBadCmd.wptr = s.wptr := rfl
@[simp] theorem State.setBadCmd_mem (s : State) : s.setBadCmd.mem = s.mem := rfl
@[simp] theorem State.setBadCmd_cmdIn (s : State) : s.setBadCmd.cmdIn = s.cmdIn := rfl
@[simp] theorem State.setBadCmd_respOut (s : State) : s.setBadCmd.respOut = s.respOut := rfl
@[simp] theorem State.setBadCmd_hostLog (s : State) : s.setBadCmd.hostLog = s.hostLog := rfl
@[simp] theorem State.setBadCmd_nanDraw (s : State) : s.setBadCmd.nanDraw = s.nanDraw := rfl

/-! ### clearBadCmd -/

@[simp] theorem State.clearBadCmd_state (s : State) : s.clearBadCmd.state = s.state := rfl
@[simp] theorem State.clearBadCmd_badCmd (s : State) : s.clearBadCmd.badCmd = false := rfl
@[simp] theorem State.clearBadCmd_capacity (s : State) : s.clearBadCmd.capacity = s.capacity := rfl
@[simp] theorem State.clearBadCmd_channels (s : State) : s.clearBadCmd.channels = s.channels := rfl
@[simp] theorem State.clearBadCmd_srLo (s : State) : s.clearBadCmd.srLo = s.srLo := rfl
@[simp] theorem State.clearBadCmd_srHi (s : State) : s.clearBadCmd.srHi = s.srHi := rfl
@[simp] theorem State.clearBadCmd_sr32 (s : State) : s.clearBadCmd.sr32 = s.sr32 := rfl
@[simp] theorem State.clearBadCmd_rate (s : State) : s.clearBadCmd.rate = s.rate := rfl
@[simp] theorem State.clearBadCmd_depth (s : State) : s.clearBadCmd.depth = s.depth := rfl
@[simp] theorem State.clearBadCmd_mix (s : State) : s.clearBadCmd.mix = s.mix := rfl
@[simp] theorem State.clearBadCmd_phase (s : State) : s.clearBadCmd.phase = s.phase := rfl
@[simp] theorem State.clearBadCmd_smooth (s : State) : s.clearBadCmd.smooth = s.smooth := rfl
@[simp] theorem State.clearBadCmd_wptr (s : State) : s.clearBadCmd.wptr = s.wptr := rfl
@[simp] theorem State.clearBadCmd_mem (s : State) : s.clearBadCmd.mem = s.mem := rfl
@[simp] theorem State.clearBadCmd_cmdIn (s : State) : s.clearBadCmd.cmdIn = s.cmdIn := rfl
@[simp] theorem State.clearBadCmd_respOut (s : State) : s.clearBadCmd.respOut = s.respOut := rfl
@[simp] theorem State.clearBadCmd_hostLog (s : State) : s.clearBadCmd.hostLog = s.hostLog := rfl
@[simp] theorem State.clearBadCmd_nanDraw (s : State) : s.clearBadCmd.nanDraw = s.nanDraw := rfl

/-! ### setExtent -/

@[simp] theorem State.setExtent_state (s : State) (a b : Word) : (s.setExtent a b).state = s.state := rfl
@[simp] theorem State.setExtent_badCmd (s : State) (a b : Word) : (s.setExtent a b).badCmd = s.badCmd := rfl
@[simp] theorem State.setExtent_capacity (s : State) (a b : Word) : (s.setExtent a b).capacity = a := rfl
@[simp] theorem State.setExtent_channels (s : State) (a b : Word) : (s.setExtent a b).channels = b := rfl
@[simp] theorem State.setExtent_srLo (s : State) (a b : Word) : (s.setExtent a b).srLo = s.srLo := rfl
@[simp] theorem State.setExtent_srHi (s : State) (a b : Word) : (s.setExtent a b).srHi = s.srHi := rfl
@[simp] theorem State.setExtent_sr32 (s : State) (a b : Word) : (s.setExtent a b).sr32 = s.sr32 := rfl
@[simp] theorem State.setExtent_rate (s : State) (a b : Word) : (s.setExtent a b).rate = s.rate := rfl
@[simp] theorem State.setExtent_depth (s : State) (a b : Word) : (s.setExtent a b).depth = s.depth := rfl
@[simp] theorem State.setExtent_mix (s : State) (a b : Word) : (s.setExtent a b).mix = s.mix := rfl
@[simp] theorem State.setExtent_phase (s : State) (a b : Word) : (s.setExtent a b).phase = s.phase := rfl
@[simp] theorem State.setExtent_smooth (s : State) (a b : Word) : (s.setExtent a b).smooth = s.smooth := rfl
@[simp] theorem State.setExtent_wptr (s : State) (a b : Word) : (s.setExtent a b).wptr = s.wptr := rfl
@[simp] theorem State.setExtent_mem (s : State) (a b : Word) : (s.setExtent a b).mem = s.mem := rfl
@[simp] theorem State.setExtent_cmdIn (s : State) (a b : Word) : (s.setExtent a b).cmdIn = s.cmdIn := rfl
@[simp] theorem State.setExtent_respOut (s : State) (a b : Word) : (s.setExtent a b).respOut = s.respOut := rfl
@[simp] theorem State.setExtent_hostLog (s : State) (a b : Word) : (s.setExtent a b).hostLog = s.hostLog := rfl
@[simp] theorem State.setExtent_nanDraw (s : State) (a b : Word) : (s.setExtent a b).nanDraw = s.nanDraw := rfl

/-! ### setSampleRate -/

@[simp] theorem State.setSampleRate_state (s : State) (a b : Word) : (s.setSampleRate a b).state = s.state := rfl
@[simp] theorem State.setSampleRate_badCmd (s : State) (a b : Word) : (s.setSampleRate a b).badCmd = s.badCmd := rfl
@[simp] theorem State.setSampleRate_capacity (s : State) (a b : Word) : (s.setSampleRate a b).capacity = s.capacity := rfl
@[simp] theorem State.setSampleRate_channels (s : State) (a b : Word) : (s.setSampleRate a b).channels = s.channels := rfl
@[simp] theorem State.setSampleRate_srLo (s : State) (a b : Word) : (s.setSampleRate a b).srLo = a := rfl
@[simp] theorem State.setSampleRate_srHi (s : State) (a b : Word) : (s.setSampleRate a b).srHi = b := rfl
@[simp] theorem State.setSampleRate_sr32 (s : State) (a b : Word) : (s.setSampleRate a b).sr32 = s.sr32 := rfl
@[simp] theorem State.setSampleRate_rate (s : State) (a b : Word) : (s.setSampleRate a b).rate = s.rate := rfl
@[simp] theorem State.setSampleRate_depth (s : State) (a b : Word) : (s.setSampleRate a b).depth = s.depth := rfl
@[simp] theorem State.setSampleRate_mix (s : State) (a b : Word) : (s.setSampleRate a b).mix = s.mix := rfl
@[simp] theorem State.setSampleRate_phase (s : State) (a b : Word) : (s.setSampleRate a b).phase = s.phase := rfl
@[simp] theorem State.setSampleRate_smooth (s : State) (a b : Word) : (s.setSampleRate a b).smooth = s.smooth := rfl
@[simp] theorem State.setSampleRate_wptr (s : State) (a b : Word) : (s.setSampleRate a b).wptr = s.wptr := rfl
@[simp] theorem State.setSampleRate_mem (s : State) (a b : Word) : (s.setSampleRate a b).mem = s.mem := rfl
@[simp] theorem State.setSampleRate_cmdIn (s : State) (a b : Word) : (s.setSampleRate a b).cmdIn = s.cmdIn := rfl
@[simp] theorem State.setSampleRate_respOut (s : State) (a b : Word) : (s.setSampleRate a b).respOut = s.respOut := rfl
@[simp] theorem State.setSampleRate_hostLog (s : State) (a b : Word) : (s.setSampleRate a b).hostLog = s.hostLog := rfl
@[simp] theorem State.setSampleRate_nanDraw (s : State) (a b : Word) : (s.setSampleRate a b).nanDraw = s.nanDraw := rfl

/-! ### setSr32 -/

@[simp] theorem State.setSr32_state (s : State) (v : F32) : (s.setSr32 v).state = s.state := rfl
@[simp] theorem State.setSr32_badCmd (s : State) (v : F32) : (s.setSr32 v).badCmd = s.badCmd := rfl
@[simp] theorem State.setSr32_capacity (s : State) (v : F32) : (s.setSr32 v).capacity = s.capacity := rfl
@[simp] theorem State.setSr32_channels (s : State) (v : F32) : (s.setSr32 v).channels = s.channels := rfl
@[simp] theorem State.setSr32_srLo (s : State) (v : F32) : (s.setSr32 v).srLo = s.srLo := rfl
@[simp] theorem State.setSr32_srHi (s : State) (v : F32) : (s.setSr32 v).srHi = s.srHi := rfl
@[simp] theorem State.setSr32_sr32 (s : State) (v : F32) : (s.setSr32 v).sr32 = v := rfl
@[simp] theorem State.setSr32_rate (s : State) (v : F32) : (s.setSr32 v).rate = s.rate := rfl
@[simp] theorem State.setSr32_depth (s : State) (v : F32) : (s.setSr32 v).depth = s.depth := rfl
@[simp] theorem State.setSr32_mix (s : State) (v : F32) : (s.setSr32 v).mix = s.mix := rfl
@[simp] theorem State.setSr32_phase (s : State) (v : F32) : (s.setSr32 v).phase = s.phase := rfl
@[simp] theorem State.setSr32_smooth (s : State) (v : F32) : (s.setSr32 v).smooth = s.smooth := rfl
@[simp] theorem State.setSr32_wptr (s : State) (v : F32) : (s.setSr32 v).wptr = s.wptr := rfl
@[simp] theorem State.setSr32_mem (s : State) (v : F32) : (s.setSr32 v).mem = s.mem := rfl
@[simp] theorem State.setSr32_cmdIn (s : State) (v : F32) : (s.setSr32 v).cmdIn = s.cmdIn := rfl
@[simp] theorem State.setSr32_respOut (s : State) (v : F32) : (s.setSr32 v).respOut = s.respOut := rfl
@[simp] theorem State.setSr32_hostLog (s : State) (v : F32) : (s.setSr32 v).hostLog = s.hostLog := rfl
@[simp] theorem State.setSr32_nanDraw (s : State) (v : F32) : (s.setSr32 v).nanDraw = s.nanDraw := rfl

/-! ### setRate -/

@[simp] theorem State.setRate_state (s : State) (v : F32) : (s.setRate v).state = s.state := rfl
@[simp] theorem State.setRate_badCmd (s : State) (v : F32) : (s.setRate v).badCmd = s.badCmd := rfl
@[simp] theorem State.setRate_capacity (s : State) (v : F32) : (s.setRate v).capacity = s.capacity := rfl
@[simp] theorem State.setRate_channels (s : State) (v : F32) : (s.setRate v).channels = s.channels := rfl
@[simp] theorem State.setRate_srLo (s : State) (v : F32) : (s.setRate v).srLo = s.srLo := rfl
@[simp] theorem State.setRate_srHi (s : State) (v : F32) : (s.setRate v).srHi = s.srHi := rfl
@[simp] theorem State.setRate_sr32 (s : State) (v : F32) : (s.setRate v).sr32 = s.sr32 := rfl
@[simp] theorem State.setRate_rate (s : State) (v : F32) : (s.setRate v).rate = v := rfl
@[simp] theorem State.setRate_depth (s : State) (v : F32) : (s.setRate v).depth = s.depth := rfl
@[simp] theorem State.setRate_mix (s : State) (v : F32) : (s.setRate v).mix = s.mix := rfl
@[simp] theorem State.setRate_phase (s : State) (v : F32) : (s.setRate v).phase = s.phase := rfl
@[simp] theorem State.setRate_smooth (s : State) (v : F32) : (s.setRate v).smooth = s.smooth := rfl
@[simp] theorem State.setRate_wptr (s : State) (v : F32) : (s.setRate v).wptr = s.wptr := rfl
@[simp] theorem State.setRate_mem (s : State) (v : F32) : (s.setRate v).mem = s.mem := rfl
@[simp] theorem State.setRate_cmdIn (s : State) (v : F32) : (s.setRate v).cmdIn = s.cmdIn := rfl
@[simp] theorem State.setRate_respOut (s : State) (v : F32) : (s.setRate v).respOut = s.respOut := rfl
@[simp] theorem State.setRate_hostLog (s : State) (v : F32) : (s.setRate v).hostLog = s.hostLog := rfl
@[simp] theorem State.setRate_nanDraw (s : State) (v : F32) : (s.setRate v).nanDraw = s.nanDraw := rfl

/-! ### setDepth -/

@[simp] theorem State.setDepth_state (s : State) (v : F32) : (s.setDepth v).state = s.state := rfl
@[simp] theorem State.setDepth_badCmd (s : State) (v : F32) : (s.setDepth v).badCmd = s.badCmd := rfl
@[simp] theorem State.setDepth_capacity (s : State) (v : F32) : (s.setDepth v).capacity = s.capacity := rfl
@[simp] theorem State.setDepth_channels (s : State) (v : F32) : (s.setDepth v).channels = s.channels := rfl
@[simp] theorem State.setDepth_srLo (s : State) (v : F32) : (s.setDepth v).srLo = s.srLo := rfl
@[simp] theorem State.setDepth_srHi (s : State) (v : F32) : (s.setDepth v).srHi = s.srHi := rfl
@[simp] theorem State.setDepth_sr32 (s : State) (v : F32) : (s.setDepth v).sr32 = s.sr32 := rfl
@[simp] theorem State.setDepth_rate (s : State) (v : F32) : (s.setDepth v).rate = s.rate := rfl
@[simp] theorem State.setDepth_depth (s : State) (v : F32) : (s.setDepth v).depth = v := rfl
@[simp] theorem State.setDepth_mix (s : State) (v : F32) : (s.setDepth v).mix = s.mix := rfl
@[simp] theorem State.setDepth_phase (s : State) (v : F32) : (s.setDepth v).phase = s.phase := rfl
@[simp] theorem State.setDepth_smooth (s : State) (v : F32) : (s.setDepth v).smooth = s.smooth := rfl
@[simp] theorem State.setDepth_wptr (s : State) (v : F32) : (s.setDepth v).wptr = s.wptr := rfl
@[simp] theorem State.setDepth_mem (s : State) (v : F32) : (s.setDepth v).mem = s.mem := rfl
@[simp] theorem State.setDepth_cmdIn (s : State) (v : F32) : (s.setDepth v).cmdIn = s.cmdIn := rfl
@[simp] theorem State.setDepth_respOut (s : State) (v : F32) : (s.setDepth v).respOut = s.respOut := rfl
@[simp] theorem State.setDepth_hostLog (s : State) (v : F32) : (s.setDepth v).hostLog = s.hostLog := rfl
@[simp] theorem State.setDepth_nanDraw (s : State) (v : F32) : (s.setDepth v).nanDraw = s.nanDraw := rfl

/-! ### setMix -/

@[simp] theorem State.setMix_state (s : State) (v : F32) : (s.setMix v).state = s.state := rfl
@[simp] theorem State.setMix_badCmd (s : State) (v : F32) : (s.setMix v).badCmd = s.badCmd := rfl
@[simp] theorem State.setMix_capacity (s : State) (v : F32) : (s.setMix v).capacity = s.capacity := rfl
@[simp] theorem State.setMix_channels (s : State) (v : F32) : (s.setMix v).channels = s.channels := rfl
@[simp] theorem State.setMix_srLo (s : State) (v : F32) : (s.setMix v).srLo = s.srLo := rfl
@[simp] theorem State.setMix_srHi (s : State) (v : F32) : (s.setMix v).srHi = s.srHi := rfl
@[simp] theorem State.setMix_sr32 (s : State) (v : F32) : (s.setMix v).sr32 = s.sr32 := rfl
@[simp] theorem State.setMix_rate (s : State) (v : F32) : (s.setMix v).rate = s.rate := rfl
@[simp] theorem State.setMix_depth (s : State) (v : F32) : (s.setMix v).depth = s.depth := rfl
@[simp] theorem State.setMix_mix (s : State) (v : F32) : (s.setMix v).mix = v := rfl
@[simp] theorem State.setMix_phase (s : State) (v : F32) : (s.setMix v).phase = s.phase := rfl
@[simp] theorem State.setMix_smooth (s : State) (v : F32) : (s.setMix v).smooth = s.smooth := rfl
@[simp] theorem State.setMix_wptr (s : State) (v : F32) : (s.setMix v).wptr = s.wptr := rfl
@[simp] theorem State.setMix_mem (s : State) (v : F32) : (s.setMix v).mem = s.mem := rfl
@[simp] theorem State.setMix_cmdIn (s : State) (v : F32) : (s.setMix v).cmdIn = s.cmdIn := rfl
@[simp] theorem State.setMix_respOut (s : State) (v : F32) : (s.setMix v).respOut = s.respOut := rfl
@[simp] theorem State.setMix_hostLog (s : State) (v : F32) : (s.setMix v).hostLog = s.hostLog := rfl
@[simp] theorem State.setMix_nanDraw (s : State) (v : F32) : (s.setMix v).nanDraw = s.nanDraw := rfl

/-! ### setOscillator -/

@[simp] theorem State.setOscillator_state (s : State) (a b : F32) : (s.setOscillator a b).state = s.state := rfl
@[simp] theorem State.setOscillator_badCmd (s : State) (a b : F32) : (s.setOscillator a b).badCmd = s.badCmd := rfl
@[simp] theorem State.setOscillator_capacity (s : State) (a b : F32) : (s.setOscillator a b).capacity = s.capacity := rfl
@[simp] theorem State.setOscillator_channels (s : State) (a b : F32) : (s.setOscillator a b).channels = s.channels := rfl
@[simp] theorem State.setOscillator_srLo (s : State) (a b : F32) : (s.setOscillator a b).srLo = s.srLo := rfl
@[simp] theorem State.setOscillator_srHi (s : State) (a b : F32) : (s.setOscillator a b).srHi = s.srHi := rfl
@[simp] theorem State.setOscillator_sr32 (s : State) (a b : F32) : (s.setOscillator a b).sr32 = s.sr32 := rfl
@[simp] theorem State.setOscillator_rate (s : State) (a b : F32) : (s.setOscillator a b).rate = s.rate := rfl
@[simp] theorem State.setOscillator_depth (s : State) (a b : F32) : (s.setOscillator a b).depth = s.depth := rfl
@[simp] theorem State.setOscillator_mix (s : State) (a b : F32) : (s.setOscillator a b).mix = s.mix := rfl
@[simp] theorem State.setOscillator_phase (s : State) (a b : F32) : (s.setOscillator a b).phase = a := rfl
@[simp] theorem State.setOscillator_smooth (s : State) (a b : F32) : (s.setOscillator a b).smooth = b := rfl
@[simp] theorem State.setOscillator_wptr (s : State) (a b : F32) : (s.setOscillator a b).wptr = s.wptr := rfl
@[simp] theorem State.setOscillator_mem (s : State) (a b : F32) : (s.setOscillator a b).mem = s.mem := rfl
@[simp] theorem State.setOscillator_cmdIn (s : State) (a b : F32) : (s.setOscillator a b).cmdIn = s.cmdIn := rfl
@[simp] theorem State.setOscillator_respOut (s : State) (a b : F32) : (s.setOscillator a b).respOut = s.respOut := rfl
@[simp] theorem State.setOscillator_hostLog (s : State) (a b : F32) : (s.setOscillator a b).hostLog = s.hostLog := rfl
@[simp] theorem State.setOscillator_nanDraw (s : State) (a b : F32) : (s.setOscillator a b).nanDraw = s.nanDraw := rfl

/-! ### setCursor -/

@[simp] theorem State.setCursor_state (s : State) (c : Nat) (w : Word) : (s.setCursor c w).state = s.state := rfl
@[simp] theorem State.setCursor_badCmd (s : State) (c : Nat) (w : Word) : (s.setCursor c w).badCmd = s.badCmd := rfl
@[simp] theorem State.setCursor_capacity (s : State) (c : Nat) (w : Word) : (s.setCursor c w).capacity = s.capacity := rfl
@[simp] theorem State.setCursor_channels (s : State) (c : Nat) (w : Word) : (s.setCursor c w).channels = s.channels := rfl
@[simp] theorem State.setCursor_srLo (s : State) (c : Nat) (w : Word) : (s.setCursor c w).srLo = s.srLo := rfl
@[simp] theorem State.setCursor_srHi (s : State) (c : Nat) (w : Word) : (s.setCursor c w).srHi = s.srHi := rfl
@[simp] theorem State.setCursor_sr32 (s : State) (c : Nat) (w : Word) : (s.setCursor c w).sr32 = s.sr32 := rfl
@[simp] theorem State.setCursor_rate (s : State) (c : Nat) (w : Word) : (s.setCursor c w).rate = s.rate := rfl
@[simp] theorem State.setCursor_depth (s : State) (c : Nat) (w : Word) : (s.setCursor c w).depth = s.depth := rfl
@[simp] theorem State.setCursor_mix (s : State) (c : Nat) (w : Word) : (s.setCursor c w).mix = s.mix := rfl
@[simp] theorem State.setCursor_phase (s : State) (c : Nat) (w : Word) : (s.setCursor c w).phase = s.phase := rfl
@[simp] theorem State.setCursor_smooth (s : State) (c : Nat) (w : Word) : (s.setCursor c w).smooth = s.smooth := rfl
@[simp] theorem State.setCursor_wptr (s : State) (c : Nat) (w : Word) : (s.setCursor c w).wptr = cellsSet (0 : Word) s.wptr c w := rfl
@[simp] theorem State.setCursor_mem (s : State) (c : Nat) (w : Word) : (s.setCursor c w).mem = s.mem := rfl
@[simp] theorem State.setCursor_cmdIn (s : State) (c : Nat) (w : Word) : (s.setCursor c w).cmdIn = s.cmdIn := rfl
@[simp] theorem State.setCursor_respOut (s : State) (c : Nat) (w : Word) : (s.setCursor c w).respOut = s.respOut := rfl
@[simp] theorem State.setCursor_hostLog (s : State) (c : Nat) (w : Word) : (s.setCursor c w).hostLog = s.hostLog := rfl
@[simp] theorem State.setCursor_nanDraw (s : State) (c : Nat) (w : Word) : (s.setCursor c w).nanDraw = s.nanDraw := rfl

/-! ### clearCursors -/

@[simp] theorem State.clearCursors_state (s : State) : s.clearCursors.state = s.state := rfl
@[simp] theorem State.clearCursors_badCmd (s : State) : s.clearCursors.badCmd = s.badCmd := rfl
@[simp] theorem State.clearCursors_capacity (s : State) : s.clearCursors.capacity = s.capacity := rfl
@[simp] theorem State.clearCursors_channels (s : State) : s.clearCursors.channels = s.channels := rfl
@[simp] theorem State.clearCursors_srLo (s : State) : s.clearCursors.srLo = s.srLo := rfl
@[simp] theorem State.clearCursors_srHi (s : State) : s.clearCursors.srHi = s.srHi := rfl
@[simp] theorem State.clearCursors_sr32 (s : State) : s.clearCursors.sr32 = s.sr32 := rfl
@[simp] theorem State.clearCursors_rate (s : State) : s.clearCursors.rate = s.rate := rfl
@[simp] theorem State.clearCursors_depth (s : State) : s.clearCursors.depth = s.depth := rfl
@[simp] theorem State.clearCursors_mix (s : State) : s.clearCursors.mix = s.mix := rfl
@[simp] theorem State.clearCursors_phase (s : State) : s.clearCursors.phase = s.phase := rfl
@[simp] theorem State.clearCursors_smooth (s : State) : s.clearCursors.smooth = s.smooth := rfl
@[simp] theorem State.clearCursors_wptr (s : State) : s.clearCursors.wptr = [] := rfl
@[simp] theorem State.clearCursors_mem (s : State) : s.clearCursors.mem = s.mem := rfl
@[simp] theorem State.clearCursors_cmdIn (s : State) : s.clearCursors.cmdIn = s.cmdIn := rfl
@[simp] theorem State.clearCursors_respOut (s : State) : s.clearCursors.respOut = s.respOut := rfl
@[simp] theorem State.clearCursors_hostLog (s : State) : s.clearCursors.hostLog = s.hostLog := rfl
@[simp] theorem State.clearCursors_nanDraw (s : State) : s.clearCursors.nanDraw = s.nanDraw := rfl

/-! ### setMem -/

@[simp] theorem State.setMem_state (s : State) (m : Memory) : (s.setMem m).state = s.state := rfl
@[simp] theorem State.setMem_badCmd (s : State) (m : Memory) : (s.setMem m).badCmd = s.badCmd := rfl
@[simp] theorem State.setMem_capacity (s : State) (m : Memory) : (s.setMem m).capacity = s.capacity := rfl
@[simp] theorem State.setMem_channels (s : State) (m : Memory) : (s.setMem m).channels = s.channels := rfl
@[simp] theorem State.setMem_srLo (s : State) (m : Memory) : (s.setMem m).srLo = s.srLo := rfl
@[simp] theorem State.setMem_srHi (s : State) (m : Memory) : (s.setMem m).srHi = s.srHi := rfl
@[simp] theorem State.setMem_sr32 (s : State) (m : Memory) : (s.setMem m).sr32 = s.sr32 := rfl
@[simp] theorem State.setMem_rate (s : State) (m : Memory) : (s.setMem m).rate = s.rate := rfl
@[simp] theorem State.setMem_depth (s : State) (m : Memory) : (s.setMem m).depth = s.depth := rfl
@[simp] theorem State.setMem_mix (s : State) (m : Memory) : (s.setMem m).mix = s.mix := rfl
@[simp] theorem State.setMem_phase (s : State) (m : Memory) : (s.setMem m).phase = s.phase := rfl
@[simp] theorem State.setMem_smooth (s : State) (m : Memory) : (s.setMem m).smooth = s.smooth := rfl
@[simp] theorem State.setMem_wptr (s : State) (m : Memory) : (s.setMem m).wptr = s.wptr := rfl
@[simp] theorem State.setMem_mem (s : State) (m : Memory) : (s.setMem m).mem = m := rfl
@[simp] theorem State.setMem_cmdIn (s : State) (m : Memory) : (s.setMem m).cmdIn = s.cmdIn := rfl
@[simp] theorem State.setMem_respOut (s : State) (m : Memory) : (s.setMem m).respOut = s.respOut := rfl
@[simp] theorem State.setMem_hostLog (s : State) (m : Memory) : (s.setMem m).hostLog = s.hostLog := rfl
@[simp] theorem State.setMem_nanDraw (s : State) (m : Memory) : (s.setMem m).nanDraw = s.nanDraw := rfl

/-! ### draw -/

@[simp] theorem State.draw_state (s : State) (k : Nat) : (s.draw k).state = s.state := rfl
@[simp] theorem State.draw_badCmd (s : State) (k : Nat) : (s.draw k).badCmd = s.badCmd := rfl
@[simp] theorem State.draw_capacity (s : State) (k : Nat) : (s.draw k).capacity = s.capacity := rfl
@[simp] theorem State.draw_channels (s : State) (k : Nat) : (s.draw k).channels = s.channels := rfl
@[simp] theorem State.draw_srLo (s : State) (k : Nat) : (s.draw k).srLo = s.srLo := rfl
@[simp] theorem State.draw_srHi (s : State) (k : Nat) : (s.draw k).srHi = s.srHi := rfl
@[simp] theorem State.draw_sr32 (s : State) (k : Nat) : (s.draw k).sr32 = s.sr32 := rfl
@[simp] theorem State.draw_rate (s : State) (k : Nat) : (s.draw k).rate = s.rate := rfl
@[simp] theorem State.draw_depth (s : State) (k : Nat) : (s.draw k).depth = s.depth := rfl
@[simp] theorem State.draw_mix (s : State) (k : Nat) : (s.draw k).mix = s.mix := rfl
@[simp] theorem State.draw_phase (s : State) (k : Nat) : (s.draw k).phase = s.phase := rfl
@[simp] theorem State.draw_smooth (s : State) (k : Nat) : (s.draw k).smooth = s.smooth := rfl
@[simp] theorem State.draw_wptr (s : State) (k : Nat) : (s.draw k).wptr = s.wptr := rfl
@[simp] theorem State.draw_mem (s : State) (k : Nat) : (s.draw k).mem = s.mem := rfl
@[simp] theorem State.draw_cmdIn (s : State) (k : Nat) : (s.draw k).cmdIn = s.cmdIn := rfl
@[simp] theorem State.draw_respOut (s : State) (k : Nat) : (s.draw k).respOut = s.respOut := rfl
@[simp] theorem State.draw_hostLog (s : State) (k : Nat) : (s.draw k).hostLog = s.hostLog := rfl
@[simp] theorem State.draw_nanDraw (s : State) (k : Nat) : (s.draw k).nanDraw = s.nanDraw + k := rfl

/-! ### forgetCells -/

@[simp] theorem State.forgetCells_state (s : State) : s.forgetCells.state = s.state := rfl
@[simp] theorem State.forgetCells_badCmd (s : State) : s.forgetCells.badCmd = s.badCmd := rfl
@[simp] theorem State.forgetCells_capacity (s : State) : s.forgetCells.capacity = s.capacity := rfl
@[simp] theorem State.forgetCells_channels (s : State) : s.forgetCells.channels = s.channels := rfl
@[simp] theorem State.forgetCells_srLo (s : State) : s.forgetCells.srLo = s.srLo := rfl
@[simp] theorem State.forgetCells_srHi (s : State) : s.forgetCells.srHi = s.srHi := rfl
@[simp] theorem State.forgetCells_sr32 (s : State) : s.forgetCells.sr32 = s.sr32 := rfl
@[simp] theorem State.forgetCells_rate (s : State) : s.forgetCells.rate = s.rate := rfl
@[simp] theorem State.forgetCells_depth (s : State) : s.forgetCells.depth = s.depth := rfl
@[simp] theorem State.forgetCells_mix (s : State) : s.forgetCells.mix = s.mix := rfl
@[simp] theorem State.forgetCells_phase (s : State) : s.forgetCells.phase = s.phase := rfl
@[simp] theorem State.forgetCells_smooth (s : State) : s.forgetCells.smooth = s.smooth := rfl
@[simp] theorem State.forgetCells_wptr (s : State) : s.forgetCells.wptr = s.wptr := rfl
@[simp] theorem State.forgetCells_mem (s : State) : s.forgetCells.mem = [] := rfl
@[simp] theorem State.forgetCells_cmdIn (s : State) : s.forgetCells.cmdIn = s.cmdIn := rfl
@[simp] theorem State.forgetCells_respOut (s : State) : s.forgetCells.respOut = s.respOut := rfl
@[simp] theorem State.forgetCells_hostLog (s : State) : s.forgetCells.hostLog = s.hostLog := rfl
@[simp] theorem State.forgetCells_nanDraw (s : State) : s.forgetCells.nanDraw = s.nanDraw := rfl

/-! ### respond -/

@[simp] theorem State.respond_state (s : State) (ws : List Word) : (s.respond ws).state = s.state := rfl
@[simp] theorem State.respond_badCmd (s : State) (ws : List Word) : (s.respond ws).badCmd = s.badCmd := rfl
@[simp] theorem State.respond_capacity (s : State) (ws : List Word) : (s.respond ws).capacity = s.capacity := rfl
@[simp] theorem State.respond_channels (s : State) (ws : List Word) : (s.respond ws).channels = s.channels := rfl
@[simp] theorem State.respond_srLo (s : State) (ws : List Word) : (s.respond ws).srLo = s.srLo := rfl
@[simp] theorem State.respond_srHi (s : State) (ws : List Word) : (s.respond ws).srHi = s.srHi := rfl
@[simp] theorem State.respond_sr32 (s : State) (ws : List Word) : (s.respond ws).sr32 = s.sr32 := rfl
@[simp] theorem State.respond_rate (s : State) (ws : List Word) : (s.respond ws).rate = s.rate := rfl
@[simp] theorem State.respond_depth (s : State) (ws : List Word) : (s.respond ws).depth = s.depth := rfl
@[simp] theorem State.respond_mix (s : State) (ws : List Word) : (s.respond ws).mix = s.mix := rfl
@[simp] theorem State.respond_phase (s : State) (ws : List Word) : (s.respond ws).phase = s.phase := rfl
@[simp] theorem State.respond_smooth (s : State) (ws : List Word) : (s.respond ws).smooth = s.smooth := rfl
@[simp] theorem State.respond_wptr (s : State) (ws : List Word) : (s.respond ws).wptr = s.wptr := rfl
@[simp] theorem State.respond_mem (s : State) (ws : List Word) : (s.respond ws).mem = s.mem := rfl
@[simp] theorem State.respond_cmdIn (s : State) (ws : List Word) : (s.respond ws).cmdIn = s.cmdIn := rfl
@[simp] theorem State.respond_respOut (s : State) (ws : List Word) : (s.respond ws).respOut = s.respOut ++ ws := rfl
@[simp] theorem State.respond_hostLog (s : State) (ws : List Word) : (s.respond ws).hostLog = s.hostLog := rfl
@[simp] theorem State.respond_nanDraw (s : State) (ws : List Word) : (s.respond ws).nanDraw = s.nanDraw := rfl

/-! ### takeResponses -/

@[simp] theorem State.takeResponses_state (s : State) : s.takeResponses.state = s.state := rfl
@[simp] theorem State.takeResponses_badCmd (s : State) : s.takeResponses.badCmd = s.badCmd := rfl
@[simp] theorem State.takeResponses_capacity (s : State) : s.takeResponses.capacity = s.capacity := rfl
@[simp] theorem State.takeResponses_channels (s : State) : s.takeResponses.channels = s.channels := rfl
@[simp] theorem State.takeResponses_srLo (s : State) : s.takeResponses.srLo = s.srLo := rfl
@[simp] theorem State.takeResponses_srHi (s : State) : s.takeResponses.srHi = s.srHi := rfl
@[simp] theorem State.takeResponses_sr32 (s : State) : s.takeResponses.sr32 = s.sr32 := rfl
@[simp] theorem State.takeResponses_rate (s : State) : s.takeResponses.rate = s.rate := rfl
@[simp] theorem State.takeResponses_depth (s : State) : s.takeResponses.depth = s.depth := rfl
@[simp] theorem State.takeResponses_mix (s : State) : s.takeResponses.mix = s.mix := rfl
@[simp] theorem State.takeResponses_phase (s : State) : s.takeResponses.phase = s.phase := rfl
@[simp] theorem State.takeResponses_smooth (s : State) : s.takeResponses.smooth = s.smooth := rfl
@[simp] theorem State.takeResponses_wptr (s : State) : s.takeResponses.wptr = s.wptr := rfl
@[simp] theorem State.takeResponses_mem (s : State) : s.takeResponses.mem = s.mem := rfl
@[simp] theorem State.takeResponses_cmdIn (s : State) : s.takeResponses.cmdIn = s.cmdIn := rfl
@[simp] theorem State.takeResponses_respOut (s : State) : s.takeResponses.respOut = [] := rfl
@[simp] theorem State.takeResponses_hostLog (s : State) : s.takeResponses.hostLog = s.hostLog ++ s.respOut := rfl
@[simp] theorem State.takeResponses_nanDraw (s : State) : s.takeResponses.nanDraw = s.nanDraw := rfl

/-! ### setInput -/

@[simp] theorem State.setInput_state (s : State) (ws : List Word) : (s.setInput ws).state = s.state := rfl
@[simp] theorem State.setInput_badCmd (s : State) (ws : List Word) : (s.setInput ws).badCmd = s.badCmd := rfl
@[simp] theorem State.setInput_capacity (s : State) (ws : List Word) : (s.setInput ws).capacity = s.capacity := rfl
@[simp] theorem State.setInput_channels (s : State) (ws : List Word) : (s.setInput ws).channels = s.channels := rfl
@[simp] theorem State.setInput_srLo (s : State) (ws : List Word) : (s.setInput ws).srLo = s.srLo := rfl
@[simp] theorem State.setInput_srHi (s : State) (ws : List Word) : (s.setInput ws).srHi = s.srHi := rfl
@[simp] theorem State.setInput_sr32 (s : State) (ws : List Word) : (s.setInput ws).sr32 = s.sr32 := rfl
@[simp] theorem State.setInput_rate (s : State) (ws : List Word) : (s.setInput ws).rate = s.rate := rfl
@[simp] theorem State.setInput_depth (s : State) (ws : List Word) : (s.setInput ws).depth = s.depth := rfl
@[simp] theorem State.setInput_mix (s : State) (ws : List Word) : (s.setInput ws).mix = s.mix := rfl
@[simp] theorem State.setInput_phase (s : State) (ws : List Word) : (s.setInput ws).phase = s.phase := rfl
@[simp] theorem State.setInput_smooth (s : State) (ws : List Word) : (s.setInput ws).smooth = s.smooth := rfl
@[simp] theorem State.setInput_wptr (s : State) (ws : List Word) : (s.setInput ws).wptr = s.wptr := rfl
@[simp] theorem State.setInput_mem (s : State) (ws : List Word) : (s.setInput ws).mem = s.mem := rfl
@[simp] theorem State.setInput_cmdIn (s : State) (ws : List Word) : (s.setInput ws).cmdIn = ws := rfl
@[simp] theorem State.setInput_respOut (s : State) (ws : List Word) : (s.setInput ws).respOut = s.respOut := rfl
@[simp] theorem State.setInput_hostLog (s : State) (ws : List Word) : (s.setInput ws).hostLog = s.hostLog := rfl
@[simp] theorem State.setInput_nanDraw (s : State) (ws : List Word) : (s.setInput ws).nanDraw = s.nanDraw := rfl

end Sys2Proof.Machine
end

