-- ==== Sys2Proof/Laws/Cells.lean ====
section
/-!
SUPPORT. The canonical lists and the delay-line memory: a read after a write, and that every write keeps the canonical
form.
-/

namespace Sys2Proof.Machine

section Cells
variable {β : Type} {dflt : β}

theorem cellsWf_nil : CellsWf dflt ([] : List (Nat × β)) := by
  simp [CellsWf]

theorem cellsWf_tail {e : Nat × β} {l : List (Nat × β)} (h : CellsWf dflt (e :: l)) :
    CellsWf dflt l := by
  obtain ⟨hp, hd⟩ := h
  exact ⟨(List.pairwise_cons.1 hp).2, fun x hx => hd x (List.mem_cons_of_mem _ hx)⟩

theorem cellsWf_head_lt {e : Nat × β} {l : List (Nat × β)} (h : CellsWf dflt (e :: l)) :
    ∀ x ∈ l, e.1 < x.1 :=
  (List.pairwise_cons.1 h.1).1

theorem cellsGet_of_lt {l : List (Nat × β)} {k : Nat} (h : ∀ x ∈ l, k < x.1) :
    cellsGet dflt l k = dflt := by
  induction l with
  | nil => rfl
  | cons e t ih =>
    have he := h e (by simp)
    rw [cellsGet, if_neg (by omega)]
    exact ih fun x hx => h x (List.mem_cons_of_mem _ hx)

variable [DecidableEq β]

/-- Every entry after a write is an old one or the one written. -/
theorem mem_cellsSet {l : List (Nat × β)} {k : Nat} {v : β} {e : Nat × β}
    (h : e ∈ cellsSet dflt l k v) : e ∈ l ∨ (e = (k, v) ∧ v ≠ dflt) := by
  induction l with
  | nil =>
    simp only [cellsSet] at h
    split at h
    · simp at h
    · exact .inr ⟨by simpa using h, ‹_›⟩
  | cons a t ih =>
    obtain ⟨a, w⟩ := a
    simp only [cellsSet] at h
    split at h
    · split at h
      · exact .inl h
      · rcases List.mem_cons.1 h with h | h
        · exact .inr ⟨h, ‹_›⟩
        · exact .inl h
    · split at h
      · split at h
        · exact .inl (List.mem_cons_of_mem _ h)
        · rcases List.mem_cons.1 h with h | h
          · exact .inr ⟨h, ‹_›⟩
          · exact .inl (List.mem_cons_of_mem _ h)
      · rcases List.mem_cons.1 h with h | h
        · exact .inl (by simp [h])
        · rcases ih h with h | h
          · exact .inl (List.mem_cons_of_mem _ h)
          · exact .inr h

/-- A write keeps the canonical form. -/
theorem cellsSet_wf {l : List (Nat × β)} (h : CellsWf dflt l) (k : Nat) (v : β) :
    CellsWf dflt (cellsSet dflt l k v) := by
  refine ⟨?_, fun e he => ?_⟩
  · induction l with
    | nil => simp only [cellsSet]; split <;> simp
    | cons a t ih =>
      obtain ⟨a, w⟩ := a
      have hlt := cellsWf_head_lt h
      have ht := cellsWf_tail h
      simp only [cellsSet]
      split
      · split
        · exact h.1
        · refine List.pairwise_cons.2 ⟨fun x hx => ?_, h.1⟩
          rcases List.mem_cons.1 hx with hx | hx
          · simpa [hx]
          · have := hlt x hx; simp only at this ⊢; omega
      · split
        · subst_vars
          split
          · exact ht.1
          · exact List.pairwise_cons.2 ⟨hlt, ht.1⟩
        · refine List.pairwise_cons.2 ⟨fun x hx => ?_, ih ht⟩
          rcases mem_cellsSet hx with hx | hx
          · exact hlt x hx
          · simp only [hx.1]; omega
  · rcases mem_cellsSet he with he | he
    · exact h.2 e he
    · simpa [he.1] using he.2

/-- A key reads back what was written to it. -/
theorem cellsGet_set_same {l : List (Nat × β)} (h : CellsWf dflt l) (k : Nat) (v : β) :
    cellsGet dflt (cellsSet dflt l k v) k = v := by
  induction l with
  | nil => simp only [cellsSet]; split <;> simp_all [cellsGet]
  | cons a t ih =>
    obtain ⟨a, w⟩ := a
    have hlt := cellsWf_head_lt h
    simp only [cellsSet]
    split
    · split
      · subst_vars
        exact cellsGet_of_lt fun x hx => by
          rcases List.mem_cons.1 hx with hx | hx
          · simpa [hx]
          · have := hlt x hx; simp only at this; omega
      · simp [cellsGet]
    · split
      · split
        · subst_vars; exact cellsGet_of_lt hlt
        · simp [cellsGet]
      · rw [cellsGet, if_neg (by omega)]
        exact ih (cellsWf_tail h)

/-- A write leaves every other key alone, in any list. -/
theorem cellsGet_set_other (l : List (Nat × β)) {k j : Nat} (v : β) (hj : j ≠ k) :
    cellsGet dflt (cellsSet dflt l k v) j = cellsGet dflt l j := by
  induction l with
  | nil => simp only [cellsSet]; split <;> simp [cellsGet, Ne.symm hj]
  | cons a t ih =>
    obtain ⟨a, w⟩ := a
    simp only [cellsSet]
    split
    · split
      · rfl
      · simp [cellsGet, Ne.symm hj]
    · split
      · subst_vars
        split <;> simp [cellsGet, Ne.symm hj]
      · simp only [cellsGet, ih]

end Cells

/-! ### Bytes and words of the memory -/

theorem readByte_writeByte_same {m : Memory} (h : Memory.wf m) (a : Nat) (b : Byte) :
    (Memory.writeByte m a b).readByte a = b :=
  cellsGet_set_same h a b

theorem readByte_writeByte_other (m : Memory) {a x : Nat} (b : Byte) (hx : x ≠ a) :
    (Memory.writeByte m a b).readByte x = Memory.readByte m x :=
  cellsGet_set_other m b hx

theorem writeByte_wf {m : Memory} (h : Memory.wf m) (a : Nat) (b : Byte) :
    Memory.wf (Memory.writeByte m a b) :=
  cellsSet_wf h a b

theorem writeWord_wf {m : Memory} (h : Memory.wf m) (a : Nat) (w : Word) :
    Memory.wf (Memory.writeWord m a w) :=
  writeByte_wf (writeByte_wf (writeByte_wf (writeByte_wf h _ _) _ _) _ _) _ _

/-- A word write changes its four bytes and no other. -/
theorem readByte_writeWord_other (m : Memory) {a x : Nat} (w : Word) (hx : x < a ∨ a + 4 ≤ x) :
    (Memory.writeWord m a w).readByte x = Memory.readByte m x := by
  unfold Memory.writeWord
  rw [readByte_writeByte_other _ _ (by omega), readByte_writeByte_other _ _ (by omega),
    readByte_writeByte_other _ _ (by omega), readByte_writeByte_other _ _ (by omega)]

/-- A word is its four bytes, least significant last. -/
theorem word_of_its_bytes (w : Word) :
    (w.extractLsb' 24 8 ++ w.extractLsb' 16 8 ++ w.extractLsb' 8 8 ++ w.extractLsb' 0 8 : Word) =
      w := by
  apply BitVec.eq_of_getLsbD_eq
  intro i hi
  have : i < 8 ∨ (8 ≤ i ∧ i < 16) ∨ (16 ≤ i ∧ i < 24) ∨ (24 ≤ i ∧ i < 32) := by omega
  simp only [BitVec.getLsbD_append, BitVec.getLsbD_extractLsb']
  rcases this with h | h | h | h
  · simp [h]
  · have h1 : ¬ i < 8 := by omega
    have h2 : i - 8 < 8 := by omega
    have h3 : 8 + (i - 8) = i := by omega
    simp [h1, h2, h3]
  · have h1 : ¬ i < 8 := by omega
    have h2 : ¬ i - 8 < 8 := by omega
    have h3 : i - 8 - 8 < 8 := by omega
    have h4 : 16 + (i - 8 - 8) = i := by omega
    simp [h1, h2, h3, h4]
  · have h1 : ¬ i < 8 := by omega
    have h2 : ¬ i - 8 < 8 := by omega
    have h3 : ¬ i - 8 - 8 < 8 := by omega
    have h4 : i - 8 - 8 - 8 < 8 := by omega
    have h5 : 24 + (i - 8 - 8 - 8) = i := by omega
    simp [h1, h2, h3, h4, h5]

theorem readWord_writeWord_same {m : Memory} (h : Memory.wf m) (a : Nat) (w : Word) :
    (Memory.writeWord m a w).readWord a = w := by
  have h0 := writeByte_wf h a (w.extractLsb' 0 8)
  have h1 := writeByte_wf h0 (a + 1) (w.extractLsb' 8 8)
  have h2 := writeByte_wf h1 (a + 2) (w.extractLsb' 16 8)
  unfold Memory.readWord Memory.writeWord
  rw [readByte_writeByte_same h2, readByte_writeByte_other _ _ (show a + 2 ≠ a + 3 by omega),
    readByte_writeByte_same h1, readByte_writeByte_other _ _ (show a + 1 ≠ a + 3 by omega),
    readByte_writeByte_other _ _ (show a + 1 ≠ a + 2 by omega), readByte_writeByte_same h0,
    readByte_writeByte_other _ _ (show a ≠ a + 3 by omega),
    readByte_writeByte_other _ _ (show a ≠ a + 2 by omega),
    readByte_writeByte_other _ _ (show a ≠ a + 1 by omega), readByte_writeByte_same h]
  exact word_of_its_bytes w

theorem readWord_congr {m m' : Memory} {a : Nat}
    (h : ∀ x, a ≤ x → x < a + 4 → Memory.readByte m x = Memory.readByte m' x) :
    Memory.readWord m a = Memory.readWord m' a := by
  unfold Memory.readWord
  rw [h (a + 3) (by omega) (by omega), h (a + 2) (by omega) (by omega),
    h (a + 1) (by omega) (by omega), h a (by omega) (by omega)]

theorem readWord_writeWord_other (m : Memory) {a x : Nat} (w : Word) (hx : x + 4 ≤ a ∨ a + 4 ≤ x) :
    (Memory.writeWord m a w).readWord x = Memory.readWord m x :=
  readWord_congr fun y _ _ => readByte_writeWord_other m w (by omega)

theorem readByte_nil (a : Nat) : Memory.readByte [] a = 0 := rfl

theorem readWord_nil (a : Nat) : Memory.readWord [] a = 0 := by
  simp [Memory.readWord, readByte_nil]

theorem cellAddr_ne {c i c' i' : Nat} (hi : i < 4294967296) (hi' : i' < 4294967296)
    (h : c ≠ c' ∨ i ≠ i') :
    cellAddr c' i' + 4 ≤ cellAddr c i ∨ cellAddr c i + 4 ≤ cellAddr c' i' := by
  unfold cellAddr
  omega

/-- Every byte listed after a word write is an old one or one of the four written. -/
theorem mem_writeWord {m : Memory} {a : Nat} {w : Word} {e : Host.Cell}
    (h : e ∈ Memory.writeWord m a w) : e ∈ m ∨ (a ≤ e.1 ∧ e.1 < a + 4) := by
  unfold Memory.writeWord at h
  rcases mem_cellsSet h with h | h
  · rcases mem_cellsSet h with h | h
    · rcases mem_cellsSet h with h | h
      · rcases mem_cellsSet h with h | h
        · exact .inl h
        · right; simp [h.1]
      · right; simp [h.1]
    · right; simp [h.1]
  · right; simp [h.1]

/-! ### MemRead and MemWrite: everything they can do -/

theorem active_iff {s : State} {c i : Nat} :
    s.active c i = true ↔ c < s.channels.toNat ∧ i < s.capacity.toNat := by
  simp [State.active]

theorem memRead_ok {s : State} {c i : Nat} (h : s.active c i = true) :
    memRead c i s = .ok (s.mem.readWord (cellAddr c i)) := by
  simp [memRead, State.cell, h]

theorem memWrite_cases {c i : Nat} {v : Word} {s : State} {r : Except Fault State}
    (h : memWrite c i v s = r) :
    (s.active c i = true ∧ r = .ok (s.setMem (s.mem.writeWord (cellAddr c i) v))) ∨
      (s.active c i = false ∧ r = .error (.inactiveCell c i)) := by
  unfold memWrite at h
  split at h
  next ha => exact .inl ⟨ha, h.symm⟩
  next hn => exact .inr ⟨by simpa using hn, h.symm⟩

theorem memRead_cases {c i : Nat} {s : State} {r : Except Fault Word} (h : memRead c i s = r) :
    (s.active c i = true ∧ r = .ok (s.mem.readWord (cellAddr c i))) ∨
      (s.active c i = false ∧ r = .error (.inactiveCell c i)) := by
  cases ha : s.active c i with
  | true => exact .inl ⟨rfl, by rw [← h, memRead_ok ha]⟩
  | false => exact .inr ⟨rfl, by rw [← h]; simp [memRead, State.cell, ha]⟩

end Sys2Proof.Machine
end

