-- ==== Sys2Proof/Laws/Decode.lean ====
section
/-!
SUPPORT. What the header's fields, the decoder and the fetch can do (spec/30_encoding.md R56, R57, R66, R70).
-/

namespace Sys2Proof

/-- R56: the fields of a header word are those it was built from. -/
theorem headerOf_headerWord (op r : Byte) (imm : Half) : headerOf (headerWord op r imm) = ⟨op, r, imm⟩ := by
  unfold headerOf headerWord
  congr 1
  · apply BitVec.eq_of_getLsbD_eq; intro i hi
    simp only [BitVec.getLsbD_extractLsb', BitVec.getLsbD_append]
    have h1 : ¬ (24 + i) < 16 := by omega
    have h2 : ¬ (24 + i - 16) < 8 := by omega
    have h3 : 24 + i - 16 - 8 = i := by omega
    simp [h1, h2, h3, hi]
  · apply BitVec.eq_of_getLsbD_eq; intro i hi
    simp only [BitVec.getLsbD_extractLsb', BitVec.getLsbD_append]
    simp [hi]
  · apply BitVec.eq_of_getLsbD_eq; intro i hi
    simp only [BitVec.getLsbD_extractLsb', BitVec.getLsbD_append]
    simp [hi]

/-- R56: a header word is built from its fields. -/
theorem headerWord_headerOf (h : Word) : headerWord (headerOf h).op (headerOf h).r (headerOf h).imm = h := by
  unfold headerOf headerWord
  apply BitVec.eq_of_getLsbD_eq; intro i hi
  simp only [BitVec.getLsbD_extractLsb', BitVec.getLsbD_append]
  by_cases h1 : i < 16
  · simp [h1]
  · by_cases h2 : i - 16 < 8
    · have h3 : 16 + (i - 16) = i := by omega
      simp [h1, h2, h3]
    · have h3 : 24 + (i - 16 - 8) = i := by omega
      have h4 : i - 16 - 8 < 8 := by omega
      simp [h1, h2, h3, h4]

/-- R57: the legal opcodes. -/
theorem legalOp_cases {op : Byte} (h : illegalOp op = false) :
    op = 0x01 ∨ op = 0x02 ∨ op = 0x03 ∨ op = 0x04 ∨ op = 0x05 ∨ op = 0x06 ∨ op = 0x07 := by
  revert op; decide

theorem illegalOp_iff {op : Byte} : illegalOp op = true ↔ op.toNat = 0 ∨ 8 ≤ op.toNat := by
  unfold illegalOp; rw [Bool.or_eq_true, beq_iff_eq, decide_eq_true_eq]

theorem opsCount_configure (r : Byte) (imm : Half) : opsCount ⟨0x01, r, imm⟩ = 2 := rfl
theorem opsCount_release (r : Byte) (imm : Half) : opsCount ⟨0x02, r, imm⟩ = 0 := rfl
theorem opsCount_writeReg (r : Byte) (imm : Half) : opsCount ⟨0x03, r, imm⟩ = 1 := rfl
theorem opsCount_readReg (r : Byte) (imm : Half) : opsCount ⟨0x04, r, imm⟩ = 0 := rfl
theorem opsCount_processFrame (r : Byte) (imm : Half) : opsCount ⟨0x05, r, imm⟩ = imm.toNat := rfl
theorem opsCount_processBlock (r : Byte) (imm : Half) : opsCount ⟨0x06, r, imm⟩ = imm.toNat * r.toNat := rfl
theorem opsCount_readDl (r : Byte) (imm : Half) : opsCount ⟨0x07, r, imm⟩ = 1 := rfl

theorem buildInstr_processFrame (r : Byte) (imm : Half) (xs : List Word) :
    buildInstr ⟨0x05, r, imm⟩ xs = some (.processFrame r xs) := by unfold buildInstr; rfl
theorem buildInstr_processBlock (r : Byte) (imm : Half) (xs : List Word) :
    buildInstr ⟨0x06, r, imm⟩ xs = some (.processBlock r imm xs) := by unfold buildInstr; rfl

/-- R55: what the decoder does with a header. -/
theorem decode_cons (h : Word) (rest : List Word) : decode (h :: rest) =
    if illegalOp (headerOf h).op then .error (.illegalOpcode (headerOf h).op)
    else if rest.length < opsCount (headerOf h) then
      .error (.incomplete (opsCount (headerOf h) - rest.length))
    else
      match buildInstr (headerOf h) (rest.take (opsCount (headerOf h))) with
      | some i => .ok (i, rest.drop (opsCount (headerOf h)))
      | none => .error (.illegalOpcode (headerOf h).op) := by
  unfold decode; rfl

/-- All the decoder can answer on a header with words after it. -/
theorem decode_cons_cases {h : Word} {rest : List Word} {d : Except DecodeError (Instr × List Word)}
    (e : decode (h :: rest) = d) :
    (illegalOp (headerOf h).op = true ∧ d = .error (.illegalOpcode (headerOf h).op)) ∨
    (illegalOp (headerOf h).op = false ∧ rest.length < opsCount (headerOf h) ∧
      d = .error (.incomplete (opsCount (headerOf h) - rest.length))) ∨
    (illegalOp (headerOf h).op = false ∧ opsCount (headerOf h) ≤ rest.length ∧
      ∃ i, buildInstr (headerOf h) (rest.take (opsCount (headerOf h))) = some i ∧
        d = .ok (i, rest.drop (opsCount (headerOf h)))) := by
  subst e
  cases hop : illegalOp (headerOf h).op with
  | true => exact .inl ⟨rfl, by rw [decode_cons, if_pos hop]⟩
  | false =>
    by_cases hl : rest.length < opsCount (headerOf h)
    · refine .inr (.inl ⟨rfl, hl, ?_⟩)
      rw [decode_cons, if_neg (by rw [hop]; exact Bool.false_ne_true), if_pos hl]
    · refine .inr (.inr ⟨rfl, by omega, ?_⟩)
      have ht : (rest.take (opsCount (headerOf h))).length = opsCount (headerOf h) := by
        rw [List.length_take]; omega
      have hb : ∃ i, buildInstr (headerOf h) (rest.take (opsCount (headerOf h))) = some i := by
        generalize rest.take (opsCount (headerOf h)) = args at ht ⊢
        rcases e : headerOf h with ⟨op, r, imm⟩
        rw [e] at hop ht
        rcases legalOp_cases hop with rfl | rfl | rfl | rfl | rfl | rfl | rfl
        · obtain ⟨a, b, rfl⟩ := List.length_eq_two.1 ht; exact ⟨_, rfl⟩
        · obtain rfl := List.length_eq_zero_iff.1 ht; exact ⟨_, rfl⟩
        · obtain ⟨a, rfl⟩ := List.length_eq_one_iff.1 ht; exact ⟨_, rfl⟩
        · obtain rfl := List.length_eq_zero_iff.1 ht; exact ⟨_, rfl⟩
        · exact ⟨_, buildInstr_processFrame _ _ _⟩
        · exact ⟨_, buildInstr_processBlock _ _ _⟩
        · obtain ⟨a, rfl⟩ := List.length_eq_one_iff.1 ht; exact ⟨_, rfl⟩
      obtain ⟨i, hi⟩ := hb
      refine ⟨i, hi, ?_⟩
      rw [decode_cons, if_neg (by rw [hop]; exact Bool.false_ne_true), if_neg hl, hi]

namespace Machine

/-- All a step can do: run the command at the head of the port, or what the block does without one. -/
theorem step_cases {s : State} {o : Host.Outcome State Fault Refusal} (h : step s = o) :
    (∃ i rest, decode s.cmdIn = .ok (i, rest) ∧ o = exec i (s.takeResponses.setInput rest)) ∨
    (∃ e, decode s.cmdIn = .error e ∧ o = .next (noCommand e s.takeResponses)) := by
  subst h
  unfold step fetch
  rw [State.takeResponses_cmdIn]
  cases decode s.cmdIn with
  | ok p => exact .inl ⟨p.1, p.2, rfl, rfl⟩
  | error e => exact .inr ⟨e, rfl, rfl⟩

end Machine

end Sys2Proof
end

