-- ==== Sys2Proof/Laws/Round.lean ====
section
/-!
SUPPORT. Rounding (spec/00_scope.md R12): it is monotone, it leaves a representable value alone, and so a bound by a
representable value survives it. Everything the range rules need of the arithmetic rests on these three.
-/

namespace Sys2Proof.Machine

/-! ### The units of a magnitude -/

theorem unitsOf_small {m : Nat} (h : m < 16777216) : unitsOf m = m := by
  unfold unitsOf
  split
  · rfl
  · have h1 : m / 8388608 = 1 := by omega
    have h2 : m % 8388608 = m - 8388608 := by omega
    rw [h1, h2]; simp; omega

/-- A magnitude at or above `2^23` is a significand and the exponent of its unit. -/
theorem unitsOf_normal {m : Nat} (h : 8388608 ≤ m) :
    ∃ k sig, unitsOf m = sig * 2 ^ k ∧ 8388608 ≤ sig ∧ sig < 16777216 ∧ m = k * 8388608 + sig := by
  refine ⟨m / 8388608 - 1, 8388608 + m % 8388608, ?_, by omega, by omega, by omega⟩
  unfold unitsOf; rw [if_neg (by omega)]

theorem unitsOf_strictMono {m m' : Nat} (h : m < m') : unitsOf m < unitsOf m' := by
  by_cases hm' : m' < 16777216
  · rw [unitsOf_small hm', unitsOf_small (by omega)]; exact h
  obtain ⟨k', s', hu', hs1', hs2', he'⟩ := unitsOf_normal (m := m') (by omega)
  by_cases hm : m < 8388608
  · rw [unitsOf_small (by omega), hu']
    calc m < 8388608 := hm
      _ ≤ s' := hs1'
      _ ≤ s' * 2 ^ k' := Nat.le_mul_of_pos_right _ (by positivity)
  obtain ⟨k, s, hu, hs1, hs2, he⟩ := unitsOf_normal (m := m) (by omega)
  rw [hu, hu']
  by_cases hk : k = k'
  · subst hk
    exact Nat.mul_lt_mul_of_pos_right (by omega) (by positivity)
  · have hlt : k + 1 ≤ k' := by omega
    calc s * 2 ^ k < 16777216 * 2 ^ k := Nat.mul_lt_mul_of_pos_right hs2 (by positivity)
      _ = 8388608 * 2 ^ (k + 1) := by rw [pow_succ]; ring
      _ ≤ s' * 2 ^ k' := Nat.mul_le_mul hs1' (Nat.pow_le_pow_right (by norm_num) hlt)

theorem unitsOf_mono {m m' : Nat} (h : m ≤ m') : unitsOf m ≤ unitsOf m' := by
  rcases Nat.lt_or_eq_of_le h with h | h
  · exact (unitsOf_strictMono h).le
  · rw [h]

theorem unitsOf_lt_iff {m m' : Nat} : unitsOf m < unitsOf m' ↔ m < m' :=
  ⟨fun h => by by_contra hc; have := unitsOf_mono (Nat.not_lt.1 hc); omega, unitsOf_strictMono⟩

/-! ### Rounding to a whole number -/

theorem rneDiv_bounds (n d : Nat) : n / d ≤ rneDiv n d ∧ rneDiv n d ≤ n / d + 1 := by
  unfold rneDiv; split <;> omega

theorem rneDiv_mul {k d : Nat} (hd : 0 < d) : rneDiv (k * d) d = k := by
  unfold rneDiv
  have h1 : k * d % d = 0 := Nat.mul_mod_left k d
  have h2 : k * d / d = k := Nat.mul_div_cancel k hd
  rw [h1, h2, if_neg (by omega)]

theorem div_le_div_of_cross {n d n' d' : Nat} (hd : 0 < d) (hd' : 0 < d') (h : n * d' ≤ n' * d) :
    n / d ≤ n' / d' := by
  rw [Nat.le_div_iff_mul_le hd']
  have h1 : n / d * d ≤ n := Nat.div_mul_le_self n d
  have h2 : n / d * d' * d ≤ n' * d := by
    calc n / d * d' * d = n / d * d * d' := by ring
      _ ≤ n * d' := Nat.mul_le_mul_right _ h1
      _ ≤ n' * d := h
  exact Nat.le_of_mul_le_mul_right h2 hd

theorem rneDiv_mono {n d n' d' : Nat} (hd : 0 < d) (hd' : 0 < d') (h : n * d' ≤ n' * d) :
    rneDiv n d ≤ rneDiv n' d' := by
  have hf := div_le_div_of_cross hd hd' h
  have hb := rneDiv_bounds n d
  have hb' := rneDiv_bounds n' d'
  rcases Nat.lt_or_eq_of_le hf with hlt | heq
  · omega
  -- the same whole part: the fractions are ordered, and the ties are one decision
  have e1 := Nat.div_add_mod n d
  have e2 := Nat.div_add_mod n' d'
  have hr : n % d * d' ≤ n' % d' * d := by
    have h1 : (d * (n / d) + n % d) * d' ≤ (d' * (n' / d') + n' % d') * d := by
      rw [e1, e2]; exact h
    rw [← heq] at h1
    nlinarith
  unfold rneDiv
  rw [← heq]
  by_cases hup : d < 2 * (n % d) ∨ (2 * (n % d) = d ∧ n / d % 2 = 1)
  · have hup' : d' < 2 * (n' % d') ∨ (2 * (n' % d') = d' ∧ n / d % 2 = 1) := by
      rcases hup with hup | ⟨hup, hodd⟩
      · left
        by_contra hc
        have : 2 * (n % d) * d' ≤ d' * d := by nlinarith
        have : d * d' < 2 * (n % d) * d' := Nat.mul_lt_mul_of_pos_right hup hd'
        nlinarith
      · by_cases hc : d' < 2 * (n' % d')
        · exact .inl hc
        · refine .inr ⟨?_, hodd⟩
          have h1 : d * d' ≤ 2 * (n' % d') * d := by nlinarith
          have h2 : d' ≤ 2 * (n' % d') := Nat.le_of_mul_le_mul_right (by nlinarith) hd
          omega
    rw [if_pos hup, if_pos hup']
  · rw [if_neg hup]; split <;> omega

/-! ### Rounding to binary32 -/

theorem dropBits_pos {n d : Nat} (h : 0 < dropBits 24 n d) :
    2 ^ (23 + dropBits 24 n d) ≤ n / d ∧ n / d < 2 ^ (24 + dropBits 24 n d) := by
  unfold dropBits at *
  have hq : n / d ≠ 0 := by
    intro h0; rw [h0] at h; simp at h
  have h1 := Nat.log2_self_le hq
  have h2 := Nat.lt_log2_self (n := n / d)
  constructor
  · rwa [show 23 + (Nat.log2 (n / d) + 1 - 24) = Nat.log2 (n / d) by omega]
  · rwa [show 24 + (Nat.log2 (n / d) + 1 - 24) = Nat.log2 (n / d) + 1 by omega]

theorem dropBits_zero {n d : Nat} (h : dropBits 24 n d = 0) : n / d < 16777216 := by
  unfold dropBits at h
  have h2 := Nat.lt_log2_self (n := n / d)
  have : 2 ^ (Nat.log2 (n / d) + 1) ≤ 2 ^ 24 := Nat.pow_le_pow_right (by norm_num) (by omega)
  omega

theorem dropBits_eq {n d k : Nat} (h1 : 2 ^ (23 + k) ≤ n / d) (h2 : n / d < 2 ^ (24 + k)) :
    dropBits 24 n d = k := by
  have hq : n / d ≠ 0 := by have : 0 < 2 ^ (23 + k) := by positivity
                            omega
  have : Nat.log2 (n / d) = 23 + k := by
    rw [Nat.log2_eq_iff hq]
    exact ⟨h1, by rwa [show 23 + k + 1 = 24 + k by omega]⟩
  unfold dropBits; omega

theorem dropBits_mono {n d n' d' : Nat} (h : n / d ≤ n' / d') : dropBits 24 n d ≤ dropBits 24 n' d' := by
  unfold dropBits
  have : Nat.log2 (n / d) ≤ Nat.log2 (n' / d') := by
    rw [Nat.log2_eq_log_two, Nat.log2_eq_log_two]; exact Nat.log_mono_right h
  omega

/-- The significand before a carry: below `2^24`, and at least `2^23` unless the unit is the least. -/
theorem scaled_div_bounds {n d : Nat} :
    n / (d * 2 ^ dropBits 24 n d) < 16777216 ∧
      (0 < dropBits 24 n d → 8388608 ≤ n / (d * 2 ^ dropBits 24 n d)) := by
  rw [← Nat.div_div_eq_div_mul]
  by_cases h : dropBits 24 n d = 0
  · have := dropBits_zero h
    rw [h]; simp only [pow_zero, Nat.div_one]; omega
  · obtain ⟨h1, h2⟩ := dropBits_pos (Nat.pos_of_ne_zero h)
    refine ⟨?_, fun _ => ?_⟩
    · apply Nat.div_lt_of_lt_mul
      rw [pow_add] at h2
      calc n / d < 2 ^ 24 * 2 ^ dropBits 24 n d := h2
        _ = 2 ^ dropBits 24 n d * 16777216 := by norm_num; ring
    · rw [Nat.le_div_iff_mul_le (by positivity)]
      rw [pow_add] at h1
      calc 8388608 * 2 ^ dropBits 24 n d = 2 ^ 23 * 2 ^ dropBits 24 n d := by norm_num
        _ ≤ n / d := h1

theorem round32_eq (n d : Nat) :
    round32 n d = min (dropBits 24 n d * 8388608 + rneDiv n (d * 2 ^ dropBits 24 n d)) infMag := rfl

theorem round32_le_infMag (n d : Nat) : round32 n d ≤ infMag := by
  rw [round32_eq]; exact Nat.min_le_right _ _

/-- Rounding is monotone in the quotient it rounds. -/
theorem round32_mono {n d n' d' : Nat} (hd : 0 < d) (hd' : 0 < d') (h : n * d' ≤ n' * d) :
    round32 n d ≤ round32 n' d' := by
  have hq := div_le_div_of_cross hd hd' h
  have hk := dropBits_mono hq
  rw [round32_eq, round32_eq]
  refine min_le_min_right _ ?_
  rcases Nat.lt_or_eq_of_le hk with hlt | heq
  · have b := scaled_div_bounds (n := n) (d := d)
    have b' := scaled_div_bounds (n := n') (d := d')
    have r := rneDiv_bounds n (d * 2 ^ dropBits 24 n d)
    have r' := rneDiv_bounds n' (d' * 2 ^ dropBits 24 n' d')
    have := b'.2 (by omega)
    omega
  · rw [heq]
    refine Nat.add_le_add_left (rneDiv_mono (by positivity) (by positivity) ?_) _
    calc n * (d' * 2 ^ dropBits 24 n' d') = n * d' * 2 ^ dropBits 24 n' d' := by ring
      _ ≤ n' * d * 2 ^ dropBits 24 n' d' := Nat.mul_le_mul_right _ h
      _ = n' * (d * 2 ^ dropBits 24 n' d') := by ring

/-- Rounding leaves a representable value, and infinity's own magnitude, alone. -/
theorem round32_exact {m d : Nat} (hd : 0 < d) (hm : m ≤ infMag) : round32 (unitsOf m * d) d = m := by
  have hq : unitsOf m * d / d = unitsOf m := Nat.mul_div_cancel _ hd
  rw [round32_eq]
  by_cases hs : m < 16777216
  · have hk : dropBits 24 (unitsOf m * d) d = 0 := by
      unfold dropBits; rw [hq, unitsOf_small hs]
      by_cases h0 : m = 0
      · subst h0; rfl
      · have : Nat.log2 m < 24 := (Nat.log2_lt h0).2 (by norm_num; omega)
        omega
    rw [hk, pow_zero, mul_one, rneDiv_mul hd, unitsOf_small hs]; omega
  · obtain ⟨k, s, hu, h1, h2, he⟩ := unitsOf_normal (m := m) (by omega)
    have hk : dropBits 24 (unitsOf m * d) d = k := by
      apply dropBits_eq
      · rw [hq, hu, pow_add]; exact Nat.mul_le_mul_right _ (by norm_num; omega)
      · rw [hq, hu, pow_add]; exact Nat.mul_lt_mul_of_pos_right (by norm_num; omega) (by positivity)
    rw [hk, hu, show s * 2 ^ k * d = s * (d * 2 ^ k) by ring, rneDiv_mul (by positivity)]; omega

/-- A representable upper bound survives rounding. -/
theorem round32_le {n d m : Nat} (hd : 0 < d) (hm : m ≤ infMag) (h : n ≤ unitsOf m * d) :
    round32 n d ≤ m := by
  rw [← round32_exact hd hm]
  exact round32_mono hd hd (Nat.mul_le_mul_right _ h)

/-- A representable lower bound survives rounding. -/
theorem le_round32 {n d m : Nat} (hd : 0 < d) (hm : m ≤ infMag) (h : unitsOf m * d ≤ n) :
    m ≤ round32 n d := by
  rw [← round32_exact hd hm]
  exact round32_mono hd hd (Nat.mul_le_mul_right _ h)

/-! ### What one rounding can do -/

/-- The value of a significand of 24 bits (or of `2^24`, its carry) under an exponent. -/
theorem unitsOf_scaled {k m : Nat} (h : k = 0 ∨ 8388608 ≤ m) (hm : m ≤ 16777216) :
    unitsOf (k * 8388608 + m) = m * 2 ^ k := by
  rcases Nat.lt_or_eq_of_le hm with hm | rfl
  · rcases Nat.lt_or_ge m 8388608 with hs | hs
    · have : k = 0 := by omega
      subst this
      rw [unitsOf_small (by omega)]; omega
    · unfold unitsOf
      rw [if_neg (by omega), show (k * 8388608 + m) / 8388608 - 1 = k by omega,
        show 8388608 + (k * 8388608 + m) % 8388608 = m by omega]
  · unfold unitsOf
    rw [if_neg (by omega), show (k * 8388608 + 16777216) / 8388608 - 1 = k + 1 by omega,
      show 8388608 + (k * 8388608 + 16777216) % 8388608 = 8388608 by omega, pow_succ]
    ring

/-- R12: everything one rounding can do, before an overflow is cut off. The quotient lies between the values of two neighbouring
magnitudes; the nearer one is taken, and the even one of them on a tie. -/
theorem round32_bracket (n : Nat) {d : Nat} (hd : 0 < d) :
    ∃ a r, round32 n d = min r infMag ∧ d * unitsOf a ≤ n ∧ n < d * unitsOf (a + 1) ∧
      ((r = a ∧ (2 * n < d * unitsOf a + d * unitsOf (a + 1) ∨
          (2 * n = d * unitsOf a + d * unitsOf (a + 1) ∧ a % 2 = 0))) ∨
        (r = a + 1 ∧ (d * unitsOf a + d * unitsOf (a + 1) < 2 * n ∨
          (2 * n = d * unitsOf a + d * unitsOf (a + 1) ∧ a % 2 = 1)))) := by
  obtain ⟨h1, h2⟩ := scaled_div_bounds (n := n) (d := d)
  rw [round32_eq]
  generalize dropBits 24 n d = k at h1 h2
  have hk : k = 0 ∨ 8388608 ≤ n / (d * 2 ^ k) := by omega
  have hD : 0 < d * 2 ^ k := by positivity
  have hdm := Nat.div_add_mod n (d * 2 ^ k)
  have hml := Nat.mod_lt n hD
  refine ⟨k * 8388608 + n / (d * 2 ^ k), k * 8388608 + rneDiv n (d * 2 ^ k), rfl, ?_⟩
  rw [unitsOf_scaled hk (by omega), add_assoc, unitsOf_scaled (by omega) (by omega)]
  unfold rneDiv
  generalize n / (d * 2 ^ k) = q at *
  generalize n % (d * 2 ^ k) = r at *
  rw [show d * (q * 2 ^ k) = d * 2 ^ k * q by ring,
    show d * ((q + 1) * 2 ^ k) = d * 2 ^ k * q + d * 2 ^ k by ring]
  generalize d * 2 ^ k = D at *
  generalize D * q = P at *
  refine ⟨by omega, by omega, ?_⟩
  split
  · right; refine ⟨by omega, ?_⟩; omega
  · left; refine ⟨by omega, ?_⟩; omega

end Sys2Proof.Machine
end

