-- ==== Sys2Proof/Laws/Float.lean ====
section
/-!
SUPPORT. The arithmetic on ordered keys (spec/00_scope.md R12 to R14). A binary32 value that is no NaN has a key, a whole
number ordered as the value (`ordKey`); a finite one stands for `keyUnits` of its key, in units of `2^-149`. Each
operation on finite operands is `roundKey` of the exact result, which is monotone and leaves keys alone.
-/

namespace Sys2Proof.Machine

/-- The encoding of a finite value. -/
abbrev FiniteF32 (b : F32) : Prop := magBits b < infMag

/-- The value a key stands for, in units of `2^-149`. -/
def keyUnits (k : Int) : Int := if k < 0 then -(unitsOf (-k).toNat : Int) else (unitsOf k.toNat : Int)

/-- The key of the quotient `z / d` (in units of `2^-149`), rounded once. -/
def roundKey (z : Int) (d : Nat) : Int :=
  if z < 0 then -(round32 (-z).toNat d : Int) else (round32 z.toNat d : Int)

/-! ### Encodings -/

theorem magBits_lt (b : F32) : magBits b < 2147483648 := Nat.mod_lt _ (by norm_num)

theorem toNat_eq (b : F32) : b.toNat = magBits b + if signBit b then 2147483648 else 0 := by
  have h := b.isLt
  unfold magBits signBit
  split
  next h1 => simp only [decide_eq_true_eq] at h1; omega
  next h1 => simp only [decide_eq_true_eq] at h1; omega

theorem toNat_packF32 {s : Bool} {m : Nat} (h : m < 2147483648) :
    (packF32 s m).toNat = m + if s then 2147483648 else 0 := by
  unfold packF32
  rw [BitVec.toNat_ofNat]
  apply Nat.mod_eq_of_lt
  cases s <;> simp <;> omega

theorem magBits_packF32 {s : Bool} {m : Nat} (h : m < 2147483648) : magBits (packF32 s m) = m := by
  unfold magBits
  rw [toNat_packF32 h]
  cases s <;> simp <;> omega

theorem signBit_packF32 {s : Bool} {m : Nat} (h : m < 2147483648) : signBit (packF32 s m) = s := by
  unfold signBit
  rw [toNat_packF32 h]
  cases s <;> simp <;> omega

theorem packF32_self (b : F32) : packF32 (signBit b) (magBits b) = b := by
  apply BitVec.eq_of_toNat_eq
  rw [toNat_packF32 (magBits_lt b), ← toNat_eq]

theorem ordKey_packF32 {s : Bool} {m : Nat} (h : m < 2147483648) :
    ordKey (packF32 s m) = if s then -(m : Int) else (m : Int) := by
  unfold ordKey; rw [magBits_packF32 h, signBit_packF32 h]

theorem infMag_eq : infMag = 2139095040 := rfl

theorem fpOf_fin {b : F32} (h : FiniteF32 b) : fpOf b = .fin (signBit b) (unitsOf (magBits b)) := by
  unfold fpOf; rw [if_pos h]

theorem fpOf_eq_fin_iff {b : F32} {s : Bool} {u : Nat} :
    fpOf b = .fin s u ↔ FiniteF32 b ∧ signBit b = s ∧ unitsOf (magBits b) = u := by
  unfold fpOf
  split
  · next h => simp [h]
  · next h => split <;> simp [h]

theorem isNaN_of_finite {b : F32} (h : FiniteF32 b) : isNaN b = false := by
  unfold isNaN FiniteF32 at *; simp; omega

theorem isNaN_packF32 {s : Bool} {m : Nat} (h : m ≤ infMag) : isNaN (packF32 s m) = false := by
  have := infMag_eq
  unfold isNaN; rw [magBits_packF32 (by omega)]; simp; omega

theorem asNaN_isNaN (b : F32) : isNaN (asNaN b) = true := by
  unfold asNaN; split
  · assumption
  · decide

/-- U2: whatever the free value is, it is a NaN. -/
theorem freeNaN_isNaN (n : Nat) : isNaN (freeNaN n) = true := asNaN_isNaN _

theorem keyUnits_ordKey (b : F32) :
    keyUnits (ordKey b) = if signBit b then -(unitsOf (magBits b) : Int) else unitsOf (magBits b) := by
  unfold keyUnits ordKey
  cases signBit b
  · simp
  · by_cases h : magBits b = 0
    · simp [h, unitsOf]
    · rw [if_pos (by simp; omega)]; simp

theorem finite_iff_key {b : F32} : FiniteF32 b ↔ -(infMag : Int) < ordKey b ∧ ordKey b < infMag := by
  unfold FiniteF32 ordKey; cases signBit b <;> simp <;> omega

theorem finite_of_bounds {b : F32} {lo hi : Int} (h1 : lo ≤ ordKey b) (h2 : ordKey b ≤ hi)
    (h3 : -(infMag : Int) < lo) (h4 : hi < infMag) : FiniteF32 b :=
  finite_iff_key.2 ⟨by omega, by omega⟩

/-! ### Signs -/

theorem neg32_toNat (b : F32) : (neg32 b).toNat = magBits b + if signBit b then 0 else 2147483648 := by
  have key : ∀ m : Nat, m < 2147483648 → m ^^^ 2147483648 = m + 2147483648 := by
    intro m hm
    have := Nat.two_pow_add_eq_or_of_lt (i := 31) (b := m) hm 1
    rw [Nat.xor_comm]
    apply Nat.eq_of_testBit_eq
    intro i
    have e : m + 2147483648 = 2 ^ 31 * 1 + m := by omega
    rw [e, this, Nat.testBit_xor, Nat.testBit_or]
    rw [show (2147483648 : Nat) = 2 ^ 31 by norm_num, show 2 ^ 31 * 1 = 2 ^ 31 by norm_num]
    by_cases hi : i = 31
    · subst hi
      rw [Nat.testBit_lt_two_pow (x := m) (i := 31) (by omega)]; simp
    · rw [Nat.testBit_two_pow_of_ne (by omega)]; simp
  unfold neg32
  rw [BitVec.toNat_xor, toNat_eq b]
  have hm := magBits_lt b
  cases signBit b
  · simpa using key _ hm
  · have h := key _ hm
    simp only [if_true]
    rw [← h, show (2147483648#32).toNat = 2147483648 by rfl, Nat.xor_assoc]; simp

theorem magBits_neg32 (b : F32) : magBits (neg32 b) = magBits b := by
  have hm := magBits_lt b
  rw [magBits, neg32_toNat]
  cases signBit b <;> simp <;> omega

theorem signBit_neg32 (b : F32) : signBit (neg32 b) = !signBit b := by
  have hm := magBits_lt b
  rw [signBit, neg32_toNat]
  cases signBit b <;> simp <;> omega

theorem ordKey_neg32 (b : F32) : ordKey (neg32 b) = -ordKey b := by
  unfold ordKey; rw [magBits_neg32, signBit_neg32]; cases signBit b <;> simp

theorem neg32_finite {b : F32} : FiniteF32 (neg32 b) ↔ FiniteF32 b := by
  unfold FiniteF32; rw [magBits_neg32]

theorem abs32_toNat (b : F32) : (abs32 b).toNat = magBits b := by
  unfold abs32 magBits
  rw [BitVec.toNat_and]
  exact Nat.and_two_pow_sub_one_eq_mod b.toNat 31

theorem magBits_abs32 (b : F32) : magBits (abs32 b) = magBits b := by
  have hm := magBits_lt b
  rw [magBits, abs32_toNat]; omega

theorem ordKey_abs32 (b : F32) : ordKey (abs32 b) = magBits b := by
  have hm := magBits_lt b
  unfold ordKey signBit
  rw [magBits_abs32, abs32_toNat, decide_eq_false (by omega)]; rfl

theorem isNaN_abs32 (b : F32) : isNaN (abs32 b) = isNaN b := by
  unfold isNaN; rw [magBits_abs32]

/-! ### Comparisons -/

theorem lt32_iff {a b : F32} : lt32 a b = true ↔ isNaN a = false ∧ isNaN b = false ∧ ordKey a < ordKey b := by
  unfold lt32; simp [and_assoc]

theorem le32_iff {a b : F32} : le32 a b = true ↔ isNaN a = false ∧ isNaN b = false ∧ ordKey a ≤ ordKey b := by
  unfold le32; simp [and_assoc]

/-! ### Keys and the values they stand for -/

theorem keyUnits_strictMono {k k' : Int} (h : k < k') : keyUnits k < keyUnits k' := by
  have u0 : unitsOf 0 = 0 := by simp [unitsOf]
  unfold keyUnits
  split <;> split
  · have := unitsOf_strictMono (m := (-k').toNat) (m' := (-k).toNat) (by omega); omega
  · have := unitsOf_strictMono (m := 0) (m' := (-k).toNat) (by omega); omega
  · omega
  · have := unitsOf_strictMono (m := k.toNat) (m' := k'.toNat) (by omega); omega

theorem keyUnits_mono {k k' : Int} (h : k ≤ k') : keyUnits k ≤ keyUnits k' := by
  rcases lt_or_eq_of_le h with h | h
  · exact (keyUnits_strictMono h).le
  · rw [h]

theorem keyUnits_neg (k : Int) : keyUnits (-k) = -keyUnits k := by
  unfold keyUnits
  rcases lt_trichotomy k 0 with h | h | h
  · rw [if_neg (by omega), if_pos h]; simp
  · subst h; simp [unitsOf]
  · rw [if_pos (by omega), if_neg (by omega)]; simp

theorem keyUnits_nonneg {k : Int} (h : 0 ≤ k) : 0 ≤ keyUnits k := by
  unfold keyUnits; rw [if_neg (by omega)]; omega

theorem keyUnits_zero : keyUnits 0 = 0 := by simp [keyUnits, unitsOf]

theorem keyUnits_ofNat (k : Nat) : keyUnits (k : Int) = unitsOf k := by
  unfold keyUnits; rw [if_neg (by omega)]; simp

/-! ### Rounding on keys -/

theorem roundKey_congr {z z' : Int} {d : Nat} (h : z = z') : roundKey z d = roundKey z' d := by rw [h]

theorem roundKey_neg (z : Int) (d : Nat) : roundKey (-z) d = -roundKey z d := by
  unfold roundKey
  rcases lt_trichotomy z 0 with h | h | h
  · rw [if_neg (by omega), if_pos h]; simp
  · subst h
    have : round32 0 d = 0 := by rw [round32_eq]; simp [dropBits, rneDiv]
    simp [this]
  · rw [if_pos (by omega), if_neg (by omega)]; simp

theorem roundKey_bounds (z : Int) (d : Nat) : -(infMag : Int) ≤ roundKey z d ∧ roundKey z d ≤ infMag := by
  have h1 := round32_le_infMag (-z).toNat d
  have h2 := round32_le_infMag z.toNat d
  unfold roundKey; split <;> omega

theorem roundKey_nonneg {z : Int} (d : Nat) (h : 0 ≤ z) : 0 ≤ roundKey z d := by
  unfold roundKey; rw [if_neg (by omega)]; omega

theorem roundKey_nonpos {z : Int} (d : Nat) (h : z ≤ 0) : roundKey z d ≤ 0 := by
  have := roundKey_nonneg d (z := -z) (by omega)
  rw [roundKey_neg] at this; omega

/-- Rounding is monotone. -/
theorem roundKey_mono {z z' : Int} {d d' : Nat} (hd : 0 < d) (hd' : 0 < d') (h : z * d' ≤ z' * d) :
    roundKey z d ≤ roundKey z' d' := by
  have hdz : (0 : Int) < d := by exact_mod_cast hd
  have hdz' : (0 : Int) < d' := by exact_mod_cast hd'
  rcases lt_or_ge z 0 with hz | hz
  · rcases lt_or_ge z' 0 with hz' | hz'
    · unfold roundKey
      rw [if_pos hz, if_pos hz']
      have := round32_mono (n := (-z').toNat) (n' := (-z).toNat) hd' hd (by
        zify
        rw [Int.toNat_of_nonneg (by omega), Int.toNat_of_nonneg (by omega)]; linarith)
      omega
    · have h1 := roundKey_nonpos d (z := z) (by omega)
      have h2 := roundKey_nonneg d' hz'
      omega
  · have hz' : 0 ≤ z' := by
      by_contra hc
      have : z' * d < 0 := by nlinarith
      have : 0 ≤ z * d' := by positivity
      omega
    unfold roundKey
    rw [if_neg (by omega), if_neg (by omega)]
    have := round32_mono (n := z.toNat) (n' := z'.toNat) hd hd' (by
      zify
      rw [Int.toNat_of_nonneg hz, Int.toNat_of_nonneg hz']; exact h)
    omega

/-- Rounding leaves a key alone. -/
theorem roundKey_exact {k : Int} {d : Nat} (hd : 0 < d) (h1 : -(infMag : Int) ≤ k) (h2 : k ≤ infMag) :
    roundKey (keyUnits k * d) d = k := by
  have pos : ∀ k : Nat, k ≤ infMag → roundKey (keyUnits (k : Int) * d) d = k := by
    intro k hk
    unfold roundKey
    rw [keyUnits_ofNat, if_neg (not_lt.2 (by positivity))]
    have : ((unitsOf k : Int) * (d : Int)).toNat = unitsOf k * d := by
      rw [← Int.natCast_mul]; exact Int.toNat_natCast _
    rw [this, round32_exact hd hk]
  rcases lt_or_ge k 0 with h | h
  · obtain ⟨m, rfl⟩ : ∃ m : Nat, k = -(m : Int) := ⟨(-k).toNat, by omega⟩
    rw [keyUnits_neg, neg_mul, roundKey_neg, pos m (by omega)]
  · obtain ⟨m, rfl⟩ := Int.eq_ofNat_of_zero_le h
    exact pos m (by omega)

/-- An upper bound that is a key survives rounding. -/
theorem roundKey_le {z k : Int} {d : Nat} (hd : 0 < d) (h1 : -(infMag : Int) ≤ k) (h2 : k ≤ infMag)
    (h : z ≤ keyUnits k * d) : roundKey z d ≤ k := by
  rw [← roundKey_exact hd h1 h2]
  exact roundKey_mono hd hd (mul_le_mul_of_nonneg_right h (by positivity))

/-- A lower bound that is a key survives rounding. -/
theorem le_roundKey {z k : Int} {d : Nat} (hd : 0 < d) (h1 : -(infMag : Int) ≤ k) (h2 : k ≤ infMag)
    (h : keyUnits k * d ≤ z) : k ≤ roundKey z d := by
  rw [← roundKey_exact hd h1 h2]
  exact roundKey_mono hd hd (mul_le_mul_of_nonneg_right h (by positivity))

theorem ordKey_pack_round (s : Bool) (n d : Nat) :
    ordKey (packF32 s (round32 n d)) = roundKey (if s then -(n : Int) else n) d := by
  have h := round32_le_infMag n d
  have := infMag_eq
  rw [ordKey_packF32 (by omega)]
  cases s
  · simp [roundKey]
  · simp only [if_true]
    rw [roundKey_neg]
    simp [roundKey]

theorem isNaN_pack_round (s : Bool) (n d : Nat) : isNaN (packF32 s (round32 n d)) = false :=
  isNaN_packF32 (round32_le_infMag n d)

/-! ### The operations on finite operands: one rounding of the exact result -/

/-- R12: the sum of finite values is their exact sum, rounded once; it is no NaN. -/
theorem add32_finite (n : Nat) {a b : F32} (ha : FiniteF32 a) (hb : FiniteF32 b) :
    ordKey (add32 n a b) = roundKey (keyUnits (ordKey a) + keyUnits (ordKey b)) 1 ∧
      isNaN (add32 n a b) = false := by
  have r0 : round32 0 1 = 0 := by decide
  unfold add32
  rw [fpOf_fin ha, fpOf_fin hb, keyUnits_ordKey, keyUnits_ordKey]
  generalize unitsOf (magBits a) = x
  generalize unitsOf (magBits b) = y
  generalize signBit a = s
  generalize signBit b = t
  simp only [addFinite]
  split
  · next h =>
    subst h
    refine ⟨?_, isNaN_pack_round _ _ _⟩
    rw [ordKey_pack_round]
    cases s
    · simp
    · simp only [if_true]; exact roundKey_congr (by push_cast; ring)
  · next h =>
    have hst : t = !s := by cases s <;> cases t <;> simp_all
    subst hst
    split
    · next hlt =>
      refine ⟨?_, isNaN_pack_round _ _ _⟩
      rw [ordKey_pack_round]
      cases s <;> simp <;> exact roundKey_congr (by omega)
    · split
      · next hlt =>
        refine ⟨?_, isNaN_pack_round _ _ _⟩
        rw [ordKey_pack_round]
        cases s <;> simp <;> exact roundKey_congr (by omega)
      · have : x = y := by omega
        subst this
        refine ⟨?_, isNaN_packF32 (Nat.zero_le _)⟩
        rw [ordKey_packF32 (by norm_num)]
        cases s <;> simp [roundKey, r0]

/-- R12: the difference of finite values, rounded once. -/
theorem sub32_finite (n : Nat) {a b : F32} (ha : FiniteF32 a) (hb : FiniteF32 b) :
    ordKey (sub32 n a b) = roundKey (keyUnits (ordKey a) - keyUnits (ordKey b)) 1 ∧
      isNaN (sub32 n a b) = false := by
  have := add32_finite n ha (neg32_finite.2 hb)
  rw [ordKey_neg32, keyUnits_neg] at this
  exact this

/-- R12: the product of finite values, rounded once. -/
theorem mul32_finite (n : Nat) {a b : F32} (ha : FiniteF32 a) (hb : FiniteF32 b) :
    ordKey (mul32 n a b) = roundKey (keyUnits (ordKey a) * keyUnits (ordKey b)) (2 ^ 149) ∧
      isNaN (mul32 n a b) = false := by
  unfold mul32
  rw [fpOf_fin ha, fpOf_fin hb, keyUnits_ordKey, keyUnits_ordKey]
  generalize unitsOf (magBits a) = x
  generalize unitsOf (magBits b) = y
  refine ⟨?_, isNaN_pack_round _ _ _⟩
  rw [ordKey_pack_round]
  cases signBit a <;> cases signBit b <;> simp

/-- R12: the quotient of a finite value by a finite value above zero, rounded once. -/
theorem div32_finite (n : Nat) {a b : F32} (ha : FiniteF32 a) (hb : FiniteF32 b) (h0 : 0 < ordKey b) :
    ordKey (div32 n a b) = roundKey (keyUnits (ordKey a) * 2 ^ 149) (keyUnits (ordKey b)).toNat ∧
      isNaN (div32 n a b) = false := by
  have hs : signBit b = false := by
    cases h : signBit b
    · rfl
    · unfold ordKey at h0; rw [h] at h0; simp at h0; omega
  have hu : 0 < keyUnits (ordKey b) := by
    have := keyUnits_strictMono h0; rwa [keyUnits_zero] at this
  unfold div32
  rw [fpOf_fin ha, fpOf_fin hb, keyUnits_ordKey a]
  rw [keyUnits_ordKey b] at hu ⊢
  rw [hs] at hu ⊢
  simp only [Bool.false_eq_true, if_false] at hu ⊢
  generalize unitsOf (magBits a) = x
  generalize unitsOf (magBits b) = y at hu ⊢
  rw [if_neg (by omega)]
  refine ⟨?_, isNaN_pack_round _ _ _⟩
  rw [ordKey_pack_round, Int.toNat_natCast]
  cases signBit a <;> simp

/-! ### Integers -/

/-- Every whole number up to `2^24` is a binary32 value. -/
theorem exists_unitsOf_nat {n : Nat} (hn : n ≤ 16777216) :
    ∃ m, m < infMag ∧ unitsOf m = n * 2 ^ 149 := by
  have hi := infMag_eq
  rcases Nat.lt_or_eq_of_le hn with h | h
  swap
  · exact ⟨151 * 8388608, by omega, by rw [h]; unfold unitsOf; norm_num⟩
  by_cases h0 : n = 0
  · exact ⟨0, by omega, by simp [h0, unitsOf]⟩
  have h1 := Nat.log2_self_le h0
  have h2 := Nat.lt_log2_self (n := n)
  have hL : Nat.log2 n < 24 := (Nat.log2_lt h0).2 (by norm_num; omega)
  generalize Nat.log2 n = L at h1 h2 hL
  have hs1 : 8388608 ≤ n * 2 ^ (23 - L) := by
    calc 8388608 = 2 ^ L * 2 ^ (23 - L) := by rw [← pow_add, show L + (23 - L) = 23 by omega]; norm_num
      _ ≤ n * 2 ^ (23 - L) := Nat.mul_le_mul_right _ h1
  have hs2 : n * 2 ^ (23 - L) < 16777216 := by
    calc n * 2 ^ (23 - L) < 2 ^ (L + 1) * 2 ^ (23 - L) := Nat.mul_lt_mul_of_pos_right h2 (by positivity)
      _ = 16777216 := by rw [← pow_add, show L + 1 + (23 - L) = 24 by omega]; norm_num
  refine ⟨(126 + L) * 8388608 + n * 2 ^ (23 - L), by omega, ?_⟩
  unfold unitsOf
  rw [if_neg (by omega), show ((126 + L) * 8388608 + n * 2 ^ (23 - L)) / 8388608 - 1 = 126 + L by omega,
    show 8388608 + ((126 + L) * 8388608 + n * 2 ^ (23 - L)) % 8388608 = n * 2 ^ (23 - L) by omega,
    mul_assoc, ← pow_add, show 23 - L + (126 + L) = 149 by omega]

/-- Every whole number of magnitude up to `2^24` is the value of a key. -/
theorem exists_keyUnits_int {j : Int} (h1 : -16777216 ≤ j) (h2 : j ≤ 16777216) :
    ∃ k : Int, -(infMag : Int) < k ∧ k < infMag ∧ keyUnits k = j * 2 ^ 149 := by
  obtain ⟨m, hm, hu⟩ := exists_unitsOf_nat (n := j.natAbs) (by omega)
  have hz : keyUnits (m : Int) = (j.natAbs : Int) * 2 ^ 149 := by
    rw [keyUnits_ofNat, hu]; push_cast; rfl
  rcases Int.natAbs_eq j with hj | hj
  · exact ⟨m, by omega, by omega, by rw [hz]; congr 1; omega⟩
  · exact ⟨-(m : Int), by omega, by omega, by rw [keyUnits_neg, hz, ← neg_mul]; congr 1; omega⟩

/-- R14: `toF32` is exact up to `2^24`. -/
theorem toF32_exact {n : Nat} (h : n ≤ 16777216) :
    FiniteF32 (toF32 n) ∧ signBit (toF32 n) = false ∧ keyUnits (ordKey (toF32 n)) = n * 2 ^ 149 := by
  have hi := infMag_eq
  obtain ⟨m, hm, hu⟩ := exists_unitsOf_nat h
  have hr : round32 (n * 2 ^ 149) 1 = m := by
    have := round32_exact (m := m) (d := 1) (by norm_num) (by omega)
    rwa [mul_one, hu] at this
  unfold toF32
  rw [hr]
  refine ⟨by unfold FiniteF32; rwa [magBits_packF32 (by omega)], signBit_packF32 (by omega), ?_⟩
  rw [ordKey_packF32 (by omega)]
  simp only [Bool.false_eq_true, if_false]
  rw [keyUnits_ofNat, hu]; push_cast; rfl

theorem toF32_key_nonneg {n : Nat} (h : n ≤ 16777216) : 0 ≤ ordKey (toF32 n) := by
  obtain ⟨_, hs, _⟩ := toF32_exact h
  unfold ordKey; rw [hs]; simp

/-- R14: what `floorInt` finds in a finite value that is not below zero. -/
theorem floorInt_of_nonneg {v : F32} (h : FiniteF32 v) (h0 : 0 ≤ ordKey v) :
    floorInt v = some (keyUnits (ordKey v) / 2 ^ 149).toNat := by
  unfold floorInt
  rw [fpOf_fin h, keyUnits_ordKey]
  cases hs : signBit v
  · simp only [Bool.false_eq_true, false_and, if_false]
    congr 1
  · unfold ordKey at h0
    rw [hs] at h0
    simp only [if_true] at h0
    have : magBits v = 0 := by omega
    simp [this, unitsOf]

/-! ### Clamps -/

/-- R36, R109: a clamp answers a value of its interval, whatever it is given. -/
theorem clamp32_bounds (v : F32) {lo hi : F32} (h : le32 lo hi = true) :
    le32 lo (clamp32 v lo hi) = true ∧ le32 (clamp32 v lo hi) hi = true := by
  obtain ⟨hl, hh, hk⟩ := le32_iff.1 h
  unfold clamp32 ge32 gt32
  split
  · next h1 =>
    split
    · exact ⟨h, le32_iff.2 ⟨hh, hh, le_refl _⟩⟩
    · next h2 =>
      refine ⟨h1, ?_⟩
      obtain ⟨_, hv, _⟩ := le32_iff.1 h1
      refine le32_iff.2 ⟨hv, hh, ?_⟩
      by_contra hc
      exact h2 (lt32_iff.2 ⟨hh, hv, by omega⟩)
  · exact ⟨le32_iff.2 ⟨hl, hl, le_refl _⟩, h⟩

/-- R109: a NaN clamps to the lower bound. -/
theorem clamp32_nan {v : F32} (lo hi : F32) (h : isNaN v = true) : clamp32 v lo hi = lo := by
  have : ge32 v lo = false := by
    cases hg : ge32 v lo
    · rfl
    · have := (le32_iff.1 hg).2.1; rw [h] at this; exact this.symm ▸ rfl
  unfold clamp32; rw [this]; simp

end Sys2Proof.Machine
end

