-- ==== Sys2Proof/Laws/FloatOps.lean ====
section
/-!
SUPPORT. What the four operations of spec/00_scope.md R12 do with a NaN (R12, U2), with a zero and with 1.0, and that on
finite operands no free value enters: such a result is the same whatever the number of the draw.
-/

namespace Sys2Proof.Machine

/-! ### On finite operands no free value enters -/

theorem add32_draw {a b : F32} (ha : FiniteF32 a) (hb : FiniteF32 b) (n : Nat) : add32 n a b = add32 0 a b := by
  unfold add32; rw [fpOf_fin ha, fpOf_fin hb]

theorem sub32_draw {a b : F32} (ha : FiniteF32 a) (hb : FiniteF32 b) (n : Nat) : sub32 n a b = sub32 0 a b :=
  add32_draw ha (neg32_finite.2 hb) n

theorem mul32_draw {a b : F32} (ha : FiniteF32 a) (hb : FiniteF32 b) (n : Nat) : mul32 n a b = mul32 0 a b := by
  unfold mul32; rw [fpOf_fin ha, fpOf_fin hb]

theorem div32_draw {a b : F32} (ha : FiniteF32 a) (hb : FiniteF32 b) (h0 : magBits b ≠ 0) (n : Nat) :
    div32 n a b = div32 0 a b := by
  have hu : unitsOf (magBits b) ≠ 0 := by
    have := unitsOf_strictMono (m := 0) (m' := magBits b) (by omega)
    omega
  unfold div32; rw [fpOf_fin ha, fpOf_fin hb]
  simp only [if_neg hu]

/-! ### NaN operands -/

theorem fpOf_nan {b : F32} (h : isNaN b = true) : fpOf b = .nan := by
  unfold isNaN at h
  simp only [decide_eq_true_eq] at h
  unfold fpOf; rw [if_neg (by omega), if_neg (by omega)]

theorem isNaN_neg32 (b : F32) : isNaN (neg32 b) = isNaN b := by
  unfold isNaN; rw [magBits_neg32]

theorem add32_nan {a b : F32} (n : Nat) (h : isNaN a = true ∨ isNaN b = true) : add32 n a b = freeNaN n := by
  unfold add32
  rcases h with h | h <;> rw [fpOf_nan h]
  cases fpOf a <;> rfl

theorem sub32_nan {a b : F32} (n : Nat) (h : isNaN a = true ∨ isNaN b = true) : sub32 n a b = freeNaN n :=
  add32_nan n (h.imp_right fun h => by rw [isNaN_neg32, h])

theorem mul32_nan {a b : F32} (n : Nat) (h : isNaN a = true ∨ isNaN b = true) : mul32 n a b = freeNaN n := by
  unfold mul32
  rcases h with h | h <;> rw [fpOf_nan h]
  cases fpOf a <;> rfl

theorem div32_nan {a b : F32} (n : Nat) (h : isNaN a = true ∨ isNaN b = true) : div32 n a b = freeNaN n := by
  unfold div32
  rcases h with h | h <;> rw [fpOf_nan h]
  cases fpOf a <;> rfl

/-! ### Zeros and 1.0 -/

theorem unitsOf_zero : unitsOf 0 = 0 := by simp [unitsOf]

theorem unitsOf_eq_zero {m : Nat} : unitsOf m = 0 ↔ m = 0 := by
  constructor
  · intro h
    by_contra hm
    have := unitsOf_strictMono (m := 0) (m' := m) (by omega)
    omega
  · intro h; rw [h, unitsOf_zero]

theorem round32_zero {d : Nat} (hd : 0 < d) : round32 0 d = 0 := by
  have := round32_exact (m := 0) hd (Nat.zero_le _)
  rwa [unitsOf_zero, Nat.zero_mul] at this

/-- The encoding with a magnitude and a sign is the one there is. -/
theorem eq_of_mag_sign {a b : F32} (h1 : magBits a = magBits b) (h2 : signBit a = signBit b) : a = b := by
  rw [← packF32_self a, ← packF32_self b, h1, h2]

/-- A finite value times a zero is a zero. -/
theorem mul32_zero_mag (n : Nat) {a b : F32} (ha : FiniteF32 a) (hb : FiniteF32 b) (h : magBits a = 0 ∨ magBits b = 0) :
    magBits (mul32 n a b) = 0 := by
  unfold mul32
  rw [fpOf_fin ha, fpOf_fin hb]
  have : unitsOf (magBits a) * unitsOf (magBits b) = 0 := by
    rcases h with h | h <;> rw [h, unitsOf_zero] <;> simp
  simp only [this, round32_zero (show 0 < 2 ^ 149 by positivity)]
  exact magBits_packF32 (by norm_num)

/-- A finite value other than `-0`, plus a zero, is that value. -/
theorem add32_zero_right (n : Nat) {a b : F32} (ha : FiniteF32 a) (hz : a ≠ 0x80000000#32) (hb : magBits b = 0) :
    add32 n a b = a := by
  have hi := infMag_eq
  unfold add32
  rw [fpOf_fin ha, fpOf_fin (by unfold FiniteF32; omega), hb, unitsOf_zero]
  have hr : round32 (unitsOf (magBits a)) 1 = magBits a := by
    have := round32_exact (m := magBits a) (d := 1) (by omega) (by omega)
    rwa [Nat.mul_one] at this
  simp only [addFinite, Nat.add_zero, Nat.sub_zero]
  split
  · rw [hr]; exact packF32_self a
  · next hs =>
    split
    · rw [hr]; exact packF32_self a
    · split
      · omega
      · have hm : magBits a = 0 := unitsOf_eq_zero.1 (by omega)
        cases hsa : signBit a
        · apply eq_of_mag_sign
          · rw [magBits_packF32 (by norm_num), hm]
          · rw [signBit_packF32 (by norm_num), hsa]
        · exfalso
          apply hz
          apply eq_of_mag_sign
          · rw [hm]; decide
          · rw [hsa]; decide

/-- The sum of two zeros is a zero. -/
theorem add32_zeros_mag (n : Nat) {a b : F32} (ha : magBits a = 0) (hb : magBits b = 0) :
    magBits (add32 n a b) = 0 := by
  have hi := infMag_eq
  unfold add32
  rw [fpOf_fin (by unfold FiniteF32; omega), fpOf_fin (by unfold FiniteF32; omega), ha, hb, unitsOf_zero]
  simp only [addFinite, Nat.add_zero, round32_zero (show 0 < 1 by omega), Nat.lt_irrefl, if_false]
  split <;> exact magBits_packF32 (by norm_num)

/-- The difference of two zeros is a zero. -/
theorem sub32_zeros_mag (n : Nat) {a b : F32} (ha : magBits a = 0) (hb : magBits b = 0) :
    magBits (sub32 n a b) = 0 :=
  add32_zeros_mag n ha (by rw [magBits_neg32, hb])

/-- A finite value times 1.0 is that value. -/
theorem mul32_one (n : Nat) {a : F32} (ha : FiniteF32 a) : mul32 n a 0x3F800000#32 = a := by
  have h1 : FiniteF32 0x3F800000#32 := by decide
  have hu : unitsOf (magBits 0x3F800000#32) = 2 ^ 149 := by
    rw [show magBits 0x3F800000#32 = 1065353216 from by decide]; unfold unitsOf; norm_num
  unfold mul32
  rw [fpOf_fin ha, fpOf_fin h1, hu]
  simp only
  rw [round32_exact (by positivity) (Nat.le_of_lt ha), show signBit 0x3F800000#32 = false from by decide]
  rw [Bool.bne_false]
  exact packF32_self a


/-! ### Order -/

theorem gt32_false_of_le {x y : F32} (h : le32 x y = true) : gt32 x y = false := by
  have := le32_iff.1 h
  unfold gt32
  cases hq : lt32 y x
  · rfl
  · have := lt32_iff.1 hq; omega

theorem finite_of_le32 {x lo hi : F32} (h1 : le32 lo x = true) (h2 : le32 x hi = true) (hl : FiniteF32 lo) (hh :
    FiniteF32 hi) : FiniteF32 x := by
  have a := le32_iff.1 h1
  have b := le32_iff.1 h2
  have c := finite_iff_key.1 hl
  have d := finite_iff_key.1 hh
  exact finite_iff_key.2 ⟨by omega, by omega⟩

/-- What `[0, 1]` says of a value. -/
theorem unitInterval_key {x : F32} (h0 : le32 0 x = true) (h1 : le32 x 0x3F800000#32 = true) :
    0 ≤ keyUnits (ordKey x) ∧ keyUnits (ordKey x) ≤ 2 ^ 149 ∧ FiniteF32 x := by
  have a := le32_iff.1 h0
  have b := le32_iff.1 h1
  have k1 : keyUnits (ordKey 0x3F800000#32) = 2 ^ 149 := by
    rw [show ordKey 0x3F800000#32 = ((1065353216 : Nat) : Int) by decide, keyUnits_ofNat]; unfold unitsOf; norm_num
  have k0 : ordKey 0#32 = 0 := by decide
  refine ⟨?_, ?_, finite_of_le32 h0 h1 (by decide) (by decide)⟩
  · have h := a.2.2
    rw [show ordKey 0 = 0 by decide] at h
    exact keyUnits_nonneg h
  · rw [← k1]; exact keyUnits_mono b.2.2

theorem le32_trans {a b c : F32} (h1 : le32 a b = true) (h2 : le32 b c = true) : le32 a c = true := by
  have a := le32_iff.1 h1
  have b := le32_iff.1 h2
  exact le32_iff.2 ⟨a.1, b.2.1, by omega⟩

theorem le32_of_lt32 {a b : F32} (h : lt32 a b = true) : le32 a b = true := by
  have a := lt32_iff.1 h
  exact le32_iff.2 ⟨a.1, a.2.1, by omega⟩

/-- G5: rounded arithmetic is monotone. -/
theorem add32_mono (n m: Nat) {a b a' b' : F32} (ha : FiniteF32 a) (hb : FiniteF32 b) (ha' : FiniteF32 a') (hb' :
    FiniteF32 b') (h1 : le32 a a' = true) (h2 : le32 b b' = true) : le32 (add32 n a b) (add32 m a' b') = true := by
  obtain ⟨x1, x2⟩ := add32_finite n ha hb
  obtain ⟨y1, y2⟩ := add32_finite m ha' hb'
  refine le32_iff.2 ⟨x2, y2, ?_⟩
  rw [x1, y1]
  refine roundKey_mono (by omega) (by omega) ?_
  have := keyUnits_mono (le32_iff.1 h1).2.2
  have := keyUnits_mono (le32_iff.1 h2).2.2
  omega

/-- G5: rounded arithmetic is monotone. -/
theorem sub32_mono (n m: Nat) {a b a' b' : F32} (ha : FiniteF32 a) (hb : FiniteF32 b) (ha' : FiniteF32 a') (hb' :
    FiniteF32 b') (h1 : le32 a a' = true) (h2 : le32 b' b = true) : le32 (sub32 n a b) (sub32 m a' b') = true := by
  obtain ⟨x1, x2⟩ := sub32_finite n ha hb
  obtain ⟨y1, y2⟩ := sub32_finite m ha' hb'
  refine le32_iff.2 ⟨x2, y2, ?_⟩
  rw [x1, y1]
  refine roundKey_mono (by omega) (by omega) ?_
  have := keyUnits_mono (le32_iff.1 h1).2.2
  have := keyUnits_mono (le32_iff.1 h2).2.2
  omega

/-- G5: rounded arithmetic is monotone. -/
theorem mul32_mono (n m: Nat) {a b b' : F32} (ha : FiniteF32 a) (h0 : le32 0 a = true) (hb : FiniteF32 b)  (hb' :
    FiniteF32 b') (h2 : le32 b b' = true) : le32 (mul32 n a b) (mul32 m a b') = true := by
  obtain ⟨x1, x2⟩ := mul32_finite n ha hb
  obtain ⟨y1, y2⟩ := mul32_finite m ha hb'
  refine le32_iff.2 ⟨x2, y2, ?_⟩
  rw [x1, y1]
  refine roundKey_mono (by positivity) (by positivity) ?_
  have h := keyUnits_mono (le32_iff.1 h2).2.2
  have hk := (le32_iff.1 h0).2.2
  have := keyUnits_nonneg (k := ordKey a) (by rw [show ordKey 0 = 0 by decide] at hk; exact hk)
  exact mul_le_mul_of_nonneg_right (mul_le_mul_of_nonneg_left h this) (by positivity)

end Sys2Proof.Machine
end

