-- ==== Sys2Proof/Laws/ReadPosition.lean ====
section
/-!
SUPPORT. The read position of a lane (spec/43_engine.md R108 to R112): it is finite and not below zero, its base index is
at most the capacity, and its four taps keep clear of the cursor (spec/40_delay_line.md R79).
-/

namespace Sys2Proof.Machine

theorem lit_10_eq : FiniteF32 lit_10 ∧ isNaN lit_10 = false ∧ keyUnits (ordKey lit_10) = 10 * 2 ^ 149 := by
  refine ⟨by decide, by decide, ?_⟩
  have h : ordKey lit_10 = ((1092616192 : Nat) : Int) := by decide
  rw [h, keyUnits_ofNat]; unfold unitsOf; norm_num

/-- R108, R109: a lane's delay lies in `[10, CAPACITY - 10]`, whatever the oscillator holds. -/
theorem delaySamples_bounds (n : Nat) (ms sr32 : F32) {cap : Nat} (h1 : 1024 ≤ cap)
    (h2 : cap ≤ 16777216) :
    le32 lit_10 (delaySamples n ms sr32 cap) = true ∧
      le32 (delaySamples n ms sr32 cap) (toF32 (cap - 10)) = true := by
  apply clamp32_bounds
  obtain ⟨hf, hs, hu⟩ := toF32_exact (n := cap - 10) (by omega)
  obtain ⟨_, hn, hv⟩ := lit_10_eq
  refine le32_iff.2 ⟨hn, isNaN_of_finite hf, ?_⟩
  by_contra hc
  have := keyUnits_strictMono (Int.not_le.1 hc)
  rw [hu, hv] at this
  have : ((cap - 10 : Nat) : Int) < 10 := by
    by_contra hc2
    have : (10 : Int) * 2 ^ 149 ≤ ((cap - 10 : Nat) : Int) * 2 ^ 149 :=
      mul_le_mul_of_nonneg_right (by omega) (by positivity)
    omega
  omega

/-- Units, as whole numbers of samples. -/
theorem units_le_mul {a b : Int} (h : a ≤ b) : a * 2 ^ 149 ≤ b * 2 ^ 149 :=
  mul_le_mul_of_nonneg_right h (by positivity)

/-- R111, R112: where a lane reads. -/
theorem readPosition_index (n : Nat) {w cap : Nat} {ds : F32} (hc1 : 1024 ≤ cap) (hc2 : cap ≤ 16777216)
    (hw : w < cap) (h1 : le32 lit_10 ds = true) (h2 : le32 ds (toF32 (cap - 10)) = true) :
    FiniteF32 (readPosition n w cap ds) ∧ 0 ≤ ordKey (readPosition n w cap ds) ∧
    ∃ idx, floorInt (readPosition n w cap ds) = some idx ∧ idx ≤ cap ∧
      ((w + 10 ≤ idx + cap ∧ idx + 10 ≤ w) ∨ (w + 10 ≤ idx ∧ idx + 10 ≤ w + cap)) := by
  have hi := infMag_eq
  obtain ⟨hf10, _, hu10⟩ := lit_10_eq
  obtain ⟨hfc, _, huc⟩ := toF32_exact (n := cap - 10) (by omega)
  obtain ⟨hfw, _, huw⟩ := toF32_exact (n := w) (by omega)
  obtain ⟨hfC, _, huC⟩ := toF32_exact (n := cap) (by omega)
  have k1 := (le32_iff.1 h1).2.2
  have k2 := (le32_iff.1 h2).2.2
  have hfd : FiniteF32 ds :=
    finite_of_bounds k1 k2 (finite_iff_key.1 hf10).1 (finite_iff_key.1 hfc).2
  have d1 := keyUnits_mono k1
  have d2 := keyUnits_mono k2
  rw [hu10] at d1
  rw [huc] at d2
  rw [show ((cap - 10 : Nat) : Int) = (cap : Int) - 10 by omega] at d2
  obtain ⟨hr, hrn⟩ := sub32_finite n hfw hfd
  rw [huw] at hr
  -- the keys of the two bounds of the difference
  obtain ⟨kl, kl1, kl2, hkl⟩ := exists_keyUnits_int (j := (w : Int) - cap + 10) (by omega) (by omega)
  obtain ⟨ku, ku1, ku2, hku⟩ := exists_keyUnits_int (j := (w : Int) - 10) (by omega) (by omega)
  have hlo : kl ≤ ordKey (sub32 n (toF32 w) ds) := by
    rw [hr]; apply le_roundKey (by norm_num) (by omega) (by omega)
    rw [hkl]; push_cast; linarith
  have hup : ordKey (sub32 n (toF32 w) ds) ≤ ku := by
    rw [hr]; apply roundKey_le (by norm_num) (by omega) (by omega)
    rw [hku]; push_cast; linarith
  have hfr := finite_of_bounds hlo hup kl1 ku2
  have vlo := keyUnits_mono hlo
  have vup := keyUnits_mono hup
  rw [hkl] at vlo
  rw [hku] at vup
  generalize hr1 : sub32 n (toF32 w) ds = r1 at *
  have hz : isNaN lit_0 = false ∧ ordKey lit_0 = 0 := by decide
  unfold readPosition
  rw [hr1]
  split
  · next hlt =>
    have hneg : ordKey r1 < 0 := by have := (lt32_iff.1 hlt).2.2; rwa [hz.2] at this
    have vneg := keyUnits_strictMono hneg
    rw [keyUnits_zero] at vneg
    obtain ⟨hr2, _⟩ := add32_finite (n + 1) hfr hfC
    rw [huC] at hr2
    obtain ⟨kc, kc1, kc2, hkc⟩ := exists_keyUnits_int (j := (cap : Int)) (by omega) (by omega)
    obtain ⟨km, km1, km2, hkm⟩ := exists_keyUnits_int (j := (w : Int) + 10) (by omega) (by omega)
    have b1 : km ≤ ordKey (add32 (n + 1) r1 (toF32 cap)) := by
      rw [hr2]; apply le_roundKey (by norm_num) (by omega) (by omega)
      rw [hkm]; push_cast; linarith
    have b2 : ordKey (add32 (n + 1) r1 (toF32 cap)) ≤ kc := by
      rw [hr2]; apply roundKey_le (by norm_num) (by omega) (by omega)
      rw [hkc]; push_cast; linarith
    have hf2 := finite_of_bounds b1 b2 km1 kc2
    have v1 := keyUnits_mono b1
    have v2 := keyUnits_mono b2
    rw [hkm] at v1
    rw [hkc] at v2
    have hk0 : 0 ≤ ordKey (add32 (n + 1) r1 (toF32 cap)) := by
      by_contra hcon
      have := keyUnits_strictMono (Int.not_le.1 hcon)
      rw [keyUnits_zero] at this
      have : (0 : Int) ≤ ((w : Int) + 10) * 2 ^ 149 := by positivity
      omega
    have v3 : w + 10 < 10 ∨ keyUnits (ordKey (add32 (n + 1) r1 (toF32 cap))) ≤
        ((w : Int) + cap - 10) * 2 ^ 149 := by
      right
      by_cases hw10 : 10 ≤ w
      · exact v2.trans (units_le_mul (by omega))
      · obtain ⟨k, ka, kb, hk⟩ := exists_keyUnits_int (j := (w : Int) + cap - 10) (by omega) (by omega)
        rw [← hk]
        apply keyUnits_mono
        rw [hr2]; apply roundKey_le (by norm_num) (by omega) (by omega)
        rw [hk]; push_cast; linarith
    refine ⟨hf2, hk0, _, floorInt_of_nonneg hf2 hk0, ?_⟩
    generalize keyUnits (ordKey (add32 (n + 1) r1 (toF32 cap))) = v at v1 v2 v3
    have e1 : (w : Int) + 10 ≤ v / 2 ^ 149 := Int.le_ediv_of_mul_le (by positivity) v1
    have e2 : v / 2 ^ 149 ≤ cap := by
      have := Int.ediv_le_ediv (by positivity : (0 : Int) < 2 ^ 149) v2
      rwa [Int.mul_ediv_cancel _ (by positivity)] at this
    have e3 : v / 2 ^ 149 ≤ (w : Int) + cap - 10 := by
      rcases v3 with v3 | v3
      · omega
      · have := Int.ediv_le_ediv (by positivity : (0 : Int) < 2 ^ 149) v3
        rwa [Int.mul_ediv_cancel _ (by positivity)] at this
    refine ⟨by omega, .inr ⟨by omega, by omega⟩⟩
  · next hlt =>
    have hk0 : 0 ≤ ordKey r1 := by
      by_contra hcon
      exact hlt (lt32_iff.2 ⟨hrn, hz.1, by rw [hz.2]; omega⟩)
    have v0 := keyUnits_nonneg hk0
    refine ⟨hfr, hk0, _, floorInt_of_nonneg hfr hk0, ?_⟩
    generalize keyUnits (ordKey r1) = v at *
    have e1 : (w : Int) - cap + 10 ≤ v / 2 ^ 149 := Int.le_ediv_of_mul_le (by positivity) vlo
    have e2 : v / 2 ^ 149 ≤ (w : Int) - 10 := by
      have := Int.ediv_le_ediv (by positivity : (0 : Int) < 2 ^ 149) vup
      rwa [Int.mul_ediv_cancel _ (by positivity)] at this
    have e0 : 0 ≤ v / 2 ^ 149 := Int.ediv_nonneg v0 (by positivity)
    refine ⟨by omega, .inl ⟨by omega, by omega⟩⟩

/-- R78: a tap index is reduced modulo the capacity. -/
theorem tapIndex_lt {cap : Nat} (h : 0 < cap) (idx j : Nat) : tapIndex cap idx j < cap := by
  unfold tapIndex
  have h1 := Int.emod_nonneg ((idx : Int) - 1 + j) (show (cap : Int) ≠ 0 by omega)
  have h2 := Int.emod_lt_of_pos ((idx : Int) - 1 + j) (show (0 : Int) < cap by omega)
  omega

/-- R79: no tap is the cell the lane has just written. -/
theorem tapIndex_ne_cursor {cap w idx j : Nat} (hw : w < cap) (hj : j < 4)
    (h : (w + 10 ≤ idx + cap ∧ idx + 10 ≤ w) ∨ (w + 10 ≤ idx ∧ idx + 10 ≤ w + cap)) :
    tapIndex cap idx j ≠ w := by
  intro he
  unfold tapIndex at he
  have h1 := Int.emod_nonneg ((idx : Int) - 1 + j) (show (cap : Int) ≠ 0 by omega)
  have h2 := Int.mul_ediv_add_emod ((idx : Int) - 1 + j) cap
  have h3 : ((idx : Int) - 1 + j) % cap = w := by omega
  rw [h3] at h2
  generalize ((idx : Int) - 1 + j) / cap = q at h2
  have h4 : (cap : Int) * q = (idx : Int) - 1 + j - w := by omega
  rcases lt_trichotomy q 0 with hq | hq | hq
  · have : (cap : Int) * q ≤ -(cap : Int) := by nlinarith
    omega
  · subst hq; omega
  · have : (cap : Int) ≤ cap * q := by nlinarith
    omega

end Sys2Proof.Machine
end

