-- ==== Sys2Proof/Laws/Lane.lean ====
section
/-!
SUPPORT. Everything the lane pipeline can do (spec/43_engine.md R119): one lane, the lanes of a frame, one frame, the
frames of a block.
-/

namespace Sys2Proof.Machine

@[simp] theorem cursor_setMem (s : State) (m : Memory) (c : Nat) : (s.setMem m).cursor c = s.cursor c := rfl
@[simp] theorem cursor_draw (s : State) (k c : Nat) : (s.draw k).cursor c = s.cursor c := rfl
@[simp] theorem cursor_setOscillator (s : State) (p v : F32) (c : Nat) :
    (s.setOscillator p v).cursor c = s.cursor c := rfl
@[simp] theorem active_setMem (s : State) (m : Memory) (c i : Nat) :
    (s.setMem m).active c i = s.active c i := rfl
@[simp] theorem active_setCursor (s : State) (d : Nat) (w : Word) (c i : Nat) :
    (s.setCursor d w).active c i = s.active c i := rfl
@[simp] theorem active_draw (s : State) (k c i : Nat) : (s.draw k).active c i = s.active c i := rfl

theorem cursor_setCursor_same {s : State} (h : CellsWf (0 : Word) s.wptr) (c : Nat) (w : Word) :
    (s.setCursor c w).cursor c = w := cellsGet_set_same h c w

theorem cursor_setCursor_other (s : State) {c d : Nat} (w : Word) (h : d ≠ c) :
    (s.setCursor c w).cursor d = s.cursor d := cellsGet_set_other s.wptr w h

/-! ### One lane -/

/-- The state after a lane has written its attenuated input at its cursor (R110). -/
def laneWritten (c : Nat) (x : F32) (s : State) : State :=
  s.setMem (s.mem.writeWord (cellAddr c (s.cursor c).toNat) (attenuated (s.nanDraw + 6) x))

/-- The state after a lane (R119). -/
def laneState (c : Nat) (x : F32) (s : State) : State :=
  (dlAdvance c (laneWritten c x s)).draw laneDraws

/-- The four taps at a base index (R78), read from the memory. -/
def tapsAt (c idx : Nat) (s : State) : Taps where
  y0 := s.mem.readWord (cellAddr c (tapIndex s.capacity.toNat idx 0))
  y1 := s.mem.readWord (cellAddr c (tapIndex s.capacity.toNat idx 1))
  y2 := s.mem.readWord (cellAddr c (tapIndex s.capacity.toNat idx 2))
  y3 := s.mem.readWord (cellAddr c (tapIndex s.capacity.toNat idx 3))

/-- The output of a lane whose base index is `idx` (R112 to R117). -/
def laneResult (c : Nat) (x : F32) (s : State) (idx : Nat) : F32 :=
  laneOutput (s.nanDraw + 10) s.depth s.mix x (tapsAt c idx (laneWritten c x s))
    (fraction (s.nanDraw + 9) (lanePosition c s) idx)

theorem dlTaps_ok {c : Nat} (idx : Nat) {s : State} (hc : c < s.channels.toNat)
    (hcap : 0 < s.capacity.toNat) : dlTaps c idx s = .ok (tapsAt c idx s) := by
  have h : ∀ j, memRead c (tapIndex s.capacity.toNat idx j) s =
      .ok (s.mem.readWord (cellAddr c (tapIndex s.capacity.toNat idx j))) := fun j =>
    memRead_ok (active_iff.2 ⟨hc, tapIndex_lt hcap idx j⟩)
  simp only [dlTaps, h]
  rfl

theorem laneWritten_spec {c : Nat} {s : State} (x : F32)
    (ha : s.active c (s.cursor c).toNat = true) :
    dlWrite c (attenuated (s.nanDraw + 6) x) s = .ok (laneWritten c x s) := by
  unfold dlWrite memWrite; rw [if_pos ha]; rfl

theorem laneTaps_spec {c : Nat} {s : State} (x : F32) (ha : s.active c (s.cursor c).toNat = true)
    (idx : Nat) : dlTaps c idx (laneWritten c x s) = .ok (tapsAt c idx (laneWritten c x s)) := by
  have hact := active_iff.1 ha
  apply dlTaps_ok
  · simpa [laneWritten] using hact.1
  · simpa [laneWritten] using Nat.zero_lt_of_lt hact.2

/-- A lane whose cursor's cell is active and whose position is an index answers. -/
theorem lane_some {c : Nat} {s : State} (x : F32) {idx : Nat}
    (ha : s.active c (s.cursor c).toNat = true) (h : floorInt (lanePosition c s) = some idx) :
    lane c x s = .ok (laneState c x s, laneResult c x s idx) := by
  unfold lane
  rw [laneWritten_spec x ha, h]
  simp only [laneTaps_spec x ha]
  unfold laneState laneResult
  rfl

/-- A lane whose position is no index stops. -/
theorem lane_none {c : Nat} {s : State} (x : F32) (ha : s.active c (s.cursor c).toNat = true)
    (h : floorInt (lanePosition c s) = none) :
    lane c x s = .error (.unindexablePosition (lanePosition c s)) := by
  unfold lane
  rw [laneWritten_spec x ha, h]

/-- A lane whose cursor's cell is not active stops. -/
theorem lane_inactive {c : Nat} {s : State} (x : F32) (ha : ¬ s.active c (s.cursor c).toNat = true) :
    lane c x s = .error (.inactiveCell c (s.cursor c).toNat) := by
  unfold lane dlWrite memWrite
  rw [if_neg ha]

/-- All a lane can answer: a next state and an output, from a cursor and a position the spec gives a meaning to. -/
theorem lane_cases {c : Nat} {x : F32} {s t : State} {y : F32} (h : lane c x s = .ok (t, y)) :
    c < s.channels.toNat ∧ (s.cursor c).toNat < s.capacity.toNat ∧ t = laneState c x s ∧
      ∃ idx, floorInt (lanePosition c s) = some idx ∧ y = laneResult c x s idx := by
  by_cases ha : s.active c (s.cursor c).toNat = true
  · have hact := active_iff.1 ha
    cases hf : floorInt (lanePosition c s) with
    | none => rw [lane_none x ha hf] at h; cases h
    | some idx =>
      rw [lane_some x ha hf] at h
      simp only [Except.ok.injEq, Prod.mk.injEq] at h
      exact ⟨hact.1, hact.2, h.1.symm, idx, rfl, h.2.symm⟩
  · rw [lane_inactive x ha] at h; cases h

/-- R108 to R112: the read position of a lane of a legal session is an index of its line (R14's `floorInt` is defined),
and the base index keeps clear of the cursor (R79). -/
theorem lanePosition_index {c : Nat} {s : State} (h1 : 1024 ≤ s.capacity.toNat)
    (h2 : s.capacity.toNat ≤ 16777216) (hw : (s.cursor c).toNat < s.capacity.toNat) :
    FiniteF32 (lanePosition c s) ∧ 0 ≤ ordKey (lanePosition c s) ∧
    ∃ idx, floorInt (lanePosition c s) = some idx ∧ idx ≤ s.capacity.toNat ∧
      (((s.cursor c).toNat + 10 ≤ idx + s.capacity.toNat ∧ idx + 10 ≤ (s.cursor c).toNat) ∨
        ((s.cursor c).toNat + 10 ≤ idx ∧ idx + 10 ≤ (s.cursor c).toNat + s.capacity.toNat)) := by
  have hds := delaySamples_bounds (s.nanDraw + 4)
    (delayTimeMs (s.nanDraw + 2) (modulatedDepth s.nanDraw s.depth s.smooth)) s.sr32 h1 h2
  unfold lanePosition laneDelay
  exact readPosition_index (s.nanDraw + 7) h1 h2 hw hds.1 hds.2

/-- A lane of a legal session answers (R150). -/
theorem lane_ok {c : Nat} {s : State} (x : F32) (hc : c < s.channels.toNat)
    (h1 : 1024 ≤ s.capacity.toNat) (h2 : s.capacity.toNat ≤ 16777216)
    (hw : (s.cursor c).toNat < s.capacity.toNat) :
    ∃ idx, floorInt (lanePosition c s) = some idx ∧
      lane c x s = .ok (laneState c x s, laneResult c x s idx) := by
  obtain ⟨-, -, idx, hidx, -⟩ := lanePosition_index h1 h2 hw
  exact ⟨idx, hidx, lane_some x (active_iff.2 ⟨hc, hw⟩) hidx⟩

/-! What a lane leaves alone, and what it writes. -/

section LaneState
variable (c : Nat) (x : F32) (s : State)

@[simp] theorem laneState_state : (laneState c x s).state = s.state := by
  simp [laneState, dlAdvance, laneWritten]
@[simp] theorem laneState_badCmd : (laneState c x s).badCmd = s.badCmd := by
  simp [laneState, dlAdvance, laneWritten]
@[simp] theorem laneState_capacity : (laneState c x s).capacity = s.capacity := by
  simp [laneState, dlAdvance, laneWritten]
@[simp] theorem laneState_channels : (laneState c x s).channels = s.channels := by
  simp [laneState, dlAdvance, laneWritten]
@[simp] theorem laneState_srLo : (laneState c x s).srLo = s.srLo := by
  simp [laneState, dlAdvance, laneWritten]
@[simp] theorem laneState_srHi : (laneState c x s).srHi = s.srHi := by
  simp [laneState, dlAdvance, laneWritten]
@[simp] theorem laneState_sr32 : (laneState c x s).sr32 = s.sr32 := by
  simp [laneState, dlAdvance, laneWritten]
@[simp] theorem laneState_rate : (laneState c x s).rate = s.rate := by
  simp [laneState, dlAdvance, laneWritten]
@[simp] theorem laneState_depth : (laneState c x s).depth = s.depth := by
  simp [laneState, dlAdvance, laneWritten]
@[simp] theorem laneState_mix : (laneState c x s).mix = s.mix := by
  simp [laneState, dlAdvance, laneWritten]
@[simp] theorem laneState_phase : (laneState c x s).phase = s.phase := by
  simp [laneState, dlAdvance, laneWritten]
@[simp] theorem laneState_smooth : (laneState c x s).smooth = s.smooth := by
  simp [laneState, dlAdvance, laneWritten]
@[simp] theorem laneState_cmdIn : (laneState c x s).cmdIn = s.cmdIn := by
  simp [laneState, dlAdvance, laneWritten]
@[simp] theorem laneState_respOut : (laneState c x s).respOut = s.respOut := by
  simp [laneState, dlAdvance, laneWritten]
@[simp] theorem laneState_hostLog : (laneState c x s).hostLog = s.hostLog := by
  simp [laneState, dlAdvance, laneWritten]
@[simp] theorem laneState_nanDraw : (laneState c x s).nanDraw = s.nanDraw + laneDraws := by
  simp [laneState, dlAdvance, laneWritten]
@[simp] theorem laneState_mem : (laneState c x s).mem =
    s.mem.writeWord (cellAddr c (s.cursor c).toNat) (attenuated (s.nanDraw + 6) x) := by
  simp [laneState, dlAdvance, laneWritten]
@[simp] theorem laneState_active (d i : Nat) : (laneState c x s).active d i = s.active d i := rfl

theorem laneState_wptr : (laneState c x s).wptr = cellsSet (0 : Word) s.wptr c
    (BitVec.ofNat 32 (((s.cursor c).toNat + 1) % s.capacity.toNat)) := rfl

theorem laneState_cursor_other {d : Nat} (h : d ≠ c) : (laneState c x s).cursor d = s.cursor d :=
  cellsGet_set_other s.wptr _ h

end LaneState

/-- R77: the cursor moves by 1 modulo the capacity. -/
theorem laneState_cursor_same {s : State} (c : Nat) (x : F32) (h : CellsWf (0 : Word) s.wptr)
    (hcap : 0 < s.capacity.toNat) :
    ((laneState c x s).cursor c).toNat = ((s.cursor c).toNat + 1) % s.capacity.toNat := by
  have : (laneState c x s).cursor c =
      BitVec.ofNat 32 (((s.cursor c).toNat + 1) % s.capacity.toNat) := cellsGet_set_same h c _
  rw [this, BitVec.toNat_ofNat]
  apply Nat.mod_eq_of_lt
  have := Nat.mod_lt ((s.cursor c).toNat + 1) hcap
  have := s.capacity.isLt
  omega

/-! ### The lanes of a frame -/

/-- The state after the lanes from `c` on. -/
def lanesState (c : Nat) : List F32 → State → State
  | [], s => s
  | x :: xs, s => lanesState (c + 1) xs (if c < s.channels.toNat then laneState c x s else s)

/-- All the lanes of a frame can answer: the state of one lane after another, and as many outputs as inputs. -/
theorem lanesFrom_cases {xs : List F32} : ∀ {c : Nat} {s t : State} {ys : List F32},
    lanesFrom c xs s = .ok (t, ys) → t = lanesState c xs s ∧ ys.length = xs.length := by
  induction xs with
  | nil => intro c s t ys h; simp only [lanesFrom, Except.ok.injEq, Prod.mk.injEq] at h; simp [← h.1, ← h.2, lanesState]
  | cons x xs ih =>
    intro c s t ys h
    simp only [lanesFrom] at h
    split at h
    · next hc =>
      split at h
      · contradiction
      · next s1 y hl =>
        split at h
        · contradiction
        · next s2 zs hls =>
          obtain ⟨h1, h2⟩ := ih hls
          simp only [Except.ok.injEq, Prod.mk.injEq] at h
          refine ⟨?_, by simp [← h.2, h2]⟩
          rw [lanesState, if_pos hc, ← h.1, h1, (lane_cases hl).2.2.1]
    · next hc =>
      split at h
      · contradiction
      · next s2 zs hls =>
        obtain ⟨h1, h2⟩ := ih hls
        simp only [Except.ok.injEq, Prod.mk.injEq] at h
        refine ⟨?_, by simp [← h.2, h2]⟩
        rw [lanesState, if_neg hc, ← h.1, h1]

/-- A property that every lane keeps, the lanes of a frame keep. -/
theorem lanesState_keeps {P : State → Prop}
    (hP : ∀ c x s, c < s.channels.toNat → P s → P (laneState c x s)) :
    ∀ (xs : List F32) (c : Nat) (s : State), P s → P (lanesState c xs s) := by
  intro xs
  induction xs with
  | nil => intro c s h; exact h
  | cons x xs ih =>
    intro c s h
    rw [lanesState]
    apply ih
    split
    · exact hP c x s ‹_› h
    · exact h

/-- A field that every lane leaves alone, the lanes of a frame leave alone. -/
theorem lanesState_field {α : Type} (f : State → α) (hf : ∀ c x s, f (laneState c x s) = f s)
    (c : Nat) (xs : List F32) (s : State) : f (lanesState c xs s) = f s :=
  lanesState_keeps (P := fun t => f t = f s) (fun c x t _ h => by rw [hf, h]) xs c s rfl

@[simp] theorem lanesState_state (c : Nat) (xs : List F32) (s : State) :
    (lanesState c xs s).state = s.state := lanesState_field _ laneState_state c xs s
@[simp] theorem lanesState_badCmd (c : Nat) (xs : List F32) (s : State) :
    (lanesState c xs s).badCmd = s.badCmd := lanesState_field _ laneState_badCmd c xs s
@[simp] theorem lanesState_capacity (c : Nat) (xs : List F32) (s : State) :
    (lanesState c xs s).capacity = s.capacity := lanesState_field _ laneState_capacity c xs s
@[simp] theorem lanesState_channels (c : Nat) (xs : List F32) (s : State) :
    (lanesState c xs s).channels = s.channels := lanesState_field _ laneState_channels c xs s
@[simp] theorem lanesState_srLo (c : Nat) (xs : List F32) (s : State) :
    (lanesState c xs s).srLo = s.srLo := lanesState_field _ laneState_srLo c xs s
@[simp] theorem lanesState_srHi (c : Nat) (xs : List F32) (s : State) :
    (lanesState c xs s).srHi = s.srHi := lanesState_field _ laneState_srHi c xs s
@[simp] theorem lanesState_sr32 (c : Nat) (xs : List F32) (s : State) :
    (lanesState c xs s).sr32 = s.sr32 := lanesState_field _ laneState_sr32 c xs s
@[simp] theorem lanesState_rate (c : Nat) (xs : List F32) (s : State) :
    (lanesState c xs s).rate = s.rate := lanesState_field _ laneState_rate c xs s
@[simp] theorem lanesState_depth (c : Nat) (xs : List F32) (s : State) :
    (lanesState c xs s).depth = s.depth := lanesState_field _ laneState_depth c xs s
@[simp] theorem lanesState_mix (c : Nat) (xs : List F32) (s : State) :
    (lanesState c xs s).mix = s.mix := lanesState_field _ laneState_mix c xs s
@[simp] theorem lanesState_phase (c : Nat) (xs : List F32) (s : State) :
    (lanesState c xs s).phase = s.phase := lanesState_field _ laneState_phase c xs s
@[simp] theorem lanesState_smooth (c : Nat) (xs : List F32) (s : State) :
    (lanesState c xs s).smooth = s.smooth := lanesState_field _ laneState_smooth c xs s
@[simp] theorem lanesState_cmdIn (c : Nat) (xs : List F32) (s : State) :
    (lanesState c xs s).cmdIn = s.cmdIn := lanesState_field _ laneState_cmdIn c xs s
@[simp] theorem lanesState_respOut (c : Nat) (xs : List F32) (s : State) :
    (lanesState c xs s).respOut = s.respOut := lanesState_field _ laneState_respOut c xs s
@[simp] theorem lanesState_hostLog (c : Nat) (xs : List F32) (s : State) :
    (lanesState c xs s).hostLog = s.hostLog := lanesState_field _ laneState_hostLog c xs s

/-- The cursors are in canonical form after the lanes, too. -/
theorem lanesState_wptr_wf (c : Nat) (xs : List F32) {s : State} (h : CellsWf (0 : Word) s.wptr) :
    CellsWf (0 : Word) (lanesState c xs s).wptr :=
  lanesState_keeps (P := fun t => CellsWf (0 : Word) t.wptr)
    (fun c x t _ h => by rw [laneState_wptr]; exact cellsSet_wf h _ _) xs c s h

/-- The lanes from `c` on write no cursor of a lower channel. -/
theorem lanesState_cursor_below (xs : List F32) : ∀ (c : Nat) (s : State) {d : Nat}, d < c →
    (lanesState c xs s).cursor d = s.cursor d := by
  induction xs with
  | nil => intro c s d _; rfl
  | cons x xs ih =>
    intro c s d hd
    rw [lanesState, ih (c + 1) _ (by omega)]
    split
    · exact laneState_cursor_other c x s (by omega)
    · rfl

/-- R77, R118: what the lanes of a frame do to the cursors: each processed lane's moves by 1. -/
theorem lanesState_cursor (xs : List F32) : ∀ (c : Nat) (s : State) (d : Nat),
    CellsWf (0 : Word) s.wptr → 0 < s.capacity.toNat →
    ((lanesState c xs s).cursor d).toNat =
      if c ≤ d ∧ d < c + xs.length ∧ d < s.channels.toNat then
        ((s.cursor d).toNat + 1) % s.capacity.toNat
      else (s.cursor d).toNat := by
  induction xs with
  | nil =>
    intro c s d _ _
    rw [if_neg (by simp only [List.length_nil]; omega)]; rfl
  | cons x xs ih =>
    intro c s d hwf hcap
    rw [lanesState]
    by_cases hd : d ≤ c
    · rw [lanesState_cursor_below _ _ _ (by omega)]
      by_cases hdc : d = c
      · subst hdc
        by_cases hch : d < s.channels.toNat
        · rw [if_pos hch, if_pos ⟨le_refl _, by simp, hch⟩]
          exact laneState_cursor_same d x hwf hcap
        · rw [if_neg hch, if_neg (by omega)]
      · rw [if_neg (show ¬(c ≤ d ∧ d < c + (x :: xs).length ∧ d < s.channels.toNat) by omega)]
        split
        · rw [laneState_cursor_other c x s hdc]
        · rfl
    · have hlen : (x :: xs).length = xs.length + 1 := rfl
      by_cases hch : c < s.channels.toNat
      · rw [if_pos hch, ih (c + 1) (laneState c x s) d (by rw [laneState_wptr]; exact cellsSet_wf hwf _ _) hcap]
        rw [laneState_cursor_other c x s (by omega)]
        simp only [laneState_channels, laneState_capacity, hlen]
        congr 1
        apply propext; omega
      · rw [if_neg hch, ih (c + 1) _ d hwf hcap]
        simp only [hlen]
        congr 1
        apply propext; omega

/-- R43, R110: the bytes the lanes of a frame write: each processed lane's cell at its cursor. -/
theorem lanesState_readByte (xs : List F32) : ∀ (c : Nat) (s : State) (a : Nat),
    (∀ d, c ≤ d → d < c + xs.length → d < s.channels.toNat →
      a < cellAddr d (s.cursor d).toNat ∨ cellAddr d (s.cursor d).toNat + 4 ≤ a) →
    (lanesState c xs s).mem.readByte a = s.mem.readByte a := by
  induction xs with
  | nil => intro c s a _; rfl
  | cons x xs ih =>
    intro c s a h
    have hlen : (x :: xs).length = xs.length + 1 := rfl
    rw [lanesState]
    by_cases hch : c < s.channels.toNat
    · rw [if_pos hch, ih (c + 1) _ a]
      · rw [laneState_mem]
        exact readByte_writeWord_other _ _ (h c (le_refl _) (by omega) hch)
      · intro d h1 h2 h3
        rw [laneState_cursor_other c x s (by omega)]
        exact h d (by omega) (by omega) h3
    · rw [if_neg hch]
      exact ih (c + 1) s a fun d h1 h2 h3 => h d (by omega) (by omega) h3

end Sys2Proof.Machine
end

