-- ==== Sys2Proof/Laws/Frames.lean ====
section
/-!
SUPPORT. Everything a frame and a block can do (spec/43_engine.md R120, R121), and that a legal session's frames answer.
-/

namespace Sys2Proof.Machine

/-! ### The storage limits -/

/-- R7(a). -/
theorem maxChannels_bounds : 1 ≤ maxChannels ∧ maxChannels ≤ 65535 := by
  unfold maxChannels; omega

/-- R7(b). -/
theorem maxCapacity_bounds : 1024 ≤ maxCapacity ∧ maxCapacity ≤ 16777216 := by
  unfold maxCapacity; omega

/-! ### A legal session -/

/-- What a lane needs of the session: a capacity the block can have, and every cursor in its line (R23, R32). -/
structure State.SessionLegal (s : State) : Prop where
  cap_lo : 1024 ≤ s.capacity.toNat
  cap_hi : s.capacity.toNat ≤ 16777216
  cursors : ∀ c, c < s.channels.toNat → (s.cursor c).toNat < s.capacity.toNat
  wptr : CellsWf (0 : Word) s.wptr

theorem State.Inv.sessionLegal {s : State} (h : s.Inv) (he : s.state = .enabled) : s.SessionLegal where
  cap_lo := (h.extent.capacity he).1
  cap_hi := (h.extent.capacity he).2.trans maxCapacity_bounds.2
  cursors := h.extent.cursors he
  wptr := h.canonical.wptr

theorem sessionLegal_laneState {s : State} (h : s.SessionLegal) (c : Nat) (x : F32) :
    (laneState c x s).SessionLegal where
  cap_lo := h.cap_lo
  cap_hi := h.cap_hi
  cursors := by
    intro d hd
    have hpos : 0 < s.capacity.toNat := by have := h.cap_lo; omega
    by_cases hdc : d = c
    · subst hdc
      rw [laneState_cursor_same d x h.wptr hpos]
      exact Nat.mod_lt _ hpos
    · rw [laneState_cursor_other c x s hdc]
      exact h.cursors d hd
  wptr := by rw [laneState_wptr]; exact cellsSet_wf h.wptr _ _

/-- The lanes of a legal session answer. -/
theorem lanesFrom_ok (xs : List F32) : ∀ (c : Nat) {s : State}, s.SessionLegal →
    ∃ ys, lanesFrom c xs s = .ok (lanesState c xs s, ys) := by
  induction xs with
  | nil => intro c s _; exact ⟨[], rfl⟩
  | cons x xs ih =>
    intro c s h
    simp only [lanesFrom, lanesState]
    by_cases hc : c < s.channels.toNat
    · obtain ⟨idx, -, hl⟩ := lane_ok x hc h.cap_lo h.cap_hi (h.cursors c hc)
      obtain ⟨ys, hys⟩ := ih (c + 1) (sessionLegal_laneState h c x)
      rw [if_pos hc, if_pos hc, hl]
      simp only [hys]
      exact ⟨_, rfl⟩
    · obtain ⟨ys, hys⟩ := ih (c + 1) h
      rw [if_neg hc, if_neg hc]
      simp only [hys]
      exact ⟨_, rfl⟩

/-! ### One frame -/

/-- The state after a frame (R120). -/
def frameState (xs : List F32) (s : State) : State :=
  if s.processes xs.length then lanesState 0 xs (oscStep s) else s

/-- All a frame can answer. -/
theorem frame_cases {xs ys : List F32} {s t : State} (h : frame xs s = .ok (t, ys)) :
    t = frameState xs s ∧ ys.length = xs.length ∧ (s.processes xs.length = false → ys = xs) := by
  unfold frame at h
  unfold frameState
  split at h
  · next hp =>
    obtain ⟨h1, h2⟩ := lanesFrom_cases h
    refine ⟨by rw [if_pos hp, h1], h2, fun hn => ?_⟩
    rw [hp] at hn; cases hn
  · next hp =>
    simp only [Except.ok.injEq, Prod.mk.injEq] at h
    exact ⟨by rw [if_neg hp, h.1], by rw [h.2], fun _ => h.2.symm⟩

theorem frame_off {xs : List F32} {s : State} (h : s.processes xs.length = false) :
    frame xs s = .ok (s, xs) := by
  unfold frame; rw [h]; rfl

theorem processes_iff {s : State} {b : Nat} :
    s.processes b = true ↔ s.state = .enabled ∧ 1 ≤ b ∧ 1 ≤ s.channels.toNat := by
  unfold State.processes State.isEnabled
  simp only [Bool.and_eq_true, decide_eq_true_eq, le_min_iff]

@[simp] theorem oscStep_state (s : State) : (oscStep s).state = s.state := by
  unfold oscStep; rfl
@[simp] theorem oscStep_badCmd (s : State) : (oscStep s).badCmd = s.badCmd := by
  unfold oscStep; rfl
@[simp] theorem oscStep_capacity (s : State) : (oscStep s).capacity = s.capacity := by
  unfold oscStep; rfl
@[simp] theorem oscStep_channels (s : State) : (oscStep s).channels = s.channels := by
  unfold oscStep; rfl
@[simp] theorem oscStep_srLo (s : State) : (oscStep s).srLo = s.srLo := by
  unfold oscStep; rfl
@[simp] theorem oscStep_srHi (s : State) : (oscStep s).srHi = s.srHi := by
  unfold oscStep; rfl
@[simp] theorem oscStep_sr32 (s : State) : (oscStep s).sr32 = s.sr32 := by
  unfold oscStep; rfl
@[simp] theorem oscStep_rate (s : State) : (oscStep s).rate = s.rate := by
  unfold oscStep; rfl
@[simp] theorem oscStep_depth (s : State) : (oscStep s).depth = s.depth := by
  unfold oscStep; rfl
@[simp] theorem oscStep_mix (s : State) : (oscStep s).mix = s.mix := by
  unfold oscStep; rfl
@[simp] theorem oscStep_wptr (s : State) : (oscStep s).wptr = s.wptr := by
  unfold oscStep; rfl
@[simp] theorem oscStep_mem (s : State) : (oscStep s).mem = s.mem := by
  unfold oscStep; rfl
@[simp] theorem oscStep_cmdIn (s : State) : (oscStep s).cmdIn = s.cmdIn := by
  unfold oscStep; rfl
@[simp] theorem oscStep_respOut (s : State) : (oscStep s).respOut = s.respOut := by
  unfold oscStep; rfl
@[simp] theorem oscStep_hostLog (s : State) : (oscStep s).hostLog = s.hostLog := by
  unfold oscStep; rfl
@[simp] theorem oscStep_nanDraw (s : State) : (oscStep s).nanDraw = s.nanDraw + oscDraws := by
  unfold oscStep; rfl
@[simp] theorem oscStep_cursor (s : State) (c : Nat) : (oscStep s).cursor c = s.cursor c := by
  unfold oscStep; rfl

/-- R85, R86: the phase after OSC_STEP. -/
theorem oscStep_phase (s : State) : (oscStep s).phase = oscPhase s.nanDraw s.rate s.sr32 s.phase := rfl

/-- R87, R88: the smoothed value after OSC_STEP. -/
theorem oscStep_smooth (s : State) : (oscStep s).smooth =
    oscSmooth (s.nanDraw + 5) s.smooth (oscLfo (s.nanDraw + 3) (sin2pi (oscStep s).phase)) := by
  rw [oscStep_phase]; unfold oscStep; rfl

theorem sessionLegal_oscStep {s : State} (h : s.SessionLegal) : (oscStep s).SessionLegal where
  cap_lo := h.cap_lo
  cap_hi := h.cap_hi
  cursors := h.cursors
  wptr := h.wptr

theorem sessionLegal_frameState {s : State} (h : s.SessionLegal) (xs : List F32) :
    (frameState xs s).SessionLegal := by
  unfold frameState
  split
  · exact lanesState_keeps (P := State.SessionLegal)
      (fun c x t _ ht => sessionLegal_laneState ht c x) xs 0 _ (sessionLegal_oscStep h)
  · exact h

/-- A frame answers, if the block is disabled or its session is legal. -/
theorem frame_ok {xs : List F32} {s : State} (h : s.state = .enabled → s.SessionLegal) :
    ∃ ys, frame xs s = .ok (frameState xs s, ys) := by
  unfold frame frameState
  by_cases hp : s.processes xs.length = true
  · rw [if_pos hp, if_pos hp]
    exact lanesFrom_ok xs 0 (sessionLegal_oscStep (h (processes_iff.1 hp).1))
  · rw [if_neg hp, if_neg hp]; exact ⟨xs, rfl⟩

/-- A property that the oscillator step and every lane keep, a frame keeps. -/
theorem frameState_keeps {P : State → Prop} (hO : ∀ s, s.state = .enabled → P s → P (oscStep s))
    (hP : ∀ c x s, s.state = .enabled → c < s.channels.toNat → P s → P (laneState c x s))
    (xs : List F32) (s : State) (h : P s) : P (frameState xs s) := by
  unfold frameState
  split
  · next hp =>
    have he := (processes_iff.1 hp).1
    exact (lanesState_keeps (P := fun t => t.state = .enabled ∧ P t)
      (fun c x t hc ht => ⟨ht.1, hP c x t ht.1 hc ht.2⟩) xs 0 (oscStep s) ⟨he, hO s he h⟩).2
  · exact h

/-! ### The frames of a block -/

/-- The state after `n` frames of `b` lanes (R121). -/
def framesState (b : Nat) : Nat → List F32 → State → State
  | 0, _, s => s
  | n + 1, xs, s => framesState b n (xs.drop b) (frameState (xs.take b) s)

/-- All the frames of a block can answer. -/
theorem frames_cases {b : Nat} : ∀ {n : Nat} {xs ys : List F32} {s t : State},
    frames b n xs s = .ok (t, ys) → t = framesState b n xs s := by
  intro n
  induction n with
  | zero => intro xs ys s t h; simp only [frames, Except.ok.injEq, Prod.mk.injEq] at h; exact h.1.symm
  | succ n ih =>
    intro xs ys s t h
    simp only [frames] at h
    split at h
    · contradiction
    · next s1 zs hf =>
      split at h
      · contradiction
      · next s2 ws hfs =>
        simp only [Except.ok.injEq, Prod.mk.injEq] at h
        rw [framesState, ← (frame_cases hf).1, ← h.1]
        exact ih hfs

theorem frames_length {b : Nat} : ∀ {n : Nat} {xs ys : List F32} {s t : State},
    xs.length = n * b → frames b n xs s = .ok (t, ys) → ys.length = n * b := by
  intro n
  induction n with
  | zero => intro xs ys s t _ h; simp only [frames, Except.ok.injEq, Prod.mk.injEq] at h; simp [← h.2]
  | succ n ih =>
    intro xs ys s t hl h
    have e : (n + 1) * b = n * b + b := Nat.succ_mul n b
    simp only [frames] at h
    split at h
    · contradiction
    · next s1 zs hf =>
      split at h
      · contradiction
      · next s2 ws hfs =>
        simp only [Except.ok.injEq, Prod.mk.injEq] at h
        have h1 := (frame_cases hf).2.1
        have h2 := ih (by simp; omega) hfs
        rw [← h.2, List.length_append, h1, h2, List.length_take]; omega

/-- The frames of a block answer, if the block is disabled or its session is legal. -/
theorem frames_ok {b : Nat} : ∀ {n : Nat} {xs : List F32} {s : State},
    (s.state = .enabled → s.SessionLegal) → ∃ ys, frames b n xs s = .ok (framesState b n xs s, ys) := by
  intro n
  induction n with
  | zero => intro xs s _; exact ⟨[], rfl⟩
  | succ n ih =>
    intro xs s h
    obtain ⟨ys, hys⟩ := frame_ok (xs := xs.take b) h
    have hst : (frameState (xs.take b) s).state = s.state := by
      unfold frameState; split <;> simp
    obtain ⟨zs, hzs⟩ := ih (xs := xs.drop b) (s := frameState (xs.take b) s)
      (fun he => sessionLegal_frameState (h (hst ▸ he)) _)
    refine ⟨ys ++ zs, ?_⟩
    simp only [frames, framesState, hys, hzs]

/-- A property that every frame keeps, a block keeps. -/
theorem framesState_keeps {P : State → Prop} (b : Nat) (hP : ∀ xs s, P s → P (frameState xs s)) :
    ∀ (n : Nat) (xs : List F32) (s : State), P s → P (framesState b n xs s) := by
  intro n
  induction n with
  | zero => intro xs s h; exact h
  | succ n ih => intro xs s h; exact ih _ _ (hP _ _ h)

end Sys2Proof.Machine
end

