-- ==== Sys2Proof/Laws/Invariant.lean ====
section
/-!
SUPPORT. That each shared operation keeps the invariant of Safety.lean (spec/10_state.md R39), one lemma an operation, and
what each command's meaning can answer.
-/

namespace Sys2Proof.Machine

/-! ### Operations that touch no register of the invariant -/

/-- The invariant speaks of eight fields alone. -/
theorem inv_congr {s t : State} (h : s.Inv) (h1 : t.rate = s.rate) (h2 : t.depth = s.depth) (h3 : t.mix = s.mix)
    (h4 : t.state = s.state) (h5 : t.capacity = s.capacity) (h6 : t.channels = s.channels)
    (h7 : t.wptr = s.wptr) (h8 : t.mem = s.mem) : t.Inv := by
  have hc : ∀ c, t.cursor c = s.cursor c := fun c => by unfold State.cursor; rw [h7]
  have ha : ∀ c i, t.active c i = s.active c i := fun c i => by unfold State.active; rw [h5, h6]
  obtain ⟨⟨p1, p2, p3⟩, ⟨e1, e2, e3, e4⟩, ⟨c1, c2, c3, c4⟩⟩ := h
  refine ⟨⟨by rw [h1]; exact p1, by rw [h2]; exact p2, by rw [h3]; exact p3⟩, ⟨?_, ?_, ?_, ?_⟩, ⟨?_, ?_, ?_, ?_⟩⟩
  · rw [h4, h5]; exact e1
  · rw [h4, h6]; exact e2
  · simp only [h4, h5, h6, hc]; exact e3
  · rw [h4, h5, h6]; exact e4
  · rw [h8]; exact c1
  · rw [h7]; exact c2
  · rw [h7]; exact c3
  · simp only [h8, ha]; exact c4

theorem inv_takeResponses {s : State} (h : s.Inv) : s.takeResponses.Inv :=
  inv_congr h rfl rfl rfl rfl rfl rfl rfl rfl

theorem inv_setInput {s : State} (h : s.Inv) (ws : List Word) : (s.setInput ws).Inv :=
  inv_congr h rfl rfl rfl rfl rfl rfl rfl rfl

theorem inv_send {s : State} (h : s.Inv) (ws : List Word) : (s.send ws).Inv := inv_setInput h _

theorem inv_respond {s : State} (h : s.Inv) (ws : List Word) : (s.respond ws).Inv :=
  inv_congr h rfl rfl rfl rfl rfl rfl rfl rfl

theorem inv_setBadCmd {s : State} (h : s.Inv) : s.setBadCmd.Inv :=
  inv_congr h rfl rfl rfl rfl rfl rfl rfl rfl

theorem inv_clearBadCmd {s : State} (h : s.Inv) : s.clearBadCmd.Inv :=
  inv_congr h rfl rfl rfl rfl rfl rfl rfl rfl

theorem inv_notExecuted {s : State} (h : s.Inv) (ws : List Word) : (s.notExecuted ws).Inv :=
  inv_setBadCmd (inv_respond h ws)

theorem inv_noCommand {s : State} (h : s.Inv) (e : DecodeError) : (noCommand e s).Inv := by
  cases e with
  | noHeader => exact h
  | incomplete k => exact h
  | illegalOpcode op => exact inv_setBadCmd (inv_setInput h _)

theorem inv_respondRead {s : State} (h : s.Inv) (w : Option Word) : (respondRead w s).Inv := by
  cases w with
  | some w => exact inv_respond h _
  | none => exact inv_notExecuted h _

/-! ### Parameters -/

/-- R27, R36. -/
theorem clampRate_bounds (v : F32) : le32 lit_0_1 (clampRate v) = true ∧ le32 (clampRate v) lit_2_0 = true :=
  clamp32_bounds v (by decide)

/-- R28, R29, R36. -/
theorem clampUnit_bounds (v : F32) : le32 lit_0 (clampUnit v) = true ∧ le32 (clampUnit v) lit_1_0 = true :=
  clamp32_bounds v (by decide)

theorem inv_setRate {s : State} (h : s.Inv) (v : F32) : (s.setRate (clampRate v)).Inv :=
  ⟨⟨clampRate_bounds v, h.params.depth, h.params.mix⟩, ⟨h.extent.1, h.extent.2, h.extent.3, h.extent.4⟩,
    ⟨h.canonical.1, h.canonical.2, h.canonical.3, h.canonical.4⟩⟩

theorem inv_setDepth {s : State} (h : s.Inv) (v : F32) : (s.setDepth (clampUnit v)).Inv :=
  ⟨⟨h.params.rate, clampUnit_bounds v, h.params.mix⟩, ⟨h.extent.1, h.extent.2, h.extent.3, h.extent.4⟩,
    ⟨h.canonical.1, h.canonical.2, h.canonical.3, h.canonical.4⟩⟩

theorem inv_setMix {s : State} (h : s.Inv) (v : F32) : (s.setMix (clampUnit v)).Inv :=
  ⟨⟨h.params.rate, h.params.depth, clampUnit_bounds v⟩, ⟨h.extent.1, h.extent.2, h.extent.3, h.extent.4⟩,
    ⟨h.canonical.1, h.canonical.2, h.canonical.3, h.canonical.4⟩⟩

theorem inv_writeStatus {s : State} (h : s.Inv) (v : Word) : (s.writeStatus v).Inv := by
  unfold State.writeStatus
  split
  · exact inv_clearBadCmd h
  · exact h

/-- All a WRITE_REG that is executed can do (R138). -/
theorem writeRegister_cases (reg : Byte) (v : Word) (s : State) :
    writeRegister reg v s = s.setRate (clampRate v) ∨ writeRegister reg v s = s.setDepth (clampUnit v) ∨
    writeRegister reg v s = s.setMix (clampUnit v) ∨ writeRegister reg v s = s.writeStatus v ∨
    writeRegister reg v s = s.setBadCmd := by
  unfold writeRegister
  rcases regOfNumber reg with _ | name
  · exact .inr (.inr (.inr (.inr rfl)))
  · cases name
    case rate => exact .inl rfl
    case depth => exact .inr (.inl rfl)
    case mix => exact .inr (.inr (.inl rfl))
    case status => exact .inr (.inr (.inr (.inl rfl)))
    all_goals exact .inr (.inr (.inr (.inr rfl)))

theorem inv_writeRegister {s : State} (h : s.Inv) (reg : Byte) (v : Word) : (writeRegister reg v s).Inv := by
  rcases writeRegister_cases reg v s with e | e | e | e | e <;> rw [e]
  · exact inv_setRate h v
  · exact inv_setDepth h v
  · exact inv_setMix h v
  · exact inv_writeStatus h v
  · exact inv_setBadCmd h

/-! ### CONFIGURE and RELEASE -/

/-- R131: a CONFIGURE passes its checks exactly for a finite positive sample rate, a channel count the block has and a
capacity it has. -/
theorem checkConfig_enabled_iff (sr : F64) (ch : Nat) :
    checkConfig sr ch = .enabled ↔ magBits64 sr < infMag64 ∧ signBit64 sr = false ∧ magBits64 sr ≠ 0 ∧
      1 ≤ ch ∧ ch ≤ maxChannels ∧ 4 ≤ capacityOf sr ∧ capacityOf sr ≤ maxCapacity := by
  unfold checkConfig isNaN64 sampleRateNotPositive
  constructor
  · intro h
    split at h
    · cases h
    · next h1 =>
      split at h
      · cases h
      · split at h
        · cases h
        · split at h
          · cases h
          · simp only [Bool.or_eq_true, decide_eq_true_eq, not_or, Bool.not_eq_true] at h1
            exact ⟨by omega, h1.2.1, h1.2.2, by omega, by omega, by omega, by omega⟩
  · rintro ⟨h1, h2, h3, h4, h5, h6, h7⟩
    rw [if_neg (by simp [h2, h3]; omega), if_neg (by omega), if_neg (by omega), if_neg (by omega)]

theorem le_capacityOf (sr : F64) : 1024 ≤ capacityOf sr := Nat.le_max_left _ _

/-- All a CONFIGURE that is executed can do (R130). -/
theorem configure_cases (ch : Half) (lo hi : Word) (s : State) :
    (checkConfig (sampleRateOf lo hi) ch.toNat = .enabled ∧ configure ch lo hi s =
      startSession (sampleRateOf lo hi) ch.toNat (resetSession (s.setSampleRate lo hi))) ∨
    (checkConfig (sampleRateOf lo hi) ch.toNat ≠ .enabled ∧ configure ch lo hi s =
      endSession (checkConfig (sampleRateOf lo hi) ch.toNat) (resetSession (s.setSampleRate lo hi))) := by
  unfold configure
  cases h : checkConfig (sampleRateOf lo hi) ch.toNat
  case enabled => exact .inl ⟨rfl, rfl⟩
  all_goals exact .inr ⟨by simp, rfl⟩

/-- A session's end keeps the invariant, whatever the cursors were. -/
theorem inv_endSession {s : State} (hp : s.ParamsLegal) (hw : CellsWf (0 : Word) s.wptr)
    (hk : ∀ e ∈ s.wptr, e.1 < maxChannels) {code : StateCode} (hc : code ≠ .enabled) :
    (endSession code s).Inv where
  params := ⟨hp.rate, hp.depth, hp.mix⟩
  extent := ⟨fun h => absurd h hc, fun h => absurd h hc, fun h => absurd h hc, fun _ => ⟨rfl, rfl⟩⟩
  canonical := ⟨cellsWf_nil, hw, hk, fun _ he => nomatch he⟩

/-- A session's start makes the invariant, from any state with legal parameters and its cursors cleared. -/
theorem inv_startSession {s : State} (hp : s.ParamsLegal) {sr : F64} {ch : Half}
    (hc : checkConfig sr ch.toNat = .enabled) (hw : s.wptr = []) : (startSession sr ch.toNat s).Inv := by
  obtain ⟨-, -, -, h4, h5, -, h7⟩ := (checkConfig_enabled_iff sr ch.toNat).1 hc
  have hcap := le_capacityOf sr
  have hmax := maxCapacity_bounds
  have hmc := maxChannels_bounds
  have ec : (startSession sr ch.toNat s).capacity.toNat = capacityOf sr := by
    show (BitVec.ofNat 32 (capacityOf sr)).toNat = _
    rw [BitVec.toNat_ofNat]; exact Nat.mod_eq_of_lt (by omega)
  have eh : (startSession sr ch.toNat s).channels.toNat = ch.toNat := by
    show (BitVec.ofNat 32 ch.toNat).toNat = _
    rw [BitVec.toNat_ofNat]; exact Nat.mod_eq_of_lt (by omega)
  refine ⟨⟨hp.rate, hp.depth, hp.mix⟩, ⟨fun _ => ?_, fun _ => ?_, fun _ c _ => ?_, fun h => absurd rfl h⟩, ?_⟩
  · rw [ec]; omega
  · rw [eh]; omega
  · have : (startSession sr ch.toNat s).cursor c = 0 := by
      show cellsGet 0 s.wptr c = 0
      rw [hw]; rfl
    rw [this, ec]; show 0 < _; omega
  · refine ⟨cellsWf_nil, ?_, ?_, fun _ he => nomatch he⟩
    · show CellsWf (0 : Word) s.wptr
      rw [hw]; exact cellsWf_nil
    · show ∀ e ∈ s.wptr, e.1 < maxChannels
      rw [hw]; exact fun _ he => nomatch he

theorem inv_configure {s : State} (h : s.Inv) (ch : Half) (lo hi : Word) : (configure ch lo hi s).Inv := by
  have hp : (resetSession (s.setSampleRate lo hi)).ParamsLegal := ⟨h.params.rate, h.params.depth, h.params.mix⟩
  rcases configure_cases ch lo hi s with ⟨hc, e⟩ | ⟨hc, e⟩ <;> rw [e]
  · exact inv_startSession hp hc rfl
  · exact inv_endSession hp cellsWf_nil (fun _ he => nomatch he) hc

/-! ### Processing -/

theorem inv_oscStep {s : State} (h : s.Inv) : (oscStep s).Inv :=
  inv_congr h (by simp) (by simp) (by simp) (by simp) (by simp) (by simp) (by simp) (by simp)

/-- A lane of a channel of the session keeps the invariant. -/
theorem inv_laneState {s : State} (h : s.Inv) (he : s.state = .enabled) {c : Nat} (x : F32)
    (hc : c < s.channels.toNat) : (laneState c x s).Inv := by
  have hl := h.sessionLegal he
  have hs := sessionLegal_laneState hl c x
  have hch := h.extent.channels he
  have hmc := maxChannels_bounds
  refine ⟨⟨?_, ?_, ?_⟩, ⟨fun _ => ?_, fun _ => ?_, fun _ => ?_, fun hn => ?_⟩, ⟨?_, hs.wptr, ?_, ?_⟩⟩
  · rw [laneState_rate]; exact h.params.rate
  · rw [laneState_depth]; exact h.params.depth
  · rw [laneState_mix]; exact h.params.mix
  · rw [laneState_capacity]; exact h.extent.capacity he
  · rw [laneState_channels]; exact hch
  · exact hs.cursors
  · rw [laneState_state] at hn; exact absurd he hn
  · rw [laneState_mem]; exact writeWord_wf h.canonical.mem _ _
  · rw [laneState_wptr]
    intro e hm
    rcases mem_cellsSet hm with hm | ⟨rfl, -⟩
    · exact h.canonical.wptrKeys e hm
    · exact lt_of_lt_of_le hc hch.2
  · intro e hm
    have ha : ∀ c' i, (laneState c x s).active c' i = s.active c' i := by
      intro c' i; unfold State.active; rw [laneState_channels, laneState_capacity]
    rw [ha]
    rw [laneState_mem] at hm
    rcases mem_writeWord hm with hm | ⟨h1, h2⟩
    · exact h.canonical.memKeys e hm
    · have hw := hl.cursors c hc
      have hcap := hl.cap_hi
      unfold cellAddr at h1 h2
      have e1 : e.1 / 4 / 4294967296 = c := by omega
      have e2 : e.1 / 4 % 4294967296 = (s.cursor c).toNat := by omega
      rw [e1, e2]
      exact active_iff.2 ⟨hc, hw⟩

theorem inv_frameState {s : State} (h : s.Inv) (xs : List F32) : (frameState xs s).Inv :=
  frameState_keeps (P := State.Inv) (fun _ _ h => inv_oscStep h) (fun _ x _ he hc h => inv_laneState h he x hc)
    xs s h

theorem inv_framesState {s : State} (h : s.Inv) (b n : Nat) (xs : List F32) : (framesState b n xs s).Inv :=
  framesState_keeps (P := State.Inv) b (fun xs _ h => inv_frameState h xs) n xs s h

end Sys2Proof.Machine
end

