-- ==== Sys2Proof/Laws/Lines.lean ====
section
/-!
SUPPORT. What the delay lines and the cursors hold after a word write, a lane, a frame and a block (spec/20_memory.md R42,
R43; spec/40_delay_line.md R76 to R81).
-/

namespace Sys2Proof.Machine

/-! ### One cell -/

/-- R42, R43: a word written to an active cell is that cell's word. -/
theorem cell_writeWord_same {s : State} (hm : Memory.wf s.mem) {c i : Nat} (v : Word) (ha : s.active c i = true) :
    (s.setMem (s.mem.writeWord (cellAddr c i) v)).cell c i = some v := by
  unfold State.cell
  rw [active_setMem, if_pos ha, State.setMem_mem, readWord_writeWord_same hm]

/-- R43: a word write changes no other cell. -/
theorem cell_writeWord_other {s : State} {c i : Nat} (v : Word) (hi : i < 4294967296) {c' i' : Nat} (h :
    c' ≠ c ∨ i' ≠ i) :
    (s.setMem (s.mem.writeWord (cellAddr c i) v)).cell c' i' = s.cell c' i' := by
  unfold State.cell
  rw [active_setMem]
  split
  · next ha =>
    have h1 := (active_iff.1 ha).2
    have h2 := s.capacity.isLt
    rw [State.setMem_mem, readWord_writeWord_other _ _ (cellAddr_ne hi (by omega)
        (by rcases h with h | h; exact .inl (Ne.symm h); exact .inr (Ne.symm h)))]
  · rfl

/-- R110: the cell a lane writes. -/
theorem laneState_cell_same {s : State} (hm : Memory.wf s.mem) {c : Nat} (x : F32) (ha :
    s.active c (s.cursor c).toNat = true) :
  (laneState c x s).cell c (s.cursor c).toNat = some (attenuated (s.nanDraw + 6) x) := by
  have := cell_writeWord_same hm (attenuated (s.nanDraw + 6) x) ha
  unfold State.cell at this ⊢
  rw [laneState_active, laneState_mem]
  exact this

/-- R110: the cells a lane leaves alone. -/
theorem laneState_cell_other {s : State} {c : Nat} (x : F32) {c' i : Nat} (h : c' ≠ c ∨ i ≠ (s.cursor c).toNat) :
  (laneState c x s).cell c' i = s.cell c' i := by
  have hw := (s.cursor c).isLt
  have := cell_writeWord_other (s := s) (attenuated (s.nanDraw + 6) x) (i := (s.cursor c).toNat) (by omega) h
  unfold State.cell at this ⊢
  rw [laneState_active, laneState_mem]
  exact this

/-! ### A frame -/

theorem frameState_state (xs s) : (frameState xs s).state = s.state := by unfold frameState; split <;> simp
theorem frameState_channels (xs s) : (frameState xs s).channels = s.channels := by unfold frameState; split <;> simp
theorem frameState_capacity (xs s) : (frameState xs s).capacity = s.capacity := by unfold frameState; split <;> simp

theorem frameState_cursor (xs : List F32) {s : State} (hl : s.SessionLegal) (he : s.state = .enabled) (c : Nat) :
    ((frameState xs s).cursor c).toNat =
   if c < xs.length ∧ c < s.channels.toNat then ((s.cursor c).toNat + 1) % s.capacity.toNat else (s.cursor c).toNat := by
  unfold frameState
  split
  · rw [lanesState_cursor xs 0 _ c (by simpa using hl.wptr) (by have := hl.cap_lo; simp; omega)]
    simp
  · next hp =>
    rw [if_neg]
    rintro ⟨h1, h2⟩
    exact hp (processes_iff.2 ⟨he, by omega, by omega⟩)

theorem frameState_respOut (xs u) : (frameState xs u).respOut = u.respOut := by unfold frameState; split <;> simp
theorem frameState_badCmd (xs u) : (frameState xs u).badCmd = u.badCmd := by
  refine frameState_keeps (P := fun t => t.badCmd = u.badCmd) ?_ ?_ xs u rfl
  · intro s _ h; exact h
  · intro c x s _ _ h; rw [← h]; rfl

/-- The cursors a frame leaves alone. -/
theorem frameState_cursor_ge {xs s c} (h : xs.length ≤ c ∨ s.channels.toNat ≤ c) : (frameState xs s).cursor c =
    s.cursor c := by
  unfold frameState
  split
  · have key : ∀ (xs : List F32) (d : Nat) (u : State), (d + xs.length ≤ c ∨ u.channels.toNat ≤ c)
      → (lanesState d xs u).cursor c = u.cursor c := by
      intro xs
      induction xs with
      | nil => intro d u _; rfl
      | cons x xs ih =>
        intro d u hu
        rw [lanesState]
        rw [List.length_cons] at hu
        by_cases hd : d < u.channels.toNat
        · rw [if_pos hd, ih (d+1) _ (by rw [laneState_channels]; omega), laneState_cursor_other d x u (by omega)]
        · rw [if_neg hd, ih (d+1) _ (by omega)]
    rw [key xs 0 _ (by simpa using h)]; simp
  · rfl

/-- The bytes a frame leaves alone. -/
theorem frameState_readByte {xs s a} (h : ∀ d, d < xs.length → d < s.channels.toNat
    → a < cellAddr d (s.cursor d).toNat ∨ cellAddr d (s.cursor d).toNat + 4 ≤ a) :
   (frameState xs s).mem.readByte a = s.mem.readByte a := by
  unfold frameState
  split
  · rw [lanesState_readByte xs 0 (oscStep s) a (fun d _ h2 h3 => h d (by omega) h3)]; rw [oscStep_mem]
  · rfl

/-! ### A block -/

/-- R80: what the frames of a block do to the cursors. -/
theorem framesState_cursor {b : Nat} : ∀ (n : Nat) (xs : List F32) (s : State), s.SessionLegal → s.state = .enabled
    → xs.length = n * b → ∀ c, ((framesState b n xs s).cursor c).toNat =
        if c < b ∧ c < s.channels.toNat then ((s.cursor c).toNat + n) % s.capacity.toNat
        else (s.cursor c).toNat := by
  intro n
  induction n with
  | zero =>
    intro xs s hl he hx c
    simp only [framesState]
    split
    · next h => rw [Nat.add_zero, Nat.mod_eq_of_lt (hl.cursors c h.2)]
    · rfl
  | succ n ih =>
    intro xs s hl he hx c
    have e : (n + 1) * b = n * b + b := Nat.succ_mul n b
    rw [framesState, ih _ _ (sessionLegal_frameState hl _) (by rw [frameState_state, he])
        (by rw [List.length_drop]; omega), frameState_channels, frameState_capacity, frameState_cursor _ hl he,
        List.length_take, Nat.min_eq_left (by omega)]
    split
    · next h => simp only [Nat.mod_add_mod]; congr 1; omega
    · rfl

/-- R122(a), R123: frames that process nothing pass through. -/
theorem frames_passThrough {b : Nat} : ∀ (n : Nat) (xs : List F32) (s : State), s.processes b =
    false ∨ s.state ≠ .enabled → xs.length = n * b → frames b n xs s = .ok (s, xs) := by
  intro n
  induction n with
  | zero => intro xs s _ h; have : xs = [] := List.length_eq_zero_iff.1 (by omega); subst this; rfl
  | succ n ih =>
    intro xs s hs hx
    have e : (n + 1) * b = n * b + b := Nat.succ_mul n b
    have hp : s.processes (xs.take b).length = false := by
      rw [List.length_take, Nat.min_eq_left (by omega)]
      rcases hs with h | h
      · exact h
      · cases hq : s.processes b
        · rfl
        · exact absurd (processes_iff.1 hq).1 h
    simp only [frames, frame_off hp, ih (xs.drop b) s hs (by rw [List.length_drop]; omega), List.take_append_drop]

/-! ### Responses already out change nothing -/

theorem lane_respond (c : Nat) (x : F32) (s : State) (ws) : lane c x (s.respond ws) =
    (lane c x s).map (fun p => (p.1.respond ws, p.2)) := by
  have hpos : lanePosition c (s.respond ws) = lanePosition c s := rfl
  by_cases ha : s.active c (s.cursor c).toNat = true
  · cases hf : floorInt (lanePosition c s) with
    | none => rw [lane_none x ha hf, lane_none (s := s.respond ws) x ha hf]; rfl
    | some idx =>
      rw [lane_some x ha hf, lane_some (s := s.respond ws) x ha hf]
      have e1 : laneState c x (s.respond ws) = (laneState c x s).respond ws := rfl
      have e2 : laneResult c x (s.respond ws) idx = laneResult c x s idx := rfl
      rw [e1, e2]; rfl
  · rw [lane_inactive x ha, lane_inactive (s := s.respond ws) x ha]; rfl

theorem lanesFrom_respond (xs : List F32) (ws) : ∀ (c : Nat) (s : State), lanesFrom c xs (s.respond ws) =
    (lanesFrom c xs s).map (fun p => (p.1.respond ws, p.2)) := by
  induction xs with
  | nil => intro c s; rfl
  | cons x xs ih =>
    intro c s
    simp only [lanesFrom]
    by_cases hc : c < s.channels.toNat
    · rw [if_pos (show c < (s.respond ws).channels.toNat from hc), if_pos hc]; rw [lane_respond]
      cases h : lane c x s with
      | error f => rfl
      | ok p =>
        obtain ⟨s1, y⟩ := p
        simp only [Except.map]
        rw [ih]
        cases h2 : lanesFrom (c+1) xs s1 with
        | error f => rfl
        | ok p => rfl
    · rw [if_neg (show ¬ c < (s.respond ws).channels.toNat from hc), if_neg hc, ih]
      cases h2 : lanesFrom (c+1) xs s with
        | error f => rfl
        | ok p => rfl

theorem frame_respond (xs : List F32) (ws) (s : State) : frame xs (s.respond ws) =
    (frame xs s).map (fun p => (p.1.respond ws, p.2)) := by
  unfold frame
  rw [show (s.respond ws).processes xs.length = s.processes xs.length from rfl]
  split
  · rw [show oscStep (s.respond ws) = (oscStep s).respond ws from rfl, lanesFrom_respond]
  · rfl

theorem frames_respond {b : Nat} (ws) : ∀ (n : Nat) (xs : List F32)  (s : State), frames b n xs (s.respond ws) =
    (frames b n xs s).map (fun p => (p.1.respond ws, p.2)) := by
  intro n
  induction n with
  | zero => intro xs s; rfl
  | succ n ih =>
    intro xs s
    simp only [frames]
    rw [frame_respond]
    cases h : frame (xs.take b) s with
    | error f => rfl
    | ok p =>
      obtain ⟨s1, y⟩ := p
      simp only [Except.map]
      rw [ih]
      cases h2 : frames b n (xs.drop b) s1 with
      | error f => rfl
      | ok p => rfl

end Sys2Proof.Machine
end

