-- ==== Sys2Proof/Laws/Independence.lean ====
section
/-!
SUPPORT. Channel independence (spec/20_memory.md R54): what a lane answers, and what it does to its own channel, depends on
that channel's cursor and cells and on the shared registers alone; and where a frame leaves each channel.
-/

namespace Sys2Proof.Machine

/-- Two states agree in all that a lane of channel `c` reads. -/
structure AgreeAt (c : Nat) (u v : State) : Prop where
  cursor : u.cursor c = v.cursor c
  capacity : u.capacity = v.capacity
  channels : u.channels = v.channels
  sr32 : u.sr32 = v.sr32
  depth : u.depth = v.depth
  mix : u.mix = v.mix
  smooth : u.smooth = v.smooth
  nanDraw : u.nanDraw = v.nanDraw
  cells : ∀ i, u.cell c i = v.cell c i

/-- R54: a lane does the same in two states that agree at its channel. -/
theorem lane_congr {c : Nat} {u v : State} (x : F32) (h : AgreeAt c u v) {p : State × F32} (hu : lane c x u = .ok p)
    (hmu : Memory.wf u.mem) (hmv : Memory.wf v.mem)
  (hwu : CellsWf (0 : Word) u.wptr) (hwv : CellsWf (0 : Word) v.wptr) :
   ∃ t, lane c x v = .ok (t, p.2) ∧ p.1.cursor c = t.cursor c ∧ ∀ i, p.1.cell c i = t.cell c i := by
  obtain ⟨h1, h2, h3, idx, h4, h5⟩ := lane_cases (t := p.1) (y := p.2) hu
  have hpos : lanePosition c v = lanePosition c u := by
    unfold lanePosition laneDelay; rw [h.cursor, h.capacity, h.sr32, h.depth, h.smooth, h.nanDraw]
  have hactu : u.active c (u.cursor c).toNat = true := active_iff.2 ⟨h1, h2⟩
  have hactv : v.active c (v.cursor c).toNat = true := by
    rw [active_iff, ← h.channels, ← h.cursor, ← h.capacity]
    exact ⟨h1, h2⟩
  have hlane := lane_some x hactv (by rw [hpos]; exact h4)
  have hcell : ∀ i, (laneWritten c x u).cell c i = (laneWritten c x v).cell c i := by
    intro i
    unfold laneWritten
    by_cases hi : i = (u.cursor c).toNat
    · subst hi
      rw [cell_writeWord_same hmu _ hactu, h.cursor, cell_writeWord_same hmv _ hactv, h.nanDraw]
    · have hu := (u.cursor c).isLt
      have hv := (v.cursor c).isLt
      rw [cell_writeWord_other _ (by omega) (.inr hi), cell_writeWord_other _ (by omega) (.inr (h.cursor ▸ hi))]
      exact h.cells i
  have hword : ∀ i, i < u.capacity.toNat → (laneWritten c x u).mem.readWord (cellAddr c i) =
      (laneWritten c x v).mem.readWord (cellAddr c i) := by
    intro i hi
    have := hcell i
    unfold State.cell at this
    have a1 : (laneWritten c x u).active c i = true := active_iff.2 ⟨h1, hi⟩
    have a2 : (laneWritten c x v).active c i = true := active_iff.2 ⟨h.channels ▸ h1, h.capacity ▸ hi⟩
    rw [if_pos a1, if_pos a2] at this
    exact Option.some.inj this
  have htaps : tapsAt c idx (laneWritten c x u) = tapsAt c idx (laneWritten c x v) := by
    have hcap : 0 < u.capacity.toNat := by omega
    unfold tapsAt
    have ec : (laneWritten c x u).capacity = u.capacity := rfl
    have ec' : (laneWritten c x v).capacity = u.capacity := h.capacity.symm
    rw [ec, ec', hword _ (tapIndex_lt hcap idx 0), hword _ (tapIndex_lt hcap idx 1),
        hword _ (tapIndex_lt hcap idx 2), hword _ (tapIndex_lt hcap idx 3)]
  refine ⟨laneState c x v, ?_, ?_, ?_⟩
  · rw [hlane, h5]
    congr 2
    unfold laneResult
    rw [htaps, hpos, h.nanDraw, h.depth, h.mix]
  · rw [h3]
    apply BitVec.eq_of_toNat_eq
    rw [laneState_cursor_same c x hwu (by omega), laneState_cursor_same c x hwv (by rw [← h.capacity]; omega),
        h.cursor, h.capacity]
  · intro i
    rw [h3]
    have := hcell i
    unfold State.cell at this ⊢
    exact this

/-- R120: the lanes of a frame, each as if it ran alone. -/
theorem lanes_each (xs : List F32) : ∀ (c0 : Nat) (s t : State) (ys : List F32), s.Inv → s.state = .enabled
    → lanesFrom c0 xs s = .ok (t, ys) →
   (∀ k x, xs[k]? = some x → s.channels.toNat ≤ c0 + k → ys[k]? = some x) ∧
   (∀ k x, xs[k]? = some x → c0 + k < s.channels.toNat → ∃ u y, lane (c0 + k) x (s.draw (laneDraws * k)) = .ok (u,
       y) ∧ ys[k]? = some y ∧
       t.cursor (c0 + k) = u.cursor (c0 + k) ∧ ∀ i, t.cell (c0+k) i = u.cell (c0 + k) i) ∧
   (∀ d, d < c0 ∨ c0 + xs.length ≤ d → t.cursor d = s.cursor d ∧ ∀ i, t.cell d i = s.cell d i) := by
  induction xs with
  | nil =>
    intro c0 s t ys hi he h
    simp only [lanesFrom, Except.ok.injEq, Prod.mk.injEq] at h
    obtain ⟨rfl, rfl⟩ := h
    exact ⟨fun k x h => by simp at h, fun k x h => by simp at h, fun d _ => ⟨rfl, fun _ => rfl⟩⟩
  | cons x xs ih =>
    intro c0 s t ys hi he h
    simp only [lanesFrom] at h
    split at h
    · next hc =>
      split at h
      · contradiction
      · next s1 y hl =>
        split at h
        · contradiction
        · next s2 zs hls =>
          simp only [Except.ok.injEq, Prod.mk.injEq] at h
          obtain ⟨rfl, rfl⟩ := h
          obtain ⟨l1, l2, l3, idx, l4, l5⟩ := lane_cases hl
          have hi1 : s1.Inv := by rw [l3]; exact inv_laneState hi he x hc
          have he1 : s1.state = .enabled := by rw [l3, laneState_state, he]
          have hch : s1.channels = s.channels := by rw [l3, laneState_channels]
          obtain ⟨i1, i2, i3⟩ := ih (c0 + 1) s1 s2 zs hi1 he1 hls
          rw [hch] at i1 i2
          refine ⟨?_, ?_, ?_⟩
          · intro k z hk hle
            cases k with
            | zero => simp only [Nat.add_zero] at hle; omega
            | succ k => simpa using i1 k z (by simpa using hk) (by omega)
          · intro k z hk hlt
            cases k with
            | zero =>
              simp only [List.getElem?_cons_zero, Option.some.injEq] at hk
              subst hk
              have := i3 c0 (.inl (by omega))
              exact ⟨s1, y, hl, rfl, this.1, this.2⟩
            | succ k =>
              obtain ⟨u, w, a, b, e, f⟩ := i2 k z (by simpa using hk) (by omega)
              have hag : AgreeAt (c0 + 1 + k) (s1.draw (laneDraws * k)) (s.draw (laneDraws * (k + 1))) := by
                rw [l3]
                exact ⟨by rw [cursor_draw, cursor_draw]; exact laneState_cursor_other c0 x s (by omega), by simp,
                    by simp, by simp, by simp, by simp, by simp, by simp [Nat.mul_add]; omega,
                    fun i => laneState_cell_other (s := s) x (.inl (by omega))⟩
              obtain ⟨v, v1, v2, v3⟩ :=
                  lane_congr z hag a hi1.canonical.mem hi.canonical.mem hi1.canonical.wptr hi.canonical.wptr
              have ek : c0 + 1 + k = c0 + (k + 1) := by omega
              rw [ek] at v1 v2 v3 e f
              exact ⟨v, w, v1, by simpa using b, by rw [e, v2], fun i => by rw [f i, v3 i]⟩
          · intro d hd
            have := i3 d (by simp at hd; omega)
            rw [this.1]
            refine ⟨?_, fun i => ?_⟩
            · rw [l3]; exact laneState_cursor_other c0 x s (by simp at hd; omega)
            · rw [this.2 i, l3]; exact laneState_cell_other x (.inl (by simp at hd; omega))
    · next hc =>
      split at h
      · contradiction
      · next s2 zs hls =>
        simp only [Except.ok.injEq, Prod.mk.injEq] at h
        obtain ⟨rfl, rfl⟩ := h
        obtain ⟨i1, i2, i3⟩ := ih (c0 + 1) s s2 zs hi he hls
        refine ⟨?_, ?_, ?_⟩
        · intro k z hk hle
          cases k with
          | zero => simpa using hk
          | succ k => simpa using i1 k z (by simpa using hk) (by omega)
        · intro k z hk hlt
          omega
        · intro d hd
          exact i3 d (by simp at hd; omega)

end Sys2Proof.Machine
end

