-- ==== Sys2Proof/Laws/PerInstr.lean ====
section
/-!
SUPPORT. A statement about every command as syntax, made per constructor: the length of a command is a function of its
header alone (spec/30_encoding.md R66).
-/

namespace Sys2Proof.Laws.CommandLength

/-- R57, R66: a well-formed command is encoded as a header with a legal opcode and as many operand words as that header
announces. -/
def Statement (i : Instr) : Prop :=
  i.wellFormed = true → ∃ h args, encode i = h :: args ∧ illegalOp (headerOf h).op = false ∧
    args.length = opsCount (headerOf h)

/-- A command whose words are a header built from its fields and its operands has the statement's form. -/
theorem of_header {i : Instr} {op r : Byte} {imm : Half} {args : List Word}
    (he : encode i = headerWord op r imm :: args) (hop : illegalOp op = false)
    (hl : args.length = opsCount ⟨op, r, imm⟩) : Statement i := fun _ =>
  ⟨_, args, he, by rw [headerOf_headerWord]; exact hop, by rw [headerOf_headerWord]; exact hl⟩

theorem configure (r : Byte) (ch : Half) (srLo srHi : Word) : Statement (.configure r ch srLo srHi) :=
  of_header (args := [srLo, srHi]) rfl (by decide) rfl

theorem release (r : Byte) (imm : Half) : Statement (.release r imm) :=
  of_header (args := []) rfl (by decide) rfl

theorem writeReg (reg : Byte) (imm : Half) (v : Word) : Statement (.writeReg reg imm v) :=
  of_header (args := [v]) rfl (by decide) rfl

theorem readReg (reg : Byte) (idx : Half) : Statement (.readReg reg idx) :=
  of_header (args := []) rfl (by decide) rfl

theorem processFrame (r : Byte) (xs : List Word) : Statement (.processFrame r xs) := by
  intro h
  refine of_header (args := xs) rfl (by decide) ?_ h
  simp only [Instr.wellFormed, decide_eq_true_eq] at h
  rw [opsCount_processFrame, BitVec.toNat_ofNat]
  exact (Nat.mod_eq_of_lt h).symm

theorem processBlock (b : Byte) (n : Half) (xs : List Word) : Statement (.processBlock b n xs) := by
  intro h
  refine of_header (args := xs) rfl (by decide) ?_ h
  simp only [Instr.wellFormed, decide_eq_true_eq] at h
  exact h

theorem readDl (r : Byte) (ch : Half) (i : Word) : Statement (.readDl r ch i) :=
  of_header (args := [i]) rfl (by decide) rfl

end Sys2Proof.Laws.CommandLength
end

