-- ==== Sys2Proof/Laws/RoundedOnce.lean ====
section
/-!
SUPPORT. That `round32` is one rounding in the sense of `RoundedOnce` (spec/00_scope.md R12, R14): nearest, ties to
even, overflow from the midpoint on, the sign of the number.
-/

namespace Sys2Proof.Machine

/-- A distance of naturals, with no sign in it. -/
theorem abs_sub_natCast (x n : Nat) : |(x : Int) - n| = ((x - n : Nat) : Int) + ((n - x : Nat) : Int) := by
  rcases Nat.le_total x n with h | h
  · rw [abs_of_nonpos (by omega)]; omega
  · rw [abs_of_nonneg (by omega)]; omega

/-- R12: of two magnitudes the rounded one is at least as near, and even if another is as near. -/
theorem round32_nearest {n d : Nat} (hd : 0 < d) (h : round32 n d < infMag) (c : Nat) :
    |((d * unitsOf (round32 n d) : Nat) : Int) - n| ≤ |((d * unitsOf c : Nat) : Int) - n| ∧
      (|((d * unitsOf (round32 n d) : Nat) : Int) - n| = |((d * unitsOf c : Nat) : Int) - n| →
        c ≠ round32 n d → round32 n d % 2 = 0) := by
  obtain ⟨a, r, e, h1, h2, h3⟩ := round32_bracket n hd
  have er : round32 n d = r := by omega
  rw [er]
  have hc : (d * unitsOf c ≤ d * unitsOf a ∧ (d * unitsOf c = d * unitsOf a → c = a)) ∨
      (d * unitsOf (a+1) ≤ d * unitsOf c ∧ (d * unitsOf c = d * unitsOf (a+1) → c = a+1)) := by
    have inj : ∀ x y, d * unitsOf x = d * unitsOf y → x = y := by
      intro x y h
      have h := Nat.eq_of_mul_eq_mul_left hd h
      rcases Nat.lt_trichotomy x y with g | g | g
      · have := unitsOf_strictMono g; omega
      · exact g
      · have := unitsOf_strictMono g; omega
    rcases Nat.lt_or_ge a c with g | g
    · right; exact ⟨Nat.mul_le_mul_left _ (unitsOf_mono g), inj _ _⟩
    · left; exact ⟨Nat.mul_le_mul_left _ (unitsOf_mono g), inj _ _⟩
  rw [abs_sub_natCast, abs_sub_natCast]
  generalize hB : d * unitsOf (a + 1) = B at *
  generalize hA : d * unitsOf a = A at *
  generalize d * unitsOf c = C at *
  clear e er
  rcases h3 with ⟨rfl, h3⟩ | ⟨rfl, h3⟩
  · rw [hA]; constructor
    · omega
    · intro g k; omega
  · rw [hB]; constructor
    · omega
    · intro g k; omega

/-- R12: one rounding overflows exactly from `T` on, the midpoint of the greatest finite value and the next power of 2. -/
theorem round32_overflow {n d T : Nat} (hd : 0 < d) (hT : unitsOf infMag = T + 2 ^ 252)
    (hT1 : unitsOf (infMag - 1) + 2 ^ 252 = T) : round32 n d = infMag ↔ d * T ≤ n := by
  obtain ⟨a, r, e, h1, h2, h3⟩ := round32_bracket n hd
  have hp : 0 < d * 2 ^ 252 := by positivity
  have u0 : d * unitsOf infMag = d * T + d * 2 ^ 252 := by rw [hT, mul_add]
  have u1 : d * unitsOf (infMag - 1) + d * 2 ^ 252 = d * T := by rw [← hT1, mul_add]
  clear hT hT1
  have m : ∀ {x y}, x ≤ y → d * unitsOf x ≤ d * unitsOf y := fun h => Nat.mul_le_mul_left _ (unitsOf_mono h)
  have hi : infMag % 2 = 0 ∧ 0 < infMag := by decide
  generalize hP : d * 2 ^ 252 = P at *
  generalize infMag = I at *
  rcases Nat.lt_trichotomy a (I - 1) with g | g | g
  · have := m (show a + 1 ≤ I - 1 by omega)
    generalize d * unitsOf (a+1) = B at *
    generalize d * unitsOf (I-1) = A at *
    generalize d * unitsOf a = A' at *
    generalize d * T = T' at *
    clear m hP u0
    omega
  · subst g
    rw [show I - 1 + 1 = I by omega, u0] at h2 h3
    generalize d * unitsOf (I-1) = A at *
    generalize d * T = T' at *
    clear m hP u0
    omega
  · have := m (show I ≤ a by omega)
    generalize d * unitsOf (I) = B at *
    generalize d * unitsOf (a+1) = B' at *
    generalize d * unitsOf a = A at *
    generalize d * T = T' at *
    clear m hP
    omega

theorem unitsOf_infMag : unitsOf infMag = 33554431 * 2 ^ 252 + 2 ^ 252 := by decide +kernel
theorem unitsOf_greatest : unitsOf (infMag - 1) + 2 ^ 252 = 33554431 * 2 ^ 252 := by decide +kernel

/-- R12: the encoding of a rounded magnitude, under a sign, is the signed number rounded once. -/
theorem roundedOnce_pack (s : Bool) (n : Nat) {d : Nat} (hd : 0 < d) :
    RoundedOnce (if s then -(n : Int) else n) d (packF32 s (round32 n d)) := by
  have hl := round32_le_infMag n d
  have hlt : round32 n d < 2147483648 := lt_of_le_of_lt hl (by decide)
  have hz : |(if s then -(n : Int) else n)| = n := by cases s <;> simp
  have hv : valueUnits (packF32 s (round32 n d)) =
      (if s then -(unitsOf (round32 n d) : Int) else unitsOf (round32 n d)) := by
    unfold valueUnits; rw [signBit_packF32 hlt, magBits_packF32 hlt]
  have e1 : |(d : Int) * (if s then -(unitsOf (round32 n d) : Int) else unitsOf (round32 n d)) -
      (if s then -(n : Int) else n)| = |((d * unitsOf (round32 n d) : Nat) : Int) - n| := by
      cases s
      · simp
      · simp only [if_true]; exact abs_eq_abs.2 (Or.inr (by push_cast; ring))
  have th := round32_overflow (n := n) hd unitsOf_infMag unitsOf_greatest
  unfold RoundedOnce
  rw [hv, signBit_packF32 hlt, magBits_packF32 hlt, hz]
  refine ⟨isNaN_packF32 hl, fun h c hc => ?_, fun h c hc => ?_, ?_, fun h => ?_⟩
  · rw [e1]
    have h1 := round32_nearest hd h (magBits c)
    have h0 := round32_nearest hd h 0
    have u0 : unitsOf 0 = 0 := by simp [unitsOf]
    rw [u0, Nat.mul_zero] at h0
    by_cases hs : signBit c = s
    · have e2 : |(d : Int) * valueUnits c - (if s then -(n : Int) else n)| =
          |((d * unitsOf (magBits c) : Nat) : Int) - n| := by
        unfold valueUnits; rw [hs]
        cases s
        · simp
        · simp only [if_true]; exact abs_eq_abs.2 (Or.inr (by push_cast; ring))
      rw [e2]
      refine ⟨h1.1, fun ht hne => h1.2 ht ?_⟩
      intro hu
      apply hne; unfold valueUnits; rw [hs, hu]
    · have e2 : |(d : Int) * valueUnits c - (if s then -(n : Int) else n)| =
          ((d * unitsOf (magBits c) + n : Nat) : Int) := by
        have hs' : signBit c = !s := by cases s <;> simp_all
        unfold valueUnits; rw [hs']
        have hp : (0:Int) ≤ d * unitsOf (magBits c) := by positivity
        clear e1 hv h1 h0 th h
        generalize (unitsOf (magBits c)) = u at *
        cases s <;> simp only [if_true, Bool.false_eq_true, if_false, Bool.not_true, Bool.not_false]
        · rw [abs_of_nonpos (by linarith)]; push_cast; ring
        · rw [abs_of_nonneg (by linarith)]; push_cast; ring
      rw [e2]
      rw [abs_sub_natCast] at h0 h1 ⊢
      rw [abs_sub_natCast 0 n] at h0
      generalize d * unitsOf (magBits c) = C at *
      refine ⟨by omega, fun ht hne => ?_⟩
      by_cases hr : round32 n d = 0
      · omega
      · apply h0.2 ?_ (fun h => hr h.symm)
        have := h0.1
        omega
  · rw [th] at h
    have h3 : d * valueUnits c = if signBit c then -((d * unitsOf (magBits c) : Nat) : Int)
        else ((d * unitsOf (magBits c) : Nat) : Int) := by
      unfold valueUnits; split <;> push_cast <;> ring
    have h4 : |(d : Int) * valueUnits c| = ((d * unitsOf (magBits c) : Nat) : Int) := by
      rw [h3]; split
      · rw [abs_neg]; exact abs_of_nonneg (by omega)
      · exact abs_of_nonneg (by omega)
    rw [h4]
    have h5 : d * unitsOf (magBits c) < d * (33554431 * 2 ^ 252) := by
      apply Nat.mul_lt_mul_of_pos_left _ hd
      rw [← unitsOf_greatest]
      have := unitsOf_mono (show magBits c ≤ infMag - 1 by omega)
      have hp : 0 < 2 ^ 252 := by positivity
      generalize 2 ^ 252 = P at *
      omega
    exact_mod_cast lt_of_lt_of_le h5 h
  · rw [th]; constructor <;> intro h <;> exact_mod_cast h
  · cases s
    · simp
    · simp only [if_true] at h ⊢; exact (decide_eq_true (by omega)).symm

end Sys2Proof.Machine
end

