-- ==== Sys2Proof/Tests/Slice0.lean ====
section
/-!
SUPPORT. The model's own tests, one step each, with results taken from the spec's examples and vectors
(spec/95_test_vectors.md and the rules' own examples), and for every statement with hypotheses a concrete state and
operands that meet them.
-/

namespace Sys2Proof.Tests

open Sys2Proof.Machine

/-- What a step that answers a next state leaves, as far as a test looks at it. -/
def peek {α : Type} (o : Host.Outcome State Fault Refusal) (f : State → α) : Option α :=
  match o with
  | .next t => some (f t)
  | .fault _ => none
  | .refused _ => none

/-- A session of one channel at 8000 Hz: its capacity is 1024, which every implementation has (R131). -/
def session : State :=
  { State.reset with state := .enabled, capacity := 1024, channels := 1, srHi := 0x40BF4000#32,
                     sr32 := 0x45FA0000#32 }

/-- A session at 4 Hz whose next oscillator step ends at phase `+0`, where the sine is known (R94(a), R16(c)). -/
def wrapping : State :=
  { session with srHi := 0x40100000#32, sr32 := 0x40800000#32, rate := 0x40000000#32, depth := 0x3ECCCCCD#32,
                 mix := 0x3F000000#32, phase := 0x3F000000#32 }

/-- The session of the examples at 44100 Hz, with the parameters of R119's example. -/
def session44 : State :=
  { session with capacity := 1543, srHi := 0x40E58880#32, sr32 := 0x472C4400#32, rate := 0x3F4CCCCD#32,
                 depth := 0x3ECCCCCD#32, mix := 0x3F000000#32 }

/-! ### WellFormed -/

/-- A frame of 65536 samples has no header (R63). -/
theorem test_wellFormed_frame :
    (Instr.processFrame 0 (List.replicate 65536 0)).wellFormed = false ∧
    (Instr.processFrame 0 (List.replicate 3 0)).wellFormed = true := by
  refine ⟨?_, by decide⟩
  show decide ((List.replicate 65536 (0 : Word)).length < 65536) = false
  rw [List.length_replicate]; rfl

/-- A block has `N × B` samples (R64). -/
theorem test_wellFormed_block :
    (Instr.processBlock 2 3 [0, 0, 0, 0, 0]).wellFormed = false ∧
    (Instr.processBlock 2 3 [0, 0, 0, 0, 0, 0]).wellFormed = true := by decide

/-! ### Decoding, from words written out bit by bit -/

/-- R59: `CONFIGURE 44100.0, 1`. -/
theorem test_decode_configure :
    decode [0b00000001_00000000_0000000000000001#32, 0b00000000000000000000000000000000#32,
        0b01000000111001011000100010000000#32] =
      .ok (.configure 0 1 0x00000000 0x40E58880, []) := by decide

/-- R60: `RELEASE`. -/
theorem test_decode_release : decode [0b00000010_00000000_0000000000000000#32, 7] = .ok (.release 0 0, [7]) := by
  decide

/-- R61: `WRITE_REG RATE, 0.8`. -/
theorem test_decode_writeReg :
    decode [0b00000011_00001000_0000000000000000#32, 0b00111111010011001100110011001101#32] =
      .ok (.writeReg 0x08 0 0x3F4CCCCD, []) := by decide

/-- R62: `READ_REG WPTR, 0`, and V-ERR-6's reserved field. -/
theorem test_decode_readReg :
    decode [0b00000100_00100000_0000000000000000#32] = .ok (.readReg 0x20 0, []) ∧
    decode [0b00000100_00001000_0000000000000001#32] = .ok (.readReg 0x08 1, []) := by decide

/-- R63: `PROCESS_FRAME {1.0}`. -/
theorem test_decode_processFrame :
    decode [0b00000101_00000000_0000000000000001#32, 0b00111111100000000000000000000000#32] =
      .ok (.processFrame 0 [0x3F800000], []) := by decide

/-- R64: a block of 2 frames of 3 lanes takes six words. -/
theorem test_decode_processBlock :
    decode [0b00000110_00000011_0000000000000010#32, 1, 2, 3, 4, 5, 6, 0x02000000] =
      .ok (.processBlock 3 2 [1, 2, 3, 4, 5, 6], [0x02000000]) := by decide

/-- R65: `READ_DL 0, 856`. -/
theorem test_decode_readDl :
    decode [0b00000111_00000000_0000000000000000#32, 0b00000000000000000000001101011000#32] =
      .ok (.readDl 0 0 856, []) := by decide

/-- R70, V-ERR-1, V-ERR-2: illegal opcodes. -/
theorem test_decode_illegal :
    decode [0x00000000] = .error (.illegalOpcode 0x00) ∧ decode [0xFF123456] = .error (.illegalOpcode 0xFF) ∧
    decode [0x08000000] = .error (.illegalOpcode 0x08) := by decide

/-- R45: `0x40E58880` is sent as the bytes `80 88 E5 40`. -/
theorem test_byte_order : wordsOfBytes [0x80, 0x88, 0xE5, 0x40] = [0x40E58880#32] ∧
    bytesOfWords [0x40E58880#32] = [0x80, 0x88, 0xE5, 0x40] := by decide

/-- The opcode table's rows as their words of zeros. -/
theorem test_table_words :
    decodeTableWord 32 0x01000000 = some (.configure 0 0 0 0) ∧ decodeTableWord 32 0x02000000 = some (.release 0 0) ∧
    decodeTableWord 32 0x03000000 = some (.writeReg 0 0 0) ∧ decodeTableWord 32 0x04000000 = some (.readReg 0 0) ∧
    decodeTableWord 32 0x05000000 = some (.processFrame 0 []) ∧
    decodeTableWord 32 0x06000000 = some (.processBlock 0 0 []) ∧
    decodeTableWord 32 0x07000000 = some (.readDl 0 0 0) := by decide

/-- The first step after reset runs the placed instruction: `READ_REG STATUS` responds 0 (V-ERR-13). -/
theorem test_withFetchWord :
    peek (step (State.reset.withFetchWord 32 0x04000000)) (fun t => (t.respOut, t.badCmd, t.cmdIn)) =
      some ([0], false, []) := by decide

/-! ### CONFIGURE and RELEASE -/

/-- V-CTL-2: `CONFIGURE 0.0, 1` ends in BAD_SAMPLE_RATE. -/
theorem test_configure_bad_rate :
    peek (step (session.send [0x01000001, 0, 0])) (fun t => (t.state, t.capacity, t.channels, t.sr32, t.smooth)) =
      some (.badSampleRate, 0, 0, 0x45FA0000#32, 0x3F000000#32) := by decide

/-- V-ERR-10: `CONFIGURE` with `R = 1` is not executed. -/
theorem test_configure_reserved :
    peek (step (session.send [0x01010001, 0x00000000, 0x40E58880]))
      (fun t => (t.state, t.capacity, t.srHi, t.badCmd)) = some (.enabled, 1024, 0x40BF4000#32, true) := by decide

/-- V-CTL-5: `RELEASE` keeps the cursors and the sample rate. -/
theorem test_release :
    peek (step ((session.setCursor 0 1).send [0x02000000]))
      (fun t => (t.state, t.capacity, t.channels, t.cursor 0, t.srHi, t.sr32)) =
      some (.released, 0, 0, 1, 0x40BF4000#32, 0x45FA0000#32) := by decide

/-! ### WRITE_REG and READ_REG -/

/-- V-CTL-3: a rate above 2.0 is stored as 2.0, a NaN as 0.1. -/
theorem test_writeReg_rate :
    peek (step (State.reset.send [0x03080000, 0x40A00000])) (fun t => t.rate) = some 0x40000000#32 ∧
    peek (step (State.reset.send [0x03080000, 0x7FC00000])) (fun t => t.rate) = some 0x3DCCCCCD#32 := by decide

/-- V-ERR-4, V-ERR-12: a write to CAPACITY sets `BADCMD`, CLEARBAD clears it. -/
theorem test_writeReg_badCmd :
    peek (step (session.send [0x03010000, 5])) (fun t => (t.badCmd, t.capacity)) = some (true, 1024) ∧
    peek (step (session.setBadCmd.send [0x03000000, 8])) (fun t => t.badCmd) = some false := by decide

/-- V-ERR-14: `STATUS` with `BADCMD = 1`, `STATE = 2` reads `0x0000000A`, and is not changed by it. -/
theorem test_readReg_status :
    peek (step ((endSession .released session).setBadCmd.send [0x04000000])) (fun t => (t.respOut, t.badCmd)) =
      some ([0x0000000A], true) := by decide

/-- R22: the six codes of `STATUS.STATE`, as `STATUS` reads them. -/
theorem test_status_codes :
    [StateCode.unconfigured, .enabled, .released, .badSampleRate, .badChannelCount, .badCapacity].map
      (fun c => (State.reset.setState c).statusWord) = [0, 1, 2, 3, 4, 5] := by decide

/-- V-ERR-5, P6: an unassigned register, and `ID`. -/
theorem test_readReg_id :
    peek (step (State.reset.send [0x04060000])) (fun t => (t.respOut, t.badCmd)) = some ([0], true) ∧
    peek (step (State.reset.send [0x04300000])) (fun t => (t.respOut, t.badCmd)) = some ([0x4B5A0001], false) := by
  decide

/-! ### PROCESS_FRAME, PROCESS_BLOCK, READ_DL -/

/-- V-ENG-P1, V-ENG-P7: pass-through before any CONFIGURE, and with a nonzero reserved field. -/
theorem test_processFrame_passThrough :
    peek (step (State.reset.send [0x05000001, 0x3F000000])) (fun t => (t.respOut, t.phase, t.badCmd)) =
      some ([0x3F000000], 0, false) ∧
    peek (step (session.send [0x05010001, 0x3F800000])) (fun t => (t.respOut, t.phase, t.badCmd)) =
      some ([0x3F800000], 0, true) := by decide

/-- R94(a), R119: the phase wraps from exactly 1.0 to `+0`, `SMOOTH` stays 0.5, the lane answers the dry half, writes
`0.5 * 0.999` and advances its cursor. -/
theorem test_processFrame_lane :
    peek (step (wrapping.send [0x05000001, 0x3F000000]))
      (fun t => (t.respOut, t.phase, t.smooth, t.cell 0 0, t.cursor 0)) =
      some ([0x3E800000], 0, 0x3F000000#32, some 0x3EFFBE77#32, 1) := by decide +kernel

/-- R123: lanes at or above `CHANNELS` pass through. -/
theorem test_processBlock_lanes :
    peek (step (wrapping.send [0x06030001, 0x3F000000, 0x3E800000, 0x7FC01234]))
      (fun t => (t.respOut, t.cursor 0, t.cursor 1)) =
      some ([0x3E800000, 0x3E800000, 0x7FC01234], 1, 0) := by decide +kernel

/-- R122(a): a block passes through after RELEASE. -/
theorem test_processBlock_released :
    peek (step ((endSession .released session).send [0x06020001, 0x3F800000, 0x80000000]))
      (fun t => (t.respOut, t.cursor 0)) = some ([0x3F800000, 0x80000000], 0) := by decide

/-- V-ERR-8, V-ERR-9: an index at the capacity, and any read while disabled, are refused with 0. -/
theorem test_readDl_refused :
    peek (step (session.send [0x07000000, 1024])) (fun t => (t.respOut, t.badCmd)) = some ([0], true) ∧
    peek (step (State.reset.send [0x07000000, 0])) (fun t => (t.respOut, t.badCmd)) = some ([0], true) := by decide

/-- R145: the last cell of the line, once written, is read back. -/
theorem test_readDl :
    peek (step ((session.setMem (Memory.writeWord [] (cellAddr 0 1023) 0x3F7FBE77#32)).send [0x07000000, 1023]))
      (fun t => (t.respOut, t.badCmd)) = some ([0x3F7FBE77], false) := by decide

/-! ### The datapath, on the rules' own examples -/

/-- R119's example: `ds = 0x442B8C8B`, `rp = 0x44563375`, output 0.25, cell `0x3EFFBE77`, cursor 1. -/
theorem test_lane_example :
    laneDelay 0 session44 = 0x442B8C8B#32 ∧ lanePosition 0 session44 = 0x44563375#32 ∧
    (lane 0 0x3F000000#32 session44).toOption.map (fun p => (p.2, p.1.cell 0 0, p.1.cursor 0)) =
      some (0x3E800000#32, some 0x3EFFBE77#32, 1) := by decide +kernel

/-- R114's derived gains. -/
theorem test_depth_gains :
    depthGain 0 0x3ECCCCCD#32 = 0x3F78AF8B#32 ∧ depthGain 0 0x3F000000#32 = 0x3F715F16#32 ∧
    depthGain 0 0x3E99999B#32 = 0x3F800000#32 := by decide +kernel

/-- R117's examples. -/
theorem test_soft_clip :
    softClip 0 0x3F800000#32 = 0x3F7E3540#32 ∧ softClip 0 0xBF800000#32 = 0xBF7E3540#32 ∧
    softClip 0 0x40000000#32 = 0x3FA58106#32 ∧ softClip 0 0x3F7D70A4#32 = 0x3F7D70A4#32 := by decide +kernel

/-- R101: the overshoot. -/
theorem test_interp_overshoot :
    crInterp 0 ⟨0xBF7FBE77, 0x3F7FBE77, 0x3F7FBE77, 0xBF7FBE77⟩ 0x3F000000 = 0x3F9FD70A#32 := by decide +kernel

/-- R102: an infinite tap gives a NaN here, some NaN. -/
theorem test_interp_nan : isNaN (crInterp 0 ⟨0, 0x7F800000, 0, 0⟩ 0x3F000000) = true := by
  have h1 : add32 16 0x7F800000 (mul32 15 (crC1 0 ⟨0, 0x7F800000, 0, 0⟩) 0x3F000000) = 0x7F800000#32 := by
    decide +kernel
  have h2 : mul32 17 (crC2 2 ⟨0, 0x7F800000, 0, 0⟩) (mul32 13 0x3F000000 0x3F000000) = 0xFF800000#32 := by
    decide +kernel
  have h3 : add32 18 0x7F800000#32 0xFF800000#32 = freeNaN 18 := rfl
  unfold crInterp
  simp only [Nat.zero_add, h1, h2, h3]
  rw [add32_nan _ (.inl (freeNaN_isNaN 18))]
  exact freeNaN_isNaN 20

/-- R89's example: the increment of 0.8 Hz at 44100 Hz. -/
theorem test_osc_increment : oscIncrement 0 0x3F4CCCCD#32 0x472C4400#32 = 0x37982C9F#32 := by decide +kernel

/-- R77, R78: the examples of DL_ADVANCE and DL_TAPS at capacity 1543. -/
theorem test_delay_line :
    (dlAdvance 0 (session44.setCursor 0 1542)).cursor 0 = 0 ∧
    (List.range 4).map (tapIndex 1543 1542) = [1541, 1542, 0, 1] ∧
    (List.range 4).map (tapIndex 1543 0) = [1542, 0, 1, 2] := by decide

/-- R149, R15: the binary32 copies of sample rates, and a decimal literal. -/
theorem test_conversions :
    roundF32 0 0x40E5888000000000#64 = 0x472C4400#32 ∧ roundF32 0 0x40BF400000000000#64 = 0x45FA0000#32 ∧
    decimal64 ⟨false, 44100, 0⟩ = 0x40E5888000000000#64 ∧
    literalWord (.dec ⟨false, 8, 1⟩) = 0x3F4CCCCD#32 := by decide +kernel

/-- P6, line 5: a decimal for a register that is no parameter is an integer; P1, line 2: one for `RATE` is a binary32. -/
theorem test_assemble_writeReg :
    assembleWords (.writeReg 0x01 (.dec ⟨false, 5, 0⟩)) = [0x03010000, 0x00000005] ∧
    assembleWords (.writeReg 0x08 (.dec ⟨false, 8, 1⟩)) = [0x03080000, 0x3F4CCCCD] := by decide +kernel

/-! ### Witnesses: the sessions meet the invariant -/

/-- A state whose registers are a legal session's, with empty lists, meets the invariant. -/
theorem inv_of_empty {s : State} (hp : s.ParamsLegal) (hs : s.state = .enabled) (hc : s.channels = 1)
    (h1 : 1024 ≤ s.capacity.toNat) (h2 : s.capacity.toNat ≤ maxCapacity) (hw : s.wptr = []) (hm : s.mem = []) :
    s.Inv := by
  have hmc := maxChannels_bounds
  have h1c : s.channels.toNat = 1 := by rw [hc]; rfl
  refine ⟨hp, ⟨fun _ => ⟨h1, h2⟩, fun _ => by omega, fun _ c _ => ?_, fun h => absurd hs h⟩, ⟨?_, ?_, ?_, ?_⟩⟩
  · unfold State.cursor; rw [hw]; show 0 < _; omega
  · rw [hm]; exact cellsWf_nil
  · rw [hw]; exact cellsWf_nil
  · rw [hw]; exact fun _ h => absurd h List.not_mem_nil
  · rw [hm]; exact fun _ h => absurd h List.not_mem_nil

/-- For every statement about a legal enabled session: the invariant, and the bounds of its channel. -/
theorem witness_session_inv : session.Inv ∧ session.state = .enabled ∧ 0 < session.channels.toNat :=
  ⟨inv_of_empty ⟨by decide, by decide, by decide⟩ rfl rfl (by decide) maxCapacity_bounds.1 rfl rfl, rfl, by decide⟩

/-- The same at 4 Hz, with nonzero parameters. -/
theorem witness_wrapping_inv : wrapping.Inv ∧ wrapping.state = .enabled ∧ 0 < wrapping.channels.toNat :=
  ⟨inv_of_empty ⟨by decide, by decide, by decide⟩ rfl rfl (by decide) maxCapacity_bounds.1 rfl rfl, rfl, by decide⟩

/-- A session whose `SR32` is `+0` (R93). -/
theorem witness_zero_rate_inv : (session.setSr32 0).Inv ∧ (session.setSr32 0).sr32 = 0 ∧
    le32 0 (session.setSr32 0).phase = true :=
  ⟨inv_of_empty ⟨by decide, by decide, by decide⟩ rfl rfl (by decide) maxCapacity_bounds.1 rfl rfl, rfl, by decide⟩

/-- A state outside a session that meets the invariant: after a RELEASE. -/
theorem witness_released_inv : (endSession .released session).Inv ∧ (endSession .released session).state ≠ .enabled :=
  ⟨inv_endSession ⟨by decide, by decide, by decide⟩ cellsWf_nil (fun _ h => absurd h List.not_mem_nil) (by simp),
    by decide⟩

/-! ### Witnesses: the command stream -/

/-- DecodeOfEncodeIsTheCommand, ResponsesAreAsManyAsTheHeaderSays: the longest and the shortest frames and blocks. -/
theorem witness_wellFormed :
    (Instr.processFrame 0 []).wellFormed = true ∧ (Instr.processFrame 0 (List.replicate 65535 0)).wellFormed = true ∧
    (Instr.processBlock 255 1 (List.replicate 255 0)).wellFormed = true ∧
    (Instr.processBlock 0 0xFFFF []).wellFormed = true := by
  refine ⟨by decide, ?_, ?_, by decide⟩
  · show decide ((List.replicate 65535 (0 : Word)).length < 65536) = true
    rw [List.length_replicate]; rfl
  · show decide ((List.replicate 255 (0 : Word)).length = 1 * 255) = true
    rw [List.length_replicate]; rfl

/-- EncodeOfDecodeIsTheWords, StepRunsTheDecodedCommand: a port that begins with a command. -/
theorem witness_decode_ok :
    decode (session.send [0x04000000, 0x02000000]).cmdIn = .ok (.readReg 0 0, [0x02000000]) := by decide

/-- LengthIsAFunctionOfTheHeader, IllegalHeaderSetsBadCmd: both ends of both illegal ranges, and the legal opcodes next
to them. -/
theorem witness_opcodes :
    ([0x00FFFFFF#32, 0x08000000#32, 0xFFFFFFFF#32].all fun h =>
      decide ((h.extractLsb' 24 8).toNat = 0 ∨ 8 ≤ (h.extractLsb' 24 8).toNat)) = true ∧
    ([0x01000000#32, 0x07FFFFFF#32].all fun h =>
      !decide ((h.extractLsb' 24 8).toNat = 0 ∨ 8 ≤ (h.extractLsb' 24 8).toNat)) = true ∧
    (State.reset.send [0x08000000, 1]).cmdIn = [0x08000000, 1] := ⟨by decide, by decide, rfl⟩

/-- StepWaitsForWholeCommands, LengthIsAFunctionOfTheHeader: one operand word of two is there. -/
theorem witness_incomplete :
    decode (session.send [0x01000001, 0]).cmdIn = .error (.incomplete 1) ∧ session.cmdIn = [] := ⟨by decide, rfl⟩

/-- EveryRunKeepsR39: runs go on after words are sent. -/
theorem witness_reachable : Reachable (State.reset.send [0x04000000]) ∧
    ∃ t, step (State.reset.send [0x04000000]) = .next t ∧ Reachable t :=
  ⟨.send _ .reset, ((State.reset.send [0x04000000]).takeResponses.setInput []).respond [0], rfl,
    .step (.send [0x04000000] .reset) rfl⟩

/-- StepKeepsTheInvariant, StepNeverStops, SessionRegistersFollowTheSampleRate: a session whose port holds a command steps. -/
theorem witness_step : (session.send [0x04010000]).Inv ∧
    step (session.send [0x04010000]) = .next (((session.send [0x04010000]).takeResponses.setInput []).respond [1024]) :=
  ⟨inv_send witness_session_inv.1 _, rfl⟩

/-! ### Witnesses: CONFIGURE and RELEASE -/

theorem capacity_8000 : capacityOf 0x40BF400000000000#64 = 1024 := by decide +kernel
theorem capacity_least : capacityOf 0x0000000000000001#64 = 1024 := by decide +kernel
theorem capacity_1e9 : capacityOf 0x41CDCD6500000000#64 = 35000000 := by decide +kernel

/-- ConfigureStartsASession: 8000 Hz and the smallest positive rate, one channel; both have capacity 1024. -/
theorem witness_configure_starts :
    ∀ sr ∈ [0x40BF400000000000#64, 0x0000000000000001#64],
      magBits64 sr < infMag64 ∧ signBit64 sr = false ∧ magBits64 sr ≠ 0 ∧ 1 ≤ (1 : Half).toNat ∧
      (1 : Half).toNat ≤ maxChannels ∧ capacityOf sr ≤ maxCapacity := by
  have hc := maxCapacity_bounds.1
  have hm : (1 : Half).toNat ≤ maxChannels := maxChannels_bounds.1
  intro sr hs
  simp only [List.mem_cons, List.not_mem_nil, or_false] at hs
  rcases hs with rfl | rfl
  · rw [capacity_8000]; exact ⟨by decide, by decide, by decide, by decide, hm, hc⟩
  · rw [capacity_least]; exact ⟨by decide, by decide, by decide, by decide, hm, hc⟩

/-- The CONFIGURE of the 8000 Hz session passes its checks. -/
theorem witness_check : checkConfig 0x40BF400000000000#64 (1 : Half).toNat = .enabled := by
  obtain ⟨a, b, c, d, e, f⟩ := witness_configure_starts _ (List.mem_cons_self ..)
  exact (checkConfig_enabled_iff _ _).2 ⟨a, b, c, d, e, le_trans (by decide) (le_capacityOf _), f⟩

/-- ConfigureEntersDisabledStates: each clause. -0, a negative rate and a NaN; a count of 0; infinity and 1 GHz. -/
theorem witness_configure_fails :
    ([0x8000000000000000#64, 0xBFF0000000000000#64, 0x7FF8000000000000#64, 0#64].all fun sr =>
      isNaN64 sr || signBit64 sr || decide (magBits64 sr = 0)) = true ∧
    (¬(isNaN64 0x40BF400000000000#64 = true ∨ signBit64 0x40BF400000000000#64 = true ∨
      magBits64 0x40BF400000000000#64 = 0) ∧ (0 : Half).toNat = 0) ∧
    (¬((1 : Half).toNat = 0 ∨ maxChannels < (1 : Half).toNat) ∧ magBits64 0x7FF0000000000000#64 = infMag64 ∧
      maxCapacity < capacityOf 0x41CDCD6500000000#64) := by
  have hc := maxCapacity_bounds.2
  have hm : (1 : Half).toNat ≤ maxChannels := maxChannels_bounds.1
  refine ⟨by decide, by decide, ?_, by decide, ?_⟩
  · rintro (h | h)
    · exact absurd h (by decide)
    · exact absurd hm (Nat.not_le.2 h)
  · rw [capacity_1e9]; exact lt_of_le_of_lt hc (by decide)

theorem configure_enables (s : State) : (configure 1 0 0x40BF4000#32 s).state = .enabled := by
  rcases configure_cases 1 0 0x40BF4000#32 s with ⟨-, e⟩ | ⟨h, -⟩
  · rw [e]; rfl
  · exact absurd witness_check h

theorem exec_configure (s : State) :
    exec (.configure 0 1 0 0x40BF4000#32) s = .next (configure 1 0 0x40BF4000#32 s) := by
  show execConfigure 0 1 0 0x40BF4000#32 s = _
  unfold execConfigure
  rw [if_neg (by decide)]

/-- ConfigureIsIdempotent: two CONFIGUREs with a RELEASE between them. -/
theorem witness_idempotent : ∃ s1 s2 s3,
    exec (.configure 0 1 0 0x40BF4000#32) session = .next s1 ∧ execAll [.release 0 0] s1 = .next s2 ∧
    exec (.configure 0 1 0 0x40BF4000#32) s2 = .next s3 ∧ s1.state = .enabled ∧
    ∀ reg imm v, Instr.writeReg reg imm v ∉ [Instr.release 0 0] :=
  ⟨_, endSession .released (configure 1 0 0x40BF4000#32 session), _, exec_configure _, rfl, exec_configure _,
    configure_enables _, by simp⟩

/-- OnlyConfigureEnables: a CONFIGURE from reset ends enabled. -/
theorem witness_enables : ∃ t, State.reset.state ≠ .enabled ∧
    exec (.configure 0 1 0 0x40BF4000#32) State.reset = .next t ∧ t.state = .enabled :=
  ⟨_, by decide, exec_configure _, configure_enables _⟩

/-- SessionRegistersFollowTheSampleRate: the 8000 Hz session is its CONFIGURE's. -/
theorem witness_session_of_rate : session.Inv ∧ session.SessionOfSampleRate := by
  have hsr : sampleRateOf session.srLo session.srHi = 0x40BF400000000000#64 := by decide
  refine ⟨witness_session_inv.1, fun _ => ?_⟩
  rw [hsr]
  refine ⟨witness_check, by rw [capacity_8000]; rfl, fun n => ?_⟩
  unfold roundF32
  rw [if_neg (by decide), if_neg (by decide)]
  decide +kernel

/-! ### Witnesses: registers and BADCMD -/

/-- WriteRegStores: the registers next to the writable ones are read-only or unassigned. -/
theorem witness_not_writable : ∀ reg ∈ [0x01, 0x07, 0x0B, 0xFF, 0x20, 0x30],
    (reg : Byte) ≠ 0x00 ∧ reg ≠ 0x08 ∧ reg ≠ 0x09 ∧ reg ≠ 0x0A := by decide

/-- StoredParametersAreInTheirDomains: the bounds of the domains, `-0`, and a NaN. -/
theorem witness_domains :
    ([0x3DCCCCCD#32, 0x3F4CCCCD#32, 0x40000000#32].all fun v => le32 0x3DCCCCCD#32 v && le32 v 0x40000000#32) = true ∧
    ([0x00000000#32, 0x80000000#32, 0x00000001#32, 0x3F800000#32].all fun v => le32 0 v && le32 v 0x3F800000#32) = true ∧
    isNaN 0x7FC00000#32 = true := ⟨by decide, by decide, by decide⟩

/-- ReadRegResponds: the unassigned numbers at the ends of R34's ranges, and a cursor in and out of range. -/
theorem witness_unassigned :
    (∀ reg ∈ [0x06, 0x07, 0x0B, 0x0F, 0x12, 0x1F, 0x21, 0x2F, 0x33, 0xFF],
      (reg : Byte) ∉ [0x00, 0x01, 0x02, 0x03, 0x04, 0x05, 0x08, 0x09, 0x0A, 0x10, 0x11, 0x20, 0x30, 0x31, 0x32]) ∧
    (0 : Half).toNat < session.channels.toNat ∧ ¬ (1 : Half).toNat < session.channels.toNat := by decide

/-- ReadDlResponds: the last cell of the line is active, the next is not. -/
theorem witness_cell_bounds : session.active 0 1023 = true ∧ session.active 0 1024 = false ∧
    session.active 1 0 = false := by decide

/-- ReadsChangeNothingElse, BadCmdIsSetOnlyByCommandErrors, ParametersAreWrittenOnlyByWriteReg,
SessionRegistersChangeOnlyInConfigureAndRelease: the two reads answer. -/
theorem witness_reads : ∃ t u, session.badCmd = false ∧ exec (.readReg 0x20 0) session = .next t ∧
    exec (.readDl 0 0 1023) session = .next u ∧ (∀ reg imm v, Instr.readReg 0x20 0 ≠ .writeReg reg imm v) ∧
    (∀ r ch lo hi, Instr.readReg 0x20 0 ≠ .configure r ch lo hi) ∧
    (∀ r imm, Instr.readReg 0x20 0 ≠ .release r imm) :=
  ⟨_, _, rfl, rfl, rfl, by simp, by simp, by simp⟩

/-- ReservedFieldsAreNotExecuted: least and greatest nonzero fields. -/
theorem witness_reserved : (1 : Byte) ≠ 0 ∧ (0xFF : Byte) ≠ 0 ∧ (1 : Half) ≠ 0 ∧ (0xFFFF : Half) ≠ 0 ∧
    (0x21 : Byte) ≠ 0x20 ∧ rsvOf (.processFrame 1 [0x3F800000]) = true ∧
    decode (session.send [0x05010001, 0x3F800000]).cmdIn = .ok (.processFrame 1 [0x3F800000], []) :=
  ⟨by decide, by decide, by decide, by decide, by decide, by decide, by decide⟩

/-- BadCmdIsSticky: a set bit, a STATUS write that clears it and one that does not. -/
theorem witness_sticky : ∃ t u, session.setBadCmd.badCmd = true ∧
    exec (.writeReg 0 0 8) session.setBadCmd = .next t ∧ t.badCmd = false ∧
    exec (.writeReg 0 0 7) session.setBadCmd = .next u ∧ u.badCmd = true :=
  ⟨_, _, rfl, rfl, rfl, rfl, rfl⟩

/-- BadCmdIsSetOnlyByCommandErrors: each kind of command error answers. -/
theorem witness_command_errors :
    rsvOf (.processFrame 1 []) = true ∧ (0x01 : Byte) ∉ [0x00, 0x08, 0x09, 0x0A] ∧
    ¬(session.state = .enabled ∧ (1 : Half).toNat < session.channels.toNat) ∧
    (∀ i ∈ [Instr.processFrame 1 [], .writeReg 0x01 0 0, .readReg 0x06 0, .readReg 0x20 1, .readDl 0 0 1024],
      peek (exec i session) (fun t => t.badCmd) = some true) := by decide

/-! ### Witnesses: delay lines and processing -/

/-- CellReadsBackWhatWasWritten: the last cell of the session's line. -/
theorem witness_cell : Memory.wf session.mem ∧ 0 < session.channels.toNat ∧ 1023 < session.capacity.toNat := by
  decide

/-- BlockMovesTheCursors, SilenceStaysSilent, LineHoldsTheLatestInputs, DisabledBlockPassesThrough: a fresh line of zeros,
blocks of one and two lanes, and inputs that are zeros. -/
theorem witness_fresh_line :
    (∀ c, session.cursor c = 0) ∧ (∀ c i, session.active c i = true → session.cell c i = some 0) ∧
    [0x00000000#32, 0x80000000#32].length = (2 : Half).toNat * (1 : Byte).toNat ∧
    0 < (1 : Byte).toNat ∧ (∀ i w, session.cell 0 i = some w → magBits w = 0) ∧
    (∀ k x, k < (2 : Half).toNat → [0x00000000#32, 0x80000000#32][k * (1 : Byte).toNat + 0]? = some x →
      magBits x = 0) := by
  have hz : ∀ c i w, session.cell c i = some w → w = 0 := by
    intro c i w h
    unfold State.cell at h
    split at h
    · rw [show session.mem = [] from rfl, readWord_nil] at h; exact (Option.some.inj h).symm
    · cases h
  refine ⟨fun _ => rfl, fun c i ha => ?_, rfl, by decide, fun i w h => by rw [hz 0 i w h]; rfl, fun k x hk hx => ?_⟩
  · unfold State.cell
    rw [if_pos ha, show session.mem = [] from rfl, readWord_nil]
  · have hk2 : k = 0 ∨ k = 1 := by have : k < 2 := hk; omega
    rcases hk2 with rfl | rfl
    · cases hx; rfl
    · cases hx; decide

/-- FrameRunsItsLanesIndependently, FrameStepsTheOscillatorOnce, ProcessingFrameConditions: a frame of a session answers, one
lane below and one at `CHANNELS`. -/
theorem witness_frame : ∃ t u, exec (.processFrame 0 [0x3F000000, 0x3F800000]) session = .next t ∧
    exec (.processBlock 2 1 [0x3F000000, 0x3F800000]) session = .next u ∧
    [0x3F000000#32, 0x3F800000#32] ≠ [] := by
  have hl := witness_session_inv.1.sessionLegal rfl
  obtain ⟨ys, hy⟩ := frame_ok (xs := [0x3F000000, 0x3F800000]) (fun _ => hl)
  obtain ⟨zs, hz⟩ := frames_ok (b := 2) (n := 1) (xs := [0x3F000000, 0x3F800000]) (fun _ => hl)
  refine ⟨(frameState [0x3F000000, 0x3F800000] session).respond ys,
    (framesState 2 1 [0x3F000000, 0x3F800000] session).respond zs, ?_, ?_, by decide⟩
  · show execProcessFrame 0 _ session = _
    unfold execProcessFrame
    rw [if_neg (by decide), hy]; rfl
  · show respondFrames (frames 2 1 [0x3F000000, 0x3F800000] session) = _
    rw [hz]; rfl

/-- ProcessingFrameConditions: the bytes around the cell at the session's cursor. -/
theorem witness_outside_bytes : ∀ a ∈ [4, 5, 4096, 17179869184],
    ∀ c k, c < 1 → c < session.channels.toNat → k < 1 →
      a < cellAddr c (((session.cursor c).toNat + k) % session.capacity.toNat) ∨
      cellAddr c (((session.cursor c).toNat + k) % session.capacity.toNat) + 4 ≤ a := by
  intro a ha c k hc _ hk
  obtain rfl : c = 0 := by omega
  obtain rfl : k = 0 := by omega
  right
  have : cellAddr 0 (((session.cursor 0).toNat + 0) % session.capacity.toNat) = 0 := by decide
  rw [this]
  simp only [List.mem_cons, List.not_mem_nil, or_false] at ha
  omega

/-- DelayIsClamped, ComparisonsOrderAndConversionsRound: the ends of the ranges. -/
theorem witness_ranges : 1024 ≤ 1024 ∧ 16777216 ≤ 16777216 ∧ isNaN 0xFFC00000#32 = true ∧ 16777215 < 2 ^ 24 := by
  decide

/-- DepthZeroGivesAFixedDelay: depth `+0` at 44100 Hz, with `SMOOTH` at its reset value. -/
theorem witness_depth_zero : (session44.setDepth 0).depth = 0 ∧ magBits (session44.setDepth 0).smooth < infMag ∧
    (session44.setDepth 0).sr32 = 0x472C4400#32 ∧ (session44.setDepth 0).capacity.toNat = 1543 := by decide

/-- MixZeroIsDry: the largest input, `+0`, and the largest wet sample. -/
theorem witness_mix_zero : magBits 0xFF7FFFFF#32 < infMag ∧
    ([0x3F7D70A4#32, 0xBF7D70A4#32, 0x00000000#32, 0x00000001#32].all fun x =>
      le32 (abs32 x) 0x3F7D70A4#32 && decide (x ≠ 0x80000000#32)) = true := ⟨by decide, by decide⟩

/-! ### Witnesses: the oscillator, the interpolator and the arithmetic -/

/-- SineUnitProperties: finite, infinite and NaN phases. -/
theorem witness_phases : magBits 0x7F7FFFFF#32 < infMag ∧ infMag ≤ magBits 0xFF800000#32 ∧
    infMag ≤ magBits 0x7FC00000#32 := by decide

/-- SmoothStaysInTheUnitInterval: the ends of the intervals. -/
theorem witness_unit_interval :
    ([0xBF800000#32, 0x80000000#32, 0x3F800000#32].all fun v => le32 0xBF800000#32 v && le32 v 0x3F800000#32) = true ∧
    ([0x00000000#32, 0x80000000#32, 0x3F800000#32].all fun v => le32 0 v && le32 v 0x3F800000#32) = true :=
  ⟨by decide, by decide⟩

/-- PhaseStaysBelowOne: the greatest rate, the least sample rate above it, the greatest phase. -/
theorem witness_phase : le32 0x3DCCCCCD#32 0x40000000#32 = true ∧ lt32 0 0x40000001#32 = true ∧
    lt32 (div32 0 0x40000000#32 0x40000001#32) 0x3F800000#32 = true ∧ le32 0 0x3F7FFFFF#32 = true ∧
    lt32 0x3F7FFFFF#32 0x3F800000#32 = true := by decide +kernel

/-- The increment of PhaseStaysBelowOne's witness is the same for every draw. -/
theorem witness_phase_draw (n : Nat) : lt32 (div32 n 0x40000000#32 0x40000001#32) 0x3F800000#32 = true := by
  rw [div32_draw (by decide) (by decide) (by decide)]; exact witness_phase.2.2.1

/-- StepKeepsTheOscillatorInRange: a session that has the ranges, and a step of it that processes a frame. -/
theorem witness_oscillator : wrapping.Inv ∧ wrapping.OscillatorInRange ∧
    lt32 0x40000000#32 wrapping.sr32 = true ∧
    peek (step (wrapping.send [0x05000001, 0x3F000000])) (fun t => t.wptr) = some [(0, 1)] :=
  ⟨witness_wrapping_inv.1, ⟨by decide, by decide⟩, by decide, by decide +kernel⟩

theorem coefficient1_finite : magBits (crC1 0 ⟨0, 0x3F800000, 0, 0⟩) < infMag := by decide +kernel
theorem coefficient2_finite : magBits (crC2 2 ⟨0, 0x3F800000, 0, 0⟩) < infMag := by decide +kernel
theorem coefficient3_finite : magBits (crC3 8 ⟨0, 0x3F800000, 0, 0⟩) < infMag := by decide +kernel

/-- InterpolatorExactCases: coefficients that are finite, and the least and greatest fractions. -/
theorem witness_interpolator :
    magBits (crC1 0 ⟨0, 0x3F800000, 0, 0⟩) < infMag ∧ magBits (crC2 2 ⟨0, 0x3F800000, 0, 0⟩) < infMag ∧
    magBits (crC3 8 ⟨0, 0x3F800000, 0, 0⟩) < infMag ∧
    ([0x00000000#32, 0x80000000#32, 0x3F7FFFFF#32].all fun f => le32 0 f && lt32 f 0x3F800000#32) = true :=
  ⟨coefficient1_finite, coefficient2_finite, coefficient3_finite, by decide⟩

/-- CompensationAttenuatesByAtMostAFifth: the first depth above 0.3, 0.3 itself, and 1.0. -/
theorem witness_depths : lt32 0x3E99999A#32 0x3E99999B#32 = true ∧ le32 0x3E99999A#32 0x3E99999A#32 = true ∧
    le32 0x3F800000#32 0x3F800000#32 = true := by decide

/-- SoftClipBounds: both knees, the bound on either side, a NaN. -/
theorem witness_soft_clip :
    ([0x3F7D70A4#32, 0xBF7D70A4#32].all fun x => le32 (abs32 x) 0x3F7D70A4#32) = true ∧
    ([0x3F82FB7F#32, 0xBF82FB7F#32, 0x3F7D70A5#32].all fun x => le32 (abs32 x) 0x3F82FB7F#32) = true ∧
    isNaN 0x7FC00000#32 = true := ⟨by decide, by decide, by decide⟩

/-- ArithmeticRoundsOnce: finite operands, the least nonzero divisor among them; a sum and a difference that are zero; a
NaN; both zeros; equal and opposite infinities. -/
theorem witness_arithmetic : magBits 0x7F7FFFFF#32 < infMag ∧ magBits 0x80000001#32 < infMag ∧
    valueUnits 0x80000001#32 = -1 ∧ valueUnits 0x00000001#32 + valueUnits 0x80000001#32 = 0 ∧
    valueUnits 0x80000001#32 - valueUnits 0x80000001#32 = 0 ∧ isNaN 0xFFC00000#32 = true ∧
    valueUnits 0x00000000#32 = 0 ∧ valueUnits 0x80000000#32 = 0 ∧ false = false ∧ true ≠ false := by decide

/-- R12: an exact zero sum, an overflow on the midpoint and just below it, a division by `-0`, `0 * inf`. -/
theorem test_arithmetic_defaults :
    add32 0 0x3F800000#32 0xBF800000#32 = 0#32 ∧ add32 0 0x80000000#32 0x80000000#32 = 0x80000000#32 ∧
    add32 0 0x7F7FFFFF#32 0x73000000#32 = 0x7F800000#32 ∧ add32 0 0x7F7FFFFF#32 0x72FFFFFF#32 = 0x7F7FFFFF#32 ∧
    div32 0 0x3F800000#32 0x80000000#32 = 0xFF800000#32 := by decide +kernel

/-- ComparisonsOrderAndConversionsRound: NaNs of either sign, finite values (both zeros), the infinities, a finite binary64
of either sign, a denominator above 0, the greatest integer. -/
theorem witness_comparisons : isNaN 0x7F800001#32 = true ∧ isNaN 0xFFFFFFFF#32 = true ∧
    magBits 0x00000000#32 < infMag ∧ magBits 0x80000000#32 < infMag ∧ isNaN 0x7F800000#32 = false ∧
    isNaN 0xFF800000#32 = false ∧ magBits64 0x7FEFFFFFFFFFFFFF#64 < infMag64 ∧
    magBits64 0x8000000000000001#64 < infMag64 ∧ 0 < 1 ∧ 16777215 < 2 ^ 24 := by decide

end Sys2Proof.Tests
end

/-! PROOFS of the statements about the scope and the numbers (spec/00_scope.md R6, R12 to R17). -/

namespace Sys2Proof.Machine

/-! ### The command stream (spec/00_scope.md R6) -/

/-- Settles O6: of the two things a step can do, a port that begins with a command leaves only the first. -/
theorem stepRunsTheDecodedCommand : Obligations.StepRunsTheDecodedCommand := by
  intro s i rest hd
  rcases step_cases (s := s) rfl with ⟨i', rest', hd', hs⟩ | ⟨e, he, -⟩
  · obtain ⟨rfl, rfl⟩ : i = i' ∧ rest = rest' := by simpa [hd] using hd'
    rw [hs]; rfl
  · simp [hd] at he

/-! ### The sine unit and the literals (spec/00_scope.md R15, R16) -/

theorem sin2pi_zero : sin2pi 0 = 0 := by
  unfold sin2pi
  rw [fpOf_fin (by decide)]
  exact if_pos (by decide)

/-- R16(b): whatever the raw function gives at a finite phase, the sine unit answers a value of `[-1, 1]`. -/
theorem sin2pi_bounds {p : F32} (hp : FiniteF32 p) :
    le32 lit_m1 (sin2pi p) = true ∧ le32 (sin2pi p) lit_1_0 = true := by
  have zero_bounds : le32 lit_m1 lit_0 = true ∧ le32 lit_0 lit_1_0 = true := by decide
  unfold sin2pi
  rw [fpOf_fin hp]
  dsimp only
  split
  · exact zero_bounds
  · split
    · next h => exact Bool.and_eq_true_iff.1 h
    · exact zero_bounds

/-- R16(d): a phase that is not finite gives a NaN. -/
theorem sin2pi_isNaN {p : F32} (hp : infMag ≤ magBits p) : isNaN (sin2pi p) = true := by
  unfold sin2pi
  split
  · next h => exact absurd (fpOf_eq_fin_iff.1 h).1 (by omega)
  · exact asNaN_isNaN _
  · exact asNaN_isNaN _

/-- Settles O48, by the kinds of phase. -/
theorem sineUnitProperties : Obligations.SineUnitProperties :=
  ⟨fun _ => sin2pi_bounds, sin2pi_zero, fun _ => sin2pi_isNaN⟩

/-- Settles O59, by evaluating the roundings. -/
theorem literalsAreTheNearestValues : Obligations.LiteralsAreTheNearestValues :=
  ⟨by decide +kernel, rfl⟩

/-! ### The values of encodings -/

theorem valueUnits_eq_keyUnits (b : F32) : valueUnits b = keyUnits (ordKey b) := (keyUnits_ordKey b).symm

theorem valueUnits_neg32 (b : F32) : valueUnits (neg32 b) = -valueUnits b := by
  rw [valueUnits_eq_keyUnits, valueUnits_eq_keyUnits, ordKey_neg32, keyUnits_neg]

theorem natAbs_valueUnits (b : F32) : (valueUnits b).natAbs = unitsOf (magBits b) := by
  unfold valueUnits; split <;> simp

theorem valueUnits_eq_zero {b : F32} : valueUnits b = 0 ↔ unitsOf (magBits b) = 0 := by
  rw [← natAbs_valueUnits, Int.natAbs_eq_zero]

theorem sign_valueUnits {b : F32} (h : valueUnits b ≠ 0) :
    (valueUnits b).sign = if signBit b then -1 else 1 := by
  have hpos : 0 < (unitsOf (magBits b) : Int) := by
    exact_mod_cast Nat.pos_of_ne_zero (mt valueUnits_eq_zero.2 h)
  unfold valueUnits
  split
  · rw [Int.sign_neg, Int.sign_eq_one_of_pos hpos]
  · exact Int.sign_eq_one_of_pos hpos

theorem neg32_packF32 (s : Bool) {m : Nat} (h : m < 2147483648) : neg32 (packF32 s m) = packF32 (!s) m :=
  eq_of_mag_sign (by rw [magBits_neg32, magBits_packF32 h, magBits_packF32 h])
    (by rw [signBit_neg32, signBit_packF32 h, signBit_packF32 h])

theorem fpOf_packF32_infMag (s : Bool) : fpOf (packF32 s infMag) = .inf s := by cases s <;> rfl

theorem neg32_packF32_infMag (s : Bool) : neg32 (packF32 s infMag) = packF32 (!s) infMag :=
  neg32_packF32 s (by decide)

/-! ### The operations by the kinds of their operands (spec/00_scope.md R12) -/

section Operands
variable (n : Nat) {a b : F32} (ha : FiniteF32 a) (hb : FiniteF32 b) (s t : Bool)

include ha hb in
theorem add32_of_finite : add32 n a b =
    addFinite (signBit a) (unitsOf (magBits a)) (signBit b) (unitsOf (magBits b)) := by
  unfold add32; rw [fpOf_fin ha, fpOf_fin hb]

include ha hb in
theorem mul32_of_finite : mul32 n a b = packF32 (signBit a != signBit b)
    (round32 (unitsOf (magBits a) * unitsOf (magBits b)) (2 ^ 149)) := by
  unfold mul32; rw [fpOf_fin ha, fpOf_fin hb]

include ha hb in
theorem div32_of_finite (h : valueUnits b ≠ 0) : div32 n a b = packF32 (signBit a != signBit b)
    (round32 (unitsOf (magBits a) * 2 ^ 149) (unitsOf (magBits b))) := by
  unfold div32; rw [fpOf_fin ha, fpOf_fin hb]; exact if_neg (mt valueUnits_eq_zero.2 h)

include ha hb in
theorem div32_by_zero (h : valueUnits b = 0) : div32 n a b =
    if valueUnits a = 0 then freeNaN n else packF32 (signBit a != signBit b) infMag := by
  unfold div32; rw [fpOf_fin ha, fpOf_fin hb]
  simp only [valueUnits_eq_zero.1 h, if_true, valueUnits_eq_zero]

theorem add32_inf_inf : add32 n (packF32 s infMag) (packF32 t infMag) =
    if s = t then packF32 s infMag else freeNaN n := by
  unfold add32; rw [fpOf_packF32_infMag, fpOf_packF32_infMag]

theorem sub32_inf_inf : sub32 n (packF32 s infMag) (packF32 t infMag) =
    if s = !t then packF32 s infMag else freeNaN n := by
  unfold sub32; rw [neg32_packF32_infMag, add32_inf_inf]

theorem mul32_inf_inf : mul32 n (packF32 s infMag) (packF32 t infMag) = packF32 (s != t) infMag := by
  unfold mul32; rw [fpOf_packF32_infMag, fpOf_packF32_infMag]

theorem div32_inf_inf : div32 n (packF32 s infMag) (packF32 t infMag) = freeNaN n := by
  unfold div32; rw [fpOf_packF32_infMag, fpOf_packF32_infMag]

include ha in
theorem add32_inf_finite : add32 n (packF32 s infMag) a = packF32 s infMag := by
  unfold add32; rw [fpOf_packF32_infMag, fpOf_fin ha]

include ha in
theorem add32_finite_inf : add32 n a (packF32 s infMag) = packF32 s infMag := by
  unfold add32; rw [fpOf_packF32_infMag, fpOf_fin ha]

include ha in
theorem sub32_inf_finite : sub32 n (packF32 s infMag) a = packF32 s infMag :=
  add32_inf_finite n (neg32_finite.2 ha) s

include ha in
theorem sub32_finite_inf : sub32 n a (packF32 s infMag) = packF32 (!s) infMag := by
  unfold sub32; rw [neg32_packF32_infMag, add32_finite_inf n ha]

include ha in
theorem mul32_inf_finite : mul32 n (packF32 s infMag) a =
    if valueUnits a = 0 then freeNaN n else packF32 (s != signBit a) infMag := by
  unfold mul32; rw [fpOf_packF32_infMag, fpOf_fin ha]; simp only [valueUnits_eq_zero]

include ha in
theorem mul32_finite_inf : mul32 n a (packF32 s infMag) =
    if valueUnits a = 0 then freeNaN n else packF32 (s != signBit a) infMag := by
  unfold mul32; rw [fpOf_packF32_infMag, fpOf_fin ha]; simp only [valueUnits_eq_zero, bne_comm]

include ha in
theorem div32_inf_finite : div32 n (packF32 s infMag) a = packF32 (s != signBit a) infMag := by
  unfold div32; rw [fpOf_packF32_infMag, fpOf_fin ha]

include ha in
theorem div32_finite_inf : div32 n a (packF32 s infMag) = packF32 (s != signBit a) 0 := by
  unfold div32; rw [fpOf_packF32_infMag, fpOf_fin ha]; simp only [bne_comm]

end Operands

/-! ### One rounding of the exact result -/

/-- What has the sign and the magnitude of a number, rounded, is that number rounded once. -/
theorem roundedOnce_of_eq_pack {z : Int} {s : Bool} {m d : Nat} {r : F32} (hd : 0 < d)
    (hr : r = packF32 s (round32 m d)) (hz : z = if s then -(m : Int) else m) : RoundedOnce z d r := by
  rw [hr, hz]; exact roundedOnce_pack s m hd

theorem signBit_pack_round (s : Bool) (m d : Nat) : signBit (packF32 s (round32 m d)) = s :=
  signBit_packF32 (lt_of_le_of_lt (round32_le_infMag m d) (by decide))

/-- The sum of two signed magnitudes is one signed magnitude, rounded. -/
theorem addFinite_eq_pack (s : Bool) (x : Nat) (t : Bool) (y : Nat) :
    ∃ u m, addFinite s x t y = packF32 u (round32 m 1) ∧
      (if s then -(x : Int) else x) + (if t then -(y : Int) else y) = if u then -(m : Int) else m := by
  unfold addFinite
  split
  · next h => exact ⟨s, x + y, rfl, by subst h; cases s <;> simp; omega⟩
  · next h =>
    obtain rfl : s = !t := Bool.eq_not.2 h
    split
    · exact ⟨!t, x - y, rfl, by cases t <;> simp <;> omega⟩
    · split
      · exact ⟨t, y - x, rfl, by cases t <;> simp <;> omega⟩
      · exact ⟨false, 0, by rw [round32_zero one_pos], by cases t <;> simp <;> omega⟩

/-- IEEE's sign of an exact zero sum: negative only for two negative zeros. -/
theorem addFinite_exact_zero {s : Bool} {x : Nat} {t : Bool} {y : Nat}
    (h : (if s then -(x : Int) else x) + (if t then -(y : Int) else y) = 0) :
    addFinite s x t y = packF32 (s && t) 0 := by
  unfold addFinite
  split
  · next hs =>
    subst hs
    obtain ⟨rfl, rfl⟩ : x = 0 ∧ y = 0 := by split at h <;> omega
    rw [Bool.and_self, round32_zero one_pos]
  · next hs =>
    obtain rfl : s = !t := Bool.eq_not.2 hs
    obtain rfl : x = y := by cases t <;> simp at h <;> omega
    rw [if_neg (lt_irrefl x), if_neg (lt_irrefl x), Bool.not_and_self]

section Finite
variable (n : Nat) {a b : F32} (ha : FiniteF32 a) (hb : FiniteF32 b)
include ha hb

theorem add32_roundedOnce : RoundedOnce (valueUnits a + valueUnits b) 1 (add32 n a b) := by
  obtain ⟨u, m, hr, hz⟩ :=
    addFinite_eq_pack (signBit a) (unitsOf (magBits a)) (signBit b) (unitsOf (magBits b))
  exact roundedOnce_of_eq_pack one_pos ((add32_of_finite n ha hb).trans hr) hz

theorem sub32_roundedOnce : RoundedOnce (valueUnits a - valueUnits b) 1 (sub32 n a b) := by
  rw [sub_eq_add_neg, ← valueUnits_neg32]
  exact add32_roundedOnce n ha (neg32_finite.2 hb)

theorem mul32_roundedOnce : RoundedOnce (valueUnits a * valueUnits b) (2 ^ 149) (mul32 n a b) := by
  refine roundedOnce_of_eq_pack (by positivity) (mul32_of_finite n ha hb) ?_
  unfold valueUnits
  cases signBit a <;> cases signBit b <;> simp

theorem div32_roundedOnce (h : valueUnits b ≠ 0) :
    RoundedOnce (valueUnits a * 2 ^ 149 * (valueUnits b).sign) (valueUnits b).natAbs (div32 n a b) := by
  rw [natAbs_valueUnits, sign_valueUnits h]
  refine roundedOnce_of_eq_pack (Nat.pos_of_ne_zero (mt valueUnits_eq_zero.2 h))
    (div32_of_finite n ha hb h) ?_
  unfold valueUnits
  cases signBit a <;> cases signBit b <;> simp

theorem add32_exact_zero (h : valueUnits a + valueUnits b = 0) :
    add32 n a b = packF32 (signBit a && signBit b) 0 :=
  (add32_of_finite n ha hb).trans (addFinite_exact_zero h)

theorem sub32_exact_zero (h : valueUnits a - valueUnits b = 0) :
    sub32 n a b = packF32 (signBit a && !signBit b) 0 := by
  rw [← signBit_neg32]
  exact add32_exact_zero n ha (neg32_finite.2 hb) (by rwa [valueUnits_neg32, ← sub_eq_add_neg])

theorem signBit_mul32 : signBit (mul32 n a b) = (signBit a != signBit b) := by
  rw [mul32_of_finite n ha hb, signBit_pack_round]

theorem signBit_div32 (h : valueUnits b ≠ 0) : signBit (div32 n a b) = (signBit a != signBit b) := by
  rw [div32_of_finite n ha hb h, signBit_pack_round]

end Finite

/-- Settles O57: finite operands by the roundings, all others by the equations above. -/
theorem arithmeticRoundsOnce : Obligations.ArithmeticRoundsOnce := by
  unfold Obligations.ArithmeticRoundsOnce
  intro inf zero
  have hinf : ∀ s, inf s = packF32 s infMag := by decide
  have hzero : ∀ s, zero s = packF32 s 0 := by decide
  simp only [hinf, hzero]
  refine ⟨fun n a b ha hb => ⟨add32_roundedOnce n ha hb, sub32_roundedOnce n ha hb,
      mul32_roundedOnce n ha hb, div32_roundedOnce n ha hb⟩,
    fun n a b ha hb => ⟨add32_exact_zero n ha hb, sub32_exact_zero n ha hb,
      signBit_mul32 n ha hb, signBit_div32 n ha hb⟩,
    fun n a b h => ?_, fun n s t => ?_, fun n s a ha => ?_, fun n a b ha hb h => ?_⟩
  · rw [add32_nan n h, sub32_nan n h, mul32_nan n h, div32_nan n h]
    exact ⟨freeNaN_isNaN n, freeNaN_isNaN n, freeNaN_isNaN n, freeNaN_isNaN n⟩
  · rw [add32_inf_inf, sub32_inf_inf, mul32_inf_inf, div32_inf_inf]
    cases s <;> cases t <;> simp [freeNaN_isNaN]
  · rw [add32_inf_finite n ha, add32_finite_inf n ha, sub32_inf_finite n ha, sub32_finite_inf n ha,
      mul32_inf_finite n ha, mul32_finite_inf n ha, div32_inf_finite n ha, div32_finite_inf n ha]
    by_cases h0 : valueUnits a = 0 <;> simp [h0, freeNaN_isNaN]
  · rw [div32_by_zero n ha hb h]
    by_cases h0 : valueUnits a = 0 <;> simp [h0, freeNaN_isNaN]

/-! ### Comparisons, encodings and conversions (spec/00_scope.md R13, R14, R17) -/

theorem lt32_of_isNaN {a b : F32} (h : isNaN a = true ∨ isNaN b = true) : lt32 a b = false := by
  unfold lt32; rcases h with h | h <;> simp [h]

theorem le32_of_isNaN {a b : F32} (h : isNaN a = true ∨ isNaN b = true) : le32 a b = false := by
  unfold le32; rcases h with h | h <;> simp [h]

section Numbers
variable {a b : F32} (ha : isNaN a = false) (hb : isNaN b = false)

include ha hb in
theorem lt32_eq_decide_key : lt32 a b = decide (ordKey a < ordKey b) := by simp [lt32, ha, hb]

include ha hb in
theorem le32_eq_decide_key : le32 a b = decide (ordKey a ≤ ordKey b) := by simp [le32, ha, hb]

include ha in
/-- A value that is no NaN is an infinity or finite. -/
theorem eq_inf_or_finite : a = 0x7F800000#32 ∨ a = 0xFF800000#32 ∨ FiniteF32 a := by
  by_cases hf : FiniteF32 a
  · exact .inr (.inr hf)
  · have hm : magBits a = infMag := by
      rw [isNaN, decide_eq_false_iff_not] at ha; omega
    rw [← packF32_self a, hm]
    cases signBit a
    · exact .inl rfl
    · exact .inr (.inl rfl)

end Numbers

/-- The infinities are beyond every finite value. -/
theorem compare_inf_of_finite {a : F32} (hf : FiniteF32 a) :
    lt32 a 0x7F800000#32 = decide (a ≠ 0x7F800000#32) ∧ lt32 0x7F800000#32 a = false ∧
    le32 a 0x7F800000#32 = true ∧ le32 0x7F800000#32 a = decide (a = 0x7F800000#32) ∧
    lt32 0xFF800000#32 a = decide (a ≠ 0xFF800000#32) ∧ lt32 a 0xFF800000#32 = false ∧
    le32 0xFF800000#32 a = true ∧ le32 a 0xFF800000#32 = decide (a = 0xFF800000#32) := by
  obtain ⟨hlo, hhi⟩ := finite_iff_key.1 hf
  have hpos : isNaN 0x7F800000#32 = false ∧ ordKey 0x7F800000#32 = infMag := by decide
  have hneg : isNaN 0xFF800000#32 = false ∧ ordKey 0xFF800000#32 = -(infMag : Int) := by decide
  have hne : a ≠ 0x7F800000#32 ∧ a ≠ 0xFF800000#32 := by
    constructor <;> rintro rfl <;> revert hf <;> decide
  simp [lt32_eq_decide_key, le32_eq_decide_key, isNaN_of_finite hf, hpos, hneg, hne,
    hlo, hhi, hlo.le, hhi.le]

theorem strictMono_keyUnits : StrictMono keyUnits := fun _ _ => keyUnits_strictMono

/-- IEEE 754: a NaN has all exponent bits set and a significand field other than 0. -/
theorem isNaN_iff_fields (a : F32) :
    isNaN a = true ↔ a.extractLsb' 23 8 = 0xFF#8 ∧ a.extractLsb' 0 23 ≠ 0#23 := by
  have hexp : (a.extractLsb' 23 8).toNat = a.toNat / 8388608 % 256 := by
    rw [BitVec.extractLsb'_toNat, Nat.shiftRight_eq_div_pow]
  have hsig : (a.extractLsb' 0 23).toNat = a.toNat % 8388608 := by
    rw [BitVec.extractLsb'_toNat, Nat.shiftRight_zero]
  rw [isNaN, decide_eq_true_eq, magBits, infMag_eq, Ne, BitVec.toNat_eq, BitVec.toNat_eq, hexp, hsig,
    BitVec.toNat_ofNat, BitVec.toNat_ofNat]
  omega

/-- A sign bit above 31 magnitude bits, as a number. -/
theorem toNat_signBit_append (x : BitVec 1) (y : BitVec 31) :
    (x ++ y : F32).toNat = x.toNat * 2147483648 + y.toNat := by
  rw [BitVec.toNat_append, ← Nat.shiftLeft_add_eq_or_of_lt y.isLt, Nat.shiftLeft_eq]

theorem toNat_extract_magnitude (a : F32) : (a.extractLsb' 0 31).toNat = magBits a := by
  rw [BitVec.extractLsb'_toNat, Nat.shiftRight_zero]; rfl

theorem toNat_not_extract_sign (a : F32) :
    (~~~(a.extractLsb' 31 1)).toNat = if signBit a then 0 else 1 := by
  have hl := a.isLt
  rw [BitVec.toNat_not, BitVec.extractLsb'_toNat, Nat.shiftRight_eq_div_pow, signBit]
  split <;> simp_all <;> omega

theorem abs32_eq_append (a : F32) : abs32 a = (0#1 ++ a.extractLsb' 0 31 : F32) := by
  apply BitVec.eq_of_toNat_eq
  rw [abs32_toNat, toNat_signBit_append, toNat_extract_magnitude]
  simp

theorem neg32_eq_append (a : F32) : neg32 a = (~~~(a.extractLsb' 31 1) ++ a.extractLsb' 0 31 : F32) := by
  apply BitVec.eq_of_toNat_eq
  rw [neg32_toNat, toNat_signBit_append, toNat_extract_magnitude, toNat_not_extract_sign]
  split <;> omega

theorem floorInt_toF32 {n : Nat} (h : n ≤ 16777216) : floorInt (toF32 n) = some n := by
  obtain ⟨hf, -, hk⟩ := toF32_exact h
  rw [floorInt_of_nonneg hf (toF32_key_nonneg h), hk, Int.mul_ediv_cancel _ (by positivity)]
  rfl

theorem roundF32_roundedOnce (n : Nat) {d : F64} (hd : magBits64 d < infMag64) :
    RoundedOnce (valueUnits64 d) (2 ^ 925) (roundF32 n d) := by
  refine roundedOnce_of_eq_pack (s := signBit64 d) (by positivity) ?_ rfl
  have hnan : isNaN64 d = false := by unfold isNaN64; simp; omega
  unfold roundF32
  rw [hnan, if_neg Bool.false_ne_true, if_neg (by omega)]

theorem roundRational32_roundedOnce (neg : Bool) (num : Nat) {den : Nat} (h : 0 < den) :
    RoundedOnce ((if neg then -(num : Int) else num) * 2 ^ 149) den (roundRational32 neg num den) :=
  roundedOnce_of_eq_pack h rfl (by cases neg <;> simp)

/-- Settles O58: comparisons through the ordered keys, conversions through the one rounding. -/
theorem comparisonsOrderAndConversionsRound : Obligations.ComparisonsOrderAndConversionsRound := by
  refine ⟨fun a b h => ⟨lt32_of_isNaN h, le32_of_isNaN h⟩, fun a b ha hb => ?_, fun a ha => ?_,
    fun a b => ⟨rfl, rfl⟩, fun a => ⟨isNaN_iff_fields a, abs32_eq_append a, neg32_eq_append a⟩,
    fun n hn => ?_, fun n d => roundF32_roundedOnce n, fun n => ⟨rfl, rfl⟩,
    fun neg num den => roundRational32_roundedOnce neg num⟩
  · rw [valueUnits_eq_keyUnits, valueUnits_eq_keyUnits, lt32_eq_decide_key (isNaN_of_finite ha) (isNaN_of_finite hb),
      le32_eq_decide_key (isNaN_of_finite ha) (isNaN_of_finite hb)]
    simp only [strictMono_keyUnits.lt_iff_lt, strictMono_keyUnits.le_iff_le, and_self]
  · rcases eq_inf_or_finite ha with rfl | rfl | hf
    · decide
    · decide
    · exact compare_inf_of_finite hf
  · obtain ⟨-, -, hk⟩ := toF32_exact (n := n) (by omega)
    exact ⟨(valueUnits_eq_keyUnits _).trans hk, floorInt_toF32 (by omega)⟩

end Sys2Proof.Machine

/-! PROOFS of the statements about the state (spec/10_state.md R20 to R39). -/

namespace Sys2Proof.Machine

/-! ### Everything a command can answer next -/

/-- The next states of a command, by what gives it its meaning: a reserved field that is set (R69), or its own rule. -/
inductive ExecNext (s : State) : Instr → State → Prop where
  | notExecuted {i : Instr} (ws : List Word) (h : rsvOf i = true) : ExecNext s i (s.notExecuted ws)
  | configure {r : Byte} (ch : Half) (lo hi : Word) (h : rsvR r = false) :
      ExecNext s (.configure r ch lo hi) (configure ch lo hi s)
  | release {r : Byte} {imm : Half} (h : rsvBoth r imm = false) :
      ExecNext s (.release r imm) (endSession .released s)
  | writeReg (reg : Byte) {imm : Half} (v : Word) (h : rsvImm imm = false) :
      ExecNext s (.writeReg reg imm v) (writeRegister reg v s)
  | readReg (reg : Byte) (idx : Half) (h : rsvIndex reg idx = false) :
      ExecNext s (.readReg reg idx) (respondRead (readRegister reg idx s) s)
  | processFrame {r : Byte} {xs ys : List F32} {u : State} (h : rsvR r = false) (hf : frame xs s = .ok (u, ys)) :
      ExecNext s (.processFrame r xs) (u.respond ys)
  | processBlock {b : Byte} {n : Half} {xs ys : List F32} {u : State}
      (hf : frames b.toNat n.toNat xs s = .ok (u, ys)) : ExecNext s (.processBlock b n xs) (u.respond ys)
  | readDl {r : Byte} (ch : Half) (cell : Word) (h : rsvR r = false) :
      ExecNext s (.readDl r ch cell) (respondRead (readCell ch cell s) s)

/-- A processing command answers next only where its frames do. -/
theorem respondFrames_next {r : Except Fault (State × List F32)} {t : State} (h : respondFrames r = .next t) :
    ∃ u ys, r = .ok (u, ys) ∧ t = u.respond ys := by
  rcases r with f | ⟨u, ys⟩ <;> cases h
  exact ⟨u, ys, rfl, rfl⟩

/-- A command with a reserved field answers one of two states, as the field says (R69). -/
theorem reserved_next {c : Bool} {a b t : State}
    (h : (if c then .next a else .next b : Host.Outcome State Fault Refusal) = .next t) :
    (c = true ∧ t = a) ∨ (c = false ∧ t = b) := by
  cases c <;> cases h
  · exact .inr ⟨rfl, rfl⟩
  · exact .inl ⟨rfl, rfl⟩

/-- All a command can answer next. -/
theorem exec_next {i : Instr} {s t : State} (h : exec i s = .next t) : ExecNext s i t := by
  cases i with
  | configure r ch lo hi =>
    obtain ⟨hr, rfl⟩ | ⟨hr, rfl⟩ := reserved_next h
    · exact .notExecuted _ hr
    · exact .configure ch lo hi hr
  | release r imm =>
    obtain ⟨hr, rfl⟩ | ⟨hr, rfl⟩ := reserved_next h
    · exact .notExecuted _ hr
    · exact .release hr
  | writeReg reg imm v =>
    obtain ⟨hr, rfl⟩ | ⟨hr, rfl⟩ := reserved_next h
    · exact .notExecuted _ hr
    · exact .writeReg reg v hr
  | readReg reg idx =>
    obtain ⟨hr, rfl⟩ | ⟨hr, rfl⟩ := reserved_next h
    · exact .notExecuted _ hr
    · exact .readReg reg idx hr
  | readDl r ch cell =>
    obtain ⟨hr, rfl⟩ | ⟨hr, rfl⟩ := reserved_next h
    · exact .notExecuted _ hr
    · exact .readDl ch cell hr
  | processFrame r xs =>
    simp only [exec, execProcessFrame] at h
    split at h
    · next hr => cases h; exact .notExecuted _ hr
    · next hr =>
      obtain ⟨u, ys, hf, rfl⟩ := respondFrames_next h
      exact .processFrame (by simpa using hr) hf
  | processBlock b n xs =>
    obtain ⟨u, ys, hf, rfl⟩ := respondFrames_next h
    exact .processBlock hf

/-! ### The invariant (R39, R80) -/

/-- Every command keeps the invariant. -/
theorem inv_exec {i : Instr} {s t : State} (hs : s.Inv) (h : exec i s = .next t) : t.Inv := by
  cases exec_next h with
  | notExecuted ws => exact inv_notExecuted hs ws
  | configure ch lo hi => exact inv_configure hs ch lo hi
  | release => exact inv_endSession hs.params hs.canonical.wptr hs.canonical.wptrKeys (by decide)
  | writeReg reg v => exact inv_writeRegister hs reg v
  | readReg => exact inv_respondRead hs _
  | readDl => exact inv_respondRead hs _
  | processFrame _ hf =>
    obtain ⟨rfl, -, -⟩ := frame_cases hf
    exact inv_respond (inv_frameState hs _) _
  | processBlock hf =>
    obtain rfl := frames_cases hf
    exact inv_respond (inv_framesState hs _ _ _) _

/-- Settles O12: the host's taking, the command and the idle port each keep the invariant. -/
theorem stepKeepsTheInvariant : Obligations.StepKeepsTheInvariant := by
  intro s t hs h
  obtain ⟨i, rest, -, ho⟩ | ⟨e, -, ho⟩ := step_cases h
  · exact inv_exec (inv_setInput (inv_takeResponses hs) rest) ho.symm
  · cases ho
    exact inv_noCommand (inv_takeResponses hs) e

/-- Settles O11: nothing is listed and the block is disabled; the three parameters are compared with their bounds. -/
theorem resetMeetsTheInvariant : Obligations.ResetMeetsTheInvariant where
  params := ⟨by decide, by decide, by decide⟩
  extent := ⟨nofun, nofun, nofun, fun _ => ⟨rfl, rfl⟩⟩
  canonical := ⟨cellsWf_nil, cellsWf_nil, nofun, nofun⟩

/-- Settles O10: each register of R37's table as `State.reset` gives it. -/
theorem powerOnResetValues : Obligations.PowerOnResetValues :=
  ⟨rfl, rfl, rfl, rfl, rfl, rfl, rfl, rfl, rfl, rfl, rfl, rfl, fun _ => rfl⟩

/-! ### Runs (R150, R182) -/

/-- A command with a reserved field answers next either way. -/
theorem exists_reserved_next (c : Bool) (a b : State) :
    ∃ t, (if c then .next a else .next b : Host.Outcome State Fault Refusal) = .next t := by
  cases c <;> exact ⟨_, rfl⟩

/-- R150: with the invariant every command answers a next state; only a processing command could fail to. -/
theorem exists_exec_next {s : State} (hs : s.Inv) (i : Instr) : ∃ t, exec i s = .next t := by
  cases i with
  | configure => exact exists_reserved_next ..
  | release => exact exists_reserved_next ..
  | writeReg => exact exists_reserved_next ..
  | readReg => exact exists_reserved_next ..
  | readDl => exact exists_reserved_next ..
  | processFrame r xs =>
    obtain ⟨ys, hf⟩ := frame_ok (xs := xs) hs.sessionLegal
    simp only [exec, execProcessFrame, hf]
    exact exists_reserved_next ..
  | processBlock b n xs =>
    obtain ⟨ys, hf⟩ := frames_ok (b := b.toNat) (n := n.toNat) (xs := xs) hs.sessionLegal
    simp only [exec, execProcessBlock, hf]
    exact ⟨_, rfl⟩

/-- R150: nothing halts a block with the invariant. -/
theorem stepsOn_of_inv {s : State} (hs : s.Inv) : s.StepsOn := by
  obtain ⟨i, rest, -, ho⟩ | ⟨e, -, ho⟩ := step_cases (s := s) rfl
  · obtain ⟨t, ht⟩ := exists_exec_next (inv_setInput (inv_takeResponses hs) rest) i
    exact ⟨t, ho.trans ht⟩
  · exact ⟨_, ho⟩

/-- The invariant holds along every run. -/
theorem inv_of_reachable {s : State} (h : Reachable s) : s.Inv := by
  induction h with
  | reset => exact resetMeetsTheInvariant
  | step _ hst ih => exact stepKeepsTheInvariant _ _ ih hst
  | send ws _ ih => exact inv_send ih ws

/-- R21, R39(e): no bit above 3 of `STATUS` is set. -/
theorem statusWord_lt (s : State) : s.statusWord.toNat < 16 := by
  have hw : s.statusWord = (BitVec.ofBool s.badCmd ++ s.state.code).setWidth 32 := by
    unfold State.statusWord
    cases s.badCmd <;> cases s.state <;> rfl
  rw [hw, BitVec.toNat_setWidth]
  omega

/-- Settles O14: every state of a run has the invariant, which R39 reads off. -/
theorem everyRunKeepsR39 : Obligations.EveryRunKeepsR39 := by
  intro s hr
  obtain ⟨⟨hrate, hdepth, hmix⟩, ⟨hcap, hch, hcur, hoff⟩, -⟩ := inv_of_reachable hr
  exact ⟨hrate, hdepth, hmix, fun he => ⟨(hcap he).1, (hcap he).2, hch he⟩, hcur, hoff, statusWord_lt s,
    stepsOn_of_inv (inv_of_reachable hr)⟩

/-! ### The parameters (R27 to R29, R36) -/

/-- R36: a value of the interval is kept as it is, `-0` too. -/
theorem clamp32_of_mem {v lo hi : F32} (h1 : le32 lo v = true) (h2 : le32 v hi = true) : clamp32 v lo hi = v := by
  have hge : ge32 v lo = true := h1
  simp [clamp32, hge, gt32_false_of_le h2]

/-- Settles O22: the three facts about a clamp, at the parameters' bounds. -/
theorem storedParametersAreInTheirDomains : Obligations.StoredParametersAreInTheirDomains := fun v =>
  ⟨clampRate_bounds v, clampUnit_bounds v, clamp32_of_mem, clamp32_of_mem,
    fun hv => ⟨clamp32_nan _ _ hv, clamp32_nan _ _ hv⟩, clamp32_of_mem (by decide) (by decide)⟩

/-! ### The session's registers (R22 to R26) -/

/-- R22 to R26: the registers that CONFIGURE and RELEASE alone write. -/
def State.sessionRegisters (s : State) : StateCode × Word × Word × Word × Word × F32 :=
  (s.state, s.capacity, s.channels, s.srLo, s.srHi, s.sr32)

/-- The words left on the port and the host's log (log entry 6), which no command touches. -/
def State.hostWords (s : State) : List Word × List Word := (s.cmdIn, s.hostLog)

/-- `t` has the session's registers and the host's words of `s`. -/
def State.SameSession (s t : State) : Prop :=
  t.sessionRegisters = s.sessionRegisters ∧ t.hostWords = s.hostWords

theorem sameSession_writeStatus (v : Word) (s : State) : s.SameSession (s.writeStatus v) := by
  unfold State.writeStatus
  split <;> exact ⟨rfl, rfl⟩

theorem sameSession_writeRegister (reg : Byte) (v : Word) (s : State) : s.SameSession (writeRegister reg v s) := by
  rcases writeRegister_cases reg v s with e | e | e | e | e <;> rw [e]
  · exact ⟨rfl, rfl⟩
  · exact ⟨rfl, rfl⟩
  · exact ⟨rfl, rfl⟩
  · exact sameSession_writeStatus v s
  · exact ⟨rfl, rfl⟩

theorem sameSession_respondRead (found : Option Word) (s : State) : s.SameSession (respondRead found s) := by
  cases found <;> exact ⟨rfl, rfl⟩

/-- The oscillator step and the lanes write the oscillator, the cursors and the cells alone. -/
theorem sameSession_frameState {s u : State} (xs : List F32) (h : s.SameSession u) :
    s.SameSession (frameState xs u) :=
  frameState_keeps (P := s.SameSession) (fun _ _ h => h) (fun _ _ _ _ _ h => h) xs u h

theorem sameSession_framesState (b n : Nat) (xs : List F32) (s : State) : s.SameSession (framesState b n xs s) :=
  framesState_keeps (P := s.SameSession) b (fun ys _ h => sameSession_frameState ys h) n xs s ⟨rfl, rfl⟩

theorem configure_hostWords (ch : Half) (lo hi : Word) (s : State) :
    (configure ch lo hi s).hostWords = s.hostWords := by
  obtain ⟨-, e⟩ | ⟨-, e⟩ := configure_cases ch lo hi s <;> rw [e] <;> rfl

/-- What a command can do to the session: CONFIGURE and RELEASE have their effect, all else leaves it. -/
theorem exec_session_cases {i : Instr} {s t : State} (h : exec i s = .next t) :
    (∃ r ch lo hi, i = .configure r ch lo hi ∧ t = configure ch lo hi s) ∨
    (∃ r imm, i = .release r imm ∧ t = endSession .released s) ∨ s.SameSession t := by
  cases exec_next h with
  | notExecuted ws => exact .inr (.inr ⟨rfl, rfl⟩)
  | configure ch lo hi => exact .inl ⟨_, ch, lo, hi, rfl, rfl⟩
  | release => exact .inr (.inl ⟨_, _, rfl, rfl⟩)
  | writeReg reg v => exact .inr (.inr (sameSession_writeRegister reg v s))
  | readReg => exact .inr (.inr (sameSession_respondRead _ s))
  | readDl => exact .inr (.inr (sameSession_respondRead _ s))
  | processFrame _ hf =>
    obtain ⟨rfl, -, -⟩ := frame_cases hf
    exact .inr (.inr (sameSession_frameState _ ⟨rfl, rfl⟩))
  | processBlock hf =>
    obtain rfl := frames_cases hf
    exact .inr (.inr (sameSession_framesState _ _ _ s))

/-- Settles O31: of the three things a command can do to the session, the third is left. -/
theorem sessionRegistersChangeOnlyInConfigureAndRelease :
    Obligations.SessionRegistersChangeOnlyInConfigureAndRelease := by
  intro s t i h
  obtain ⟨r, ch, lo, hi, rfl, rfl⟩ | ⟨r, imm, rfl, rfl⟩ | ⟨hreg, hwords⟩ := exec_session_cases h
  · obtain ⟨hin, hlog⟩ := Prod.mk.inj (configure_hostWords ch lo hi s)
    exact ⟨hin, hlog, fun hc _ => absurd rfl (hc r ch lo hi)⟩
  · exact ⟨rfl, rfl, fun _ hr => absurd rfl (hr r imm)⟩
  · obtain ⟨hin, hlog⟩ := Prod.mk.inj hwords
    exact ⟨hin, hlog, fun _ _ => by simpa [State.sessionRegisters] using hreg⟩

/-! ### The sample rate of the session (R23 to R26, R131, R132) -/

/-- Whether the session is that of its sample rate is a matter of the session's registers. -/
theorem sessionOfSampleRate_congr {s t : State} (h : t.sessionRegisters = s.sessionRegisters)
    (hs : s.SessionOfSampleRate) : t.SessionOfSampleRate := by
  simp only [State.sessionRegisters, Prod.mk.injEq] at h
  obtain ⟨hst, hcap, hch, hlo, hhi, hsr⟩ := h
  simpa only [State.SessionOfSampleRate, hst, hcap, hch, hlo, hhi, hsr] using hs

/-- The rounding of a sample rate that is no NaN uses no free NaN. -/
theorem roundF32_draw {d : F64} (h : isNaN64 d = false) (n m : Nat) : roundF32 n d = roundF32 m d := by
  unfold roundF32
  rw [h]
  rfl

/-- R131, R132: an executed CONFIGURE leaves a session of its sample rate, or none. -/
theorem sessionOfSampleRate_configure (ch : Half) (lo hi : Word) (s : State) :
    (configure ch lo hi s).SessionOfSampleRate := by
  obtain ⟨hc, e⟩ | ⟨hc, e⟩ := configure_cases ch lo hi s <;> rw [e]
  · obtain ⟨hfin, -, -, -, -, -, hcap⟩ := (checkConfig_enabled_iff _ _).1 hc
    have hmax := maxCapacity_bounds
    have hch : (BitVec.ofNat 32 ch.toNat).toNat = ch.toNat :=
      (BitVec.toNat_ofNat ..).trans (Nat.mod_eq_of_lt (by omega))
    have hword : (BitVec.ofNat 32 (capacityOf (sampleRateOf lo hi))).toNat = capacityOf (sampleRateOf lo hi) :=
      (BitVec.toNat_ofNat ..).trans (Nat.mod_eq_of_lt (by omega))
    have hnan : isNaN64 (sampleRateOf lo hi) = false := decide_eq_false (Nat.not_lt.2 hfin.le)
    exact fun _ => ⟨(congrArg _ hch).trans hc, hword, fun n => roundF32_draw hnan _ n⟩
  · exact fun he => absurd he hc

theorem sessionOfSampleRate_exec {i : Instr} {s t : State} (hs : s.SessionOfSampleRate) (h : exec i s = .next t) :
    t.SessionOfSampleRate := by
  obtain ⟨-, ch, lo, hi, -, rfl⟩ | ⟨-, -, -, rfl⟩ | ⟨hreg, -⟩ := exec_session_cases h
  · exact sessionOfSampleRate_configure ch lo hi s
  · exact nofun
  · exact sessionOfSampleRate_congr hreg hs

theorem noCommand_sessionRegisters (e : DecodeError) (s : State) :
    (noCommand e s).sessionRegisters = s.sessionRegisters := by
  cases e <;> rfl

/-- Settles O15: a CONFIGURE makes it so, RELEASE disables the block, and nothing else touches the registers. -/
theorem sessionRegistersFollowTheSampleRate : Obligations.SessionRegistersFollowTheSampleRate := by
  refine ⟨nofun, fun s t _ hs h => ?_⟩
  obtain ⟨i, rest, -, ho⟩ | ⟨e, -, ho⟩ := step_cases h
  · have hport : (s.takeResponses.setInput rest).sessionRegisters = s.sessionRegisters := rfl
    exact sessionOfSampleRate_exec (sessionOfSampleRate_congr hport hs) ho.symm
  · cases ho
    exact sessionOfSampleRate_congr (noCommand_sessionRegisters e s.takeResponses) hs

end Sys2Proof.Machine

/-! PROOFS of the statements about the memory and the processing commands' footprint (spec/20_memory.md R41 to R54). -/

namespace Sys2Proof.Machine

/-! ### The byte transport (spec/20_memory.md R45) -/

/-- Four bytes, least significant first, are the word they were taken from. -/
theorem wordsOfBytes_bytesOfWord_append (w : Word) (bs : List Byte) :
    wordsOfBytes (bytesOfWord w ++ bs) = w :: wordsOfBytes bs :=
  congrArg (· :: wordsOfBytes bs) (word_of_its_bytes w)

theorem wordsOfBytes_bytesOfWords (ws : List Word) : wordsOfBytes (bytesOfWords ws) = ws := by
  induction ws with
  | nil => rfl
  | cons w ws ih => rw [bytesOfWords, wordsOfBytes_bytesOfWord_append, ih]

/-- Settles O8: the words come back one by one, and the decoder on bytes reads those words. -/
theorem byteTransportKeepsTheWords : Obligations.ByteTransportKeepsTheWords := fun ws =>
  ⟨wordsOfBytes_bytesOfWords ws, congrArg decode (wordsOfBytes_bytesOfWords ws), fun _ => rfl⟩

/-! ### MemRead after MemWrite (spec/20_memory.md R42, R43) -/

theorem memWrite_ok {s : State} {c i : Nat} (v : Word) (h : s.active c i = true) :
    memWrite c i v s = .ok (s.setMem (s.mem.writeWord (cellAddr c i) v)) := if_pos h

theorem memRead_of_cell {s : State} {c i : Nat} {v : Word} (h : s.cell c i = some v) :
    memRead c i s = .ok v := by simp only [memRead, h]

/-- MemRead answers by the cell alone. -/
theorem memRead_congr {s t : State} {c i : Nat} (h : t.cell c i = s.cell c i) :
    memRead c i t = memRead c i s := by simp only [memRead, h]

/-- Settles O32: what a word write does to its own cell and to the others, read through MemRead. -/
theorem cellReadsBackWhatWasWritten : Obligations.CellReadsBackWhatWasWritten := by
  intro s c i v hm hc hi
  have ha : s.active c i = true := active_iff.2 ⟨hc, hi⟩
  have hi32 : i < 4294967296 := hi.trans s.capacity.isLt
  exact ⟨_, memWrite_ok v ha, memRead_of_cell (cell_writeWord_same hm v ha), rfl,
    fun _ _ hne _ _ => memRead_congr (cell_writeWord_other v hi32 hne)⟩

/-! ### A frame, lane by lane (spec/20_memory.md R54) -/

/-- R120: a frame that is processed runs its lanes after the oscillator step. -/
theorem frame_on {xs : List F32} {s : State} (h : s.processes xs.length = true) :
    frame xs s = lanesFrom 0 xs (oscStep s) := if_pos h

/-- PROCESS_FRAME answers with the outputs of its frame. -/
theorem exec_processFrame_ok {xs ys : List F32} {s u : State} (h : frame xs s = .ok (u, ys)) :
    exec (.processFrame 0 xs) s = .next (u.respond ys) := by
  show respondFrames (frame xs s) = _
  rw [h]; rfl

theorem processes_of_inv {s : State} {b : Nat} (hs : s.Inv) (he : s.state = .enabled) (hb : b ≠ 0) :
    s.processes b = true :=
  processes_iff.2 ⟨he, Nat.one_le_iff_ne_zero.2 hb, (hs.extent.channels he).1⟩

/-- Settles O38: the frame is its lanes after the oscillator step, and `lanes_each` says what each of them does. -/
theorem frameRunsItsLanesIndependently : Obligations.FrameRunsItsLanesIndependently := by
  intro s xs hs he hxs
  have hp : s.processes xs.length = true := processes_of_inv hs he (mt List.length_eq_zero_iff.1 hxs)
  obtain ⟨ys, hf⟩ := frame_ok (xs := xs) hs.sessionLegal
  have hl := (frame_on hp).symm.trans hf
  obtain ⟨hpass, hlane, hidle⟩ := lanes_each xs 0 _ _ ys (inv_oscStep hs) he hl
  simp only [Nat.zero_add] at hpass hlane hidle
  exact ⟨_, ys, exec_processFrame_ok hf, congrArg (· ++ ys) (frameState_respOut xs s), (frame_cases hf).2.1,
    hpass, hlane, fun c hc => hidle c (.inr hc)⟩

/-! ### What processing leaves unchanged (spec/20_memory.md R41, spec/43_engine.md R120, R121) -/

/-- `t` is `s` but for the oscillator, the cursors, the cells and the count of free NaNs. -/
def State.ProcessedFrom (s t : State) : Prop :=
  ∃ (p v : F32) (w : Cursors) (m : Memory) (k : Nat),
    t = { s with phase := p, smooth := v, wptr := w, mem := m, nanDraw := k }

theorem processedFrom_refl (s : State) : s.ProcessedFrom s := ⟨_, _, _, _, _, rfl⟩

theorem processedFrom_frameState {s t : State} (xs : List F32) (h : s.ProcessedFrom t) :
    s.ProcessedFrom (frameState xs t) := by
  refine frameState_keeps (P := s.ProcessedFrom) ?_ ?_ xs t h
  · rintro _ _ ⟨p, v, w, m, k, rfl⟩
    exact ⟨_, _, _, _, _, rfl⟩
  · rintro c x _ _ _ ⟨p, v, w, m, k, rfl⟩
    exact ⟨_, _, _, _, _, rfl⟩

theorem processedFrom_framesState (b n : Nat) (xs : List F32) (s : State) :
    s.ProcessedFrom (framesState b n xs s) :=
  framesState_keeps (P := s.ProcessedFrom) b (fun ys _ h => processedFrom_frameState ys h) n xs s
    (processedFrom_refl s)

/-- The cursors that the frames of a block leave alone. -/
theorem framesState_cursor_ge {b c : Nat} : ∀ (n : Nat) (xs : List F32) (s : State),
    b ≤ c ∨ s.channels.toNat ≤ c → (framesState b n xs s).cursor c = s.cursor c := by
  intro n
  induction n with
  | zero => intro xs s _; rfl
  | succ n ih =>
    intro xs s h
    rw [framesState, ih _ _ (by rwa [frameState_channels])]
    exact frameState_cursor_ge (h.imp_left (List.length_take_le b xs).trans)

/-- Only an enabled block has channels (R39). -/
theorem enabled_of_channel {s : State} {c : Nat} (hs : s.Inv) (hc : c < s.channels.toNat) : s.state = .enabled := by
  by_contra hn
  rw [(hs.extent.disabled hn).2] at hc
  exact Nat.not_lt_zero c hc

/-- R77: a frame leaves a channel's cursor or moves it by 1. -/
theorem frameState_cursor_cases {s : State} {c : Nat} (hs : s.Inv) (hc : c < s.channels.toNat) (xs : List F32) :
    ((frameState xs s).cursor c).toNat = (s.cursor c).toNat ∨
      ((frameState xs s).cursor c).toNat = ((s.cursor c).toNat + 1) % s.capacity.toNat := by
  have he := enabled_of_channel hs hc
  rw [frameState_cursor xs (hs.sessionLegal he) he c]
  split
  · exact .inr rfl
  · exact .inl rfl

/-- The byte at `a` is outside every cell that `n` frames of `b` lanes write: those at the processed lanes' cursors,
moving by 1 a frame. -/
def State.OutsideFrames (s : State) (b n a : Nat) : Prop :=
  ∀ c k, c < b → c < s.channels.toNat → k < n →
    a < cellAddr c (((s.cursor c).toNat + k) % s.capacity.toNat) ∨
    cellAddr c (((s.cursor c).toNat + k) % s.capacity.toNat) + 4 ≤ a

/-- A byte outside the cells of `n + 1` frames is, after the first of them, outside the cells of the others. -/
theorem outsideFrames_frameState {s : State} {b n a : Nat} (hs : s.Inv) (xs : List F32)
    (h : s.OutsideFrames b (n + 1) a) : (frameState xs s).OutsideFrames b n a := by
  intro c k hb hc hk
  rw [frameState_channels] at hc
  rw [frameState_capacity]
  rcases frameState_cursor_cases hs hc xs with e | e <;> rw [e]
  · exact h c k hb hc (by omega)
  · rw [Nat.mod_add_mod, Nat.add_assoc, Nat.add_comm 1]
    exact h c (k + 1) hb hc (by omega)

/-- R43: the first of several frames writes its lanes' cells alone. -/
theorem frameState_readByte_of_outside {s : State} {b n a : Nat} (hs : s.Inv) {xs : List F32} (hx : xs.length ≤ b)
    (h : s.OutsideFrames b (n + 1) a) : (frameState xs s).mem.readByte a = s.mem.readByte a := by
  refine frameState_readByte fun c hl hc => ?_
  have hcur := hs.extent.cursors (enabled_of_channel hs hc) c hc
  simpa [Nat.mod_eq_of_lt hcur] using h c 0 (hl.trans_le hx) hc n.succ_pos

/-- R43: the frames of a block write no byte outside their cells. -/
theorem framesState_readByte {b a : Nat} : ∀ (n : Nat) (xs : List F32) (s : State), s.Inv → s.OutsideFrames b n a →
    (framesState b n xs s).mem.readByte a = s.mem.readByte a := by
  intro n
  induction n with
  | zero => intro xs s _ _; rfl
  | succ n ih =>
    intro xs s hs h
    rw [framesState, ih _ _ (inv_frameState hs _) (outsideFrames_frameState hs _ h)]
    exact frameState_readByte_of_outside hs (List.length_take_le b xs) h

/-- R121: a frame is a block of one frame. -/
theorem framesState_one (xs : List F32) (s : State) : framesState xs.length 1 xs s = frameState xs s :=
  congrArg (frameState · s) List.take_length

/-- All a processing command can answer: it is not executed, or it runs `n` frames of `b` lanes. -/
theorem exec_processing_cases {s t : State} {i : Instr} {b n : Nat}
    (hi : (∃ r xs, i = .processFrame r xs ∧ b = xs.length ∧ n = 1) ∨
      (∃ b' n' xs, i = .processBlock b' n' xs ∧ b = b'.toNat ∧ n = n'.toNat))
    (h : exec i s = .next t) :
    (rsvOf i = true ∧ ∃ ws, t = s.notExecuted ws) ∨ ∃ xs ys, t = (framesState b n xs s).respond ys := by
  obtain ⟨r, xs, rfl, rfl, rfl⟩ | ⟨b', n', xs, rfl, rfl, rfl⟩ := hi
  · cases exec_next h with
    | notExecuted ws hr => exact .inl ⟨hr, ws, rfl⟩
    | processFrame _ hf => exact .inr ⟨xs, _, by rw [framesState_one, (frame_cases hf).1]⟩
  · cases exec_next h with
    | notExecuted ws hr => exact .inl ⟨hr, ws, rfl⟩
    | processBlock hf => exact .inr ⟨xs, _, by rw [frames_cases hf]⟩

/-- Settles O42: a command that is not executed changes no memory at all, and the frames of one that is have the three
facts above. -/
theorem processingFrameConditions : Obligations.ProcessingFrameConditions := by
  intro s t i b n hi hs h
  obtain ⟨hr, ws, rfl⟩ | ⟨xs, ys, rfl⟩ := exec_processing_cases hi h
  · exact ⟨rfl, fun hn => absurd (hr.symm.trans hn) (by decide), fun _ _ => rfl, fun _ _ => rfl⟩
  · obtain ⟨p, v, w, m, k, e⟩ := processedFrom_framesState b n xs s
    refine ⟨?_, fun _ => ?_, fun c hc => framesState_cursor_ge n xs s hc,
      fun a ha => framesState_readByte n xs s hs ha⟩
    · rw [e]; rfl
    · rw [e]; rfl

end Sys2Proof.Machine

/-! PROOFS of the statements about the command stream and its encoding (spec/30_encoding.md R55 to R74). -/

namespace Sys2Proof.Machine

/-! ### The decoder and the encoder (R57, R59 to R66, R74) -/

/-- R66: the words of every well-formed command have the length its header announces. -/
theorem encode_is_header_and_operands (i : Instr) : Laws.CommandLength.Statement i := by
  cases i with
  | configure r ch lo hi => exact Laws.CommandLength.configure r ch lo hi
  | release r imm => exact Laws.CommandLength.release r imm
  | writeReg reg imm v => exact Laws.CommandLength.writeReg reg imm v
  | readReg reg idx => exact Laws.CommandLength.readReg reg idx
  | processFrame r xs => exact Laws.CommandLength.processFrame r xs
  | processBlock b n xs => exact Laws.CommandLength.processBlock b n xs
  | readDl r ch i => exact Laws.CommandLength.readDl r ch i

/-- A command is built back from the header and the operand words that encode it. -/
theorem buildInstr_of_encode {i : Instr} {h : Word} {args : List Word} (he : encode i = h :: args) :
    buildInstr (headerOf h) args = some i := by
  cases i with
  | processFrame r xs => cases he; rw [headerOf_headerWord, buildInstr_processFrame]
  | processBlock b n xs => cases he; rw [headerOf_headerWord, buildInstr_processBlock]
  | _ => cases he; rw [headerOf_headerWord]; rfl

/-- R57: a command built from a legal header and as many operand words as it announces is well-formed, and these words
encode it. -/
theorem encode_of_buildInstr {h : Header} {args : List Word} {i : Instr} (hop : illegalOp h.op = false)
    (hl : args.length = opsCount h) (hb : buildInstr h args = some i) :
    i.wellFormed = true ∧ encode i = headerWord h.op h.r h.imm :: args := by
  obtain ⟨op, r, imm⟩ := h
  rcases legalOp_cases hop with rfl | rfl | rfl | rfl | rfl | rfl | rfl
  · obtain ⟨lo, hi, rfl⟩ := List.length_eq_two.1 hl
    cases hb; exact ⟨rfl, rfl⟩
  · obtain rfl := List.length_eq_zero_iff.1 hl
    cases hb; exact ⟨rfl, rfl⟩
  · obtain ⟨v, rfl⟩ := List.length_eq_one_iff.1 hl
    cases hb; exact ⟨rfl, rfl⟩
  · obtain rfl := List.length_eq_zero_iff.1 hl
    cases hb; exact ⟨rfl, rfl⟩
  · obtain rfl := Option.some.inj ((buildInstr_processFrame r imm args).symm.trans hb)
    rw [opsCount_processFrame] at hl
    have hlt : args.length < 65536 := hl.trans_lt imm.isLt
    exact ⟨decide_eq_true hlt, by rw [encode, hl, BitVec.ofNat_toNat, BitVec.setWidth_eq]⟩
  · obtain rfl := Option.some.inj ((buildInstr_processBlock r imm args).symm.trans hb)
    exact ⟨decide_eq_true hl, rfl⟩
  · obtain ⟨i, rfl⟩ := List.length_eq_one_iff.1 hl
    cases hb; exact ⟨rfl, rfl⟩

/-- R55, R74: the decoder takes a legal header and the operand words it announces, and no word after them. -/
theorem decode_append {h : Word} {args : List Word} {i : Instr} (hop : illegalOp (headerOf h).op = false)
    (hl : args.length = opsCount (headerOf h)) (hb : buildInstr (headerOf h) args = some i) (rest : List Word) :
    decode (h :: args ++ rest) = .ok (i, rest) := by
  rw [List.cons_append, decode_cons, hop, if_neg Bool.false_ne_true, ← hl,
    if_neg (by rw [List.length_append]; omega), List.take_left, List.drop_left, hb]

/-- Settles O1: the words of a command are a header and its announced operands, from which the command is built back. -/
theorem decodeOfEncodeIsTheCommand : Obligations.DecodeOfEncodeIsTheCommand := by
  intro i rest hw
  obtain ⟨h, args, he, hop, hl⟩ := encode_is_header_and_operands i hw
  rw [he]
  exact decode_append hop hl (buildInstr_of_encode he) rest

/-- Settles O2: of the decoder's three answers to a header only the last is a command, built from the words taken. -/
theorem encodeOfDecodeIsTheWords : Obligations.EncodeOfDecodeIsTheWords := by
  intro ws rest i hd
  cases ws with
  | nil => cases hd
  | cons h tl =>
    obtain ⟨-, e⟩ | ⟨-, -, e⟩ | ⟨hop, hl, j, hb, e⟩ := decode_cons_cases hd
    · cases e
    · cases e
    · cases e
      obtain ⟨hw, he⟩ := encode_of_buildInstr hop (List.length_take_of_le hl) hb
      refine ⟨hw, ?_⟩
      rw [he, headerWord_headerOf, List.cons_append, List.take_append_drop]

/-- Settles O5: each list is the words that encode the command, with none after them. -/
theorem writtenOutWordsDecode : Obligations.WrittenOutWordsDecode :=
  ⟨decodeOfEncodeIsTheCommand (.configure 0 1 0x00000000 0x40E58880) [] rfl,
    decodeOfEncodeIsTheCommand (.release 0 0) [] rfl,
    decodeOfEncodeIsTheCommand (.writeReg 0x08 0 0x3F4CCCCD) [] rfl,
    decodeOfEncodeIsTheCommand (.readReg 0x20 3) [] rfl,
    decodeOfEncodeIsTheCommand (.processFrame 0 [0x3F800000]) [] rfl,
    decodeOfEncodeIsTheCommand (.processBlock 2 1 [0x3F000000, 0xBF000000]) [] rfl,
    decodeOfEncodeIsTheCommand (.readDl 0 0 0x358) [] rfl⟩

/-! ### The length of a command and illegal headers (R57, R66, R70) -/

/-- R57: the operand words of a header, as its three fields give them. -/
theorem opsCount_eq (h : Header) : opsCount h =
    if h.op.toNat = 1 then 2 else if h.op.toNat = 3 ∨ h.op.toNat = 7 then 1
    else if h.op.toNat = 5 then h.imm.toNat else if h.op.toNat = 6 then h.imm.toNat * h.r.toNat else 0 := by
  unfold opsCount
  split
  case h_6 h1 h3 h5 h6 h7 => rw [if_neg h1, if_neg (not_or_intro h3 h7), if_neg h5, if_neg h6]
  all_goals next hop => rw [hop]; rfl

/-- R70: a step on an illegal header takes that word alone and sets `BADCMD`. -/
theorem step_illegal {s : State} {h : Word} {rest : List Word} (hc : s.cmdIn = h :: rest)
    (hop : illegalOp (headerOf h).op = true) : step s = .next (s.takeResponses.setInput rest).setBadCmd := by
  have hd : decode s.cmdIn = .error (.illegalOpcode (headerOf h).op) := by rw [hc, decode_cons, if_pos hop]
  obtain ⟨i, rest', hd', -⟩ | ⟨e, hd', hs⟩ := step_cases (s := s) rfl
  · cases hd.symm.trans hd'
  · cases hd.symm.trans hd'
    rw [hs, noCommand, State.illegalHeader, State.takeResponses_cmdIn, hc, List.tail_cons]

/-- Settles O3: an illegal header by its step, a legal one by the decoder's answers to a header. -/
theorem lengthIsAFunctionOfTheHeader : Obligations.LengthIsAFunctionOfTheHeader := by
  intro h rest
  dsimp only
  split
  · next hop => exact fun s hc => ⟨_, step_illegal hc (illegalOp_iff.2 hop), rfl⟩
  · next hop =>
    have hlegal : illegalOp (headerOf h).op ≠ true := mt illegalOp_iff.1 hop
    have hops := opsCount_eq (headerOf h)
    obtain ⟨hill, -⟩ | ⟨-, hlt, e⟩ | ⟨-, hle, i, -, e⟩ := decode_cons_cases (h := h) (rest := rest) rfl
    · exact absurd hill hlegal
    · rw [hops] at hlt e
      exact ⟨fun hle => absurd hlt (Nat.not_lt.2 hle), fun _ => e⟩
    · rw [hops] at hle e
      exact ⟨fun _ => ⟨i, e⟩, fun hlt => absurd hlt (Nat.not_lt.2 hle)⟩

/-- Settles O4: the step takes the header's word and sets the bit; the host has taken the responses. -/
theorem illegalHeaderSetsBadCmd : Obligations.IllegalHeaderSetsBadCmd := fun _ _ _ hc hop =>
  ⟨_, step_illegal hc (illegalOp_iff.2 hop), rfl, List.append_nil _⟩

/-! ### Reserved fields (R69) -/

/-- R67, R69: what a command with a nonzero reserved field responds. PROCESS_BLOCK has no such field. -/
def reservedResponse : Instr → List Word
  | .configure _ _ _ _ => []
  | .release _ _ => []
  | .writeReg _ _ _ => []
  | .readReg _ _ => [0]
  | .processFrame _ xs => xs
  | .processBlock _ _ xs => xs
  | .readDl _ _ _ => [0]

/-- R69: a command with a nonzero reserved field is not executed. -/
theorem exec_of_rsvOf {i : Instr} (hr : rsvOf i = true) (s : State) :
    exec i s = .next (s.notExecuted (reservedResponse i)) := by
  cases i with
  | processBlock => cases hr
  | configure => exact if_pos hr
  | release => exact if_pos hr
  | writeReg => exact if_pos hr
  | readReg => exact if_pos hr
  | processFrame => exact if_pos hr
  | readDl => exact if_pos hr

theorem rsvR_of_ne {r : Byte} (h : r ≠ 0) : rsvR r = true := decide_eq_true h

theorem rsvImm_of_ne {imm : Half} (h : imm ≠ 0) : rsvImm imm = true := decide_eq_true h

theorem rsvBoth_of_ne {r : Byte} {imm : Half} (h : r ≠ 0 ∨ imm ≠ 0) : rsvBoth r imm = true := by
  simpa [rsvBoth] using h

theorem rsvIndex_of_ne {reg : Byte} {idx : Half} (hreg : reg ≠ 0x20) (hidx : idx ≠ 0) : rsvIndex reg idx = true := by
  rw [rsvIndex, decide_eq_true hreg, decide_eq_true hidx, Bool.and_self]

/-- Settles O26: each form has its reserved field set, and a step on its words runs it once they are taken. -/
theorem reservedFieldsAreNotExecuted : Obligations.ReservedFieldsAreNotExecuted := by
  intro s r imm
  refine ⟨fun h => ⟨fun ch lo hi => ?_, fun xs => ?_, fun ch i => ?_⟩, fun h => ?_,
    fun h => ⟨fun reg v => ?_, fun reg hreg => ?_⟩, fun i rest hd hr => ?_⟩
  · exact exec_of_rsvOf (i := .configure r ch lo hi) (rsvR_of_ne h) s
  · exact exec_of_rsvOf (i := .processFrame r xs) (rsvR_of_ne h) s
  · exact exec_of_rsvOf (i := .readDl r ch i) (rsvR_of_ne h) s
  · exact exec_of_rsvOf (i := .release r imm) (rsvBoth_of_ne h) s
  · exact exec_of_rsvOf (i := .writeReg reg imm v) (rsvImm_of_ne h) s
  · exact exec_of_rsvOf (i := .readReg reg imm) (rsvIndex_of_ne hreg h) s
  · refine ⟨_, (stepRunsTheDecodedCommand s i rest hd).trans (exec_of_rsvOf hr _), rfl, ?_⟩
    cases i <;> rfl

/-! ### The number of responses (R57, R67) -/

theorem configure_respOut (ch : Half) (lo hi : Word) (s : State) : (configure ch lo hi s).respOut = s.respOut := by
  obtain ⟨-, e⟩ | ⟨-, e⟩ := configure_cases ch lo hi s <;> rw [e] <;> rfl

theorem writeStatus_respOut (v : Word) (s : State) : (s.writeStatus v).respOut = s.respOut := by
  unfold State.writeStatus
  split <;> rfl

theorem writeRegister_respOut (reg : Byte) (v : Word) (s : State) :
    (writeRegister reg v s).respOut = s.respOut := by
  obtain e | e | e | e | e := writeRegister_cases reg v s <;> rw [e]
  case inr.inr.inr.inl => exact writeStatus_respOut v s
  all_goals rfl

/-- R142, R145: a read responds one word, found or not. -/
theorem respondRead_respOut (found : Option Word) (s : State) :
    (respondRead found s).respOut = s.respOut ++ [found.getD 0] := by
  cases found <;> rfl

theorem framesState_respOut (b n : Nat) (xs : List F32) (s : State) :
    (framesState b n xs s).respOut = s.respOut :=
  framesState_keeps (P := fun t => t.respOut = s.respOut) b
    (fun ys u h => (frameState_respOut ys u).trans h) n xs s rfl

/-- Settles O27: a command that is not executed answers its reserved response; one that is, by its own rule. -/
theorem responsesAreAsManyAsTheHeaderSays : Obligations.ResponsesAreAsManyAsTheHeaderSays := by
  intro s t i hw h
  by_cases hr : rsvOf i = true
  · cases (exec_of_rsvOf hr s).symm.trans h
    refine ⟨reservedResponse i, rfl, ?_⟩
    cases i with
    | processBlock => cases hr
    | _ => rfl
  · cases exec_next h with
    | notExecuted _ hr' => exact absurd hr' hr
    | configure ch lo hi => exact ⟨[], by rw [configure_respOut, List.append_nil], rfl⟩
    | release => exact ⟨[], (List.append_nil _).symm, rfl⟩
    | writeReg reg v => exact ⟨[], by rw [writeRegister_respOut, List.append_nil], rfl⟩
    | readReg => exact ⟨_, respondRead_respOut _ s, rfl⟩
    | readDl => exact ⟨_, respondRead_respOut _ s, rfl⟩
    | processFrame _ hf =>
      obtain ⟨rfl, hlen, -⟩ := frame_cases hf
      exact ⟨_, congrArg (· ++ _) (frameState_respOut _ s), hlen⟩
    | processBlock hf =>
      have hlen := frames_length (of_decide_eq_true hw) hf
      obtain rfl := frames_cases hf
      exact ⟨_, congrArg (· ++ _) (framesState_respOut _ _ _ s), hlen⟩

/-! ### The pseudo-instructions (R73) -/

/-- A command that answers hands its next state to the commands after it. -/
theorem execAll_cons {i : Instr} {s t : State} (h : exec i s = .next t) (is : List Instr) :
    execAll (i :: is) s = execAll is t := by
  rw [execAll, h]

/-- R72, R138: a WRITE_REG line writes its value word, having no reserved field set. -/
theorem exec_asmWriteReg (reg : Byte) (v : Literal) (s : State) :
    exec (asmWriteReg reg v) s = .next (writeRegister reg (valueWord reg v) s) := rfl

/-- R73: SETPARAMS is its three writes. -/
theorem execAll_setParams (r d m : Literal) (s : State) : execAll (assemble (.setParams r d m)) s =
    .next (((s.setRate (clampRate (literalWord r))).setDepth (clampUnit (literalWord d))).setMix
      (clampUnit (literalWord m))) := by
  rw [assemble, asmSetParams, execAll_cons (exec_asmWriteReg ..), execAll_cons (exec_asmWriteReg ..),
    execAll_cons (exec_asmWriteReg ..), valueWord_rate, valueWord_depth, valueWord_mix]
  rfl

/-- R73: READ_SR reads the low word and then the high word. -/
theorem execAll_readSr (s : State) : execAll (assemble .readSr) s = .next ((s.respond [s.srLo]).respond [s.srHi]) :=
  rfl

/-- Settles O9: three clamped writes, the clearing write, two reads, and PROCESS by its definition. -/
theorem pseudoInstructionsExpand : Obligations.PseudoInstructionsExpand := by
  refine ⟨fun s r d m => execAll_setParams r d m s, fun s => execAll_cons (exec_asmWriteReg ..) [], fun s => ?_,
    fun _ _ _ _ _ => rfl⟩
  rw [execAll_readSr, State.respond, State.respond_respOut, List.append_assoc]
  rfl

end Sys2Proof.Machine

/-! PROOFS of the statements about the delay line (spec/40_delay_line.md R75 to R82). -/

namespace Sys2Proof.Machine

/-! ### The taps (spec/40_delay_line.md R78, R79) -/

/-- R78, R9: a tap index is the remainder of any natural number that differs from `idx - 1 + j` by no or one `cap`. -/
theorem tapIndex_eq_mod {cap idx j m : Nat} (h : m + 1 = idx + j ∨ m + 1 = idx + j + cap) :
    tapIndex cap idx j = m % cap := by
  have hm : ((idx : Int) - 1 + j) % cap = (m : Int) % cap := by
    rcases h with h | h
    · rw [show (idx : Int) - 1 + j = m by omega]
    · rw [show (idx : Int) - 1 + j = m - cap by omega, Int.sub_emod_right]
  rw [tapIndex, hm, ← Int.natCast_mod, Int.toNat_natCast]

/-- R79: a base index that keeps 10 cells clear of the cursor has its taps 9 to `cap - 8` cells above it. -/
theorem tapIndex_above_cursor {cap w idx j : Nat} (hj : j < 4)
    (h : (w + 10 ≤ idx + cap ∧ idx + 10 ≤ w) ∨ (w + 10 ≤ idx ∧ idx + 10 ≤ w + cap)) :
    ∃ k, 9 ≤ k ∧ k ≤ cap - 8 ∧ tapIndex cap idx j = (w + k) % cap := by
  rcases h with ⟨hlo, hhi⟩ | ⟨hlo, hhi⟩
  · exact ⟨idx + j + cap - 1 - w, by omega, by omega, tapIndex_eq_mod (.inr (by omega))⟩
  · exact ⟨idx + j - 1 - w, by omega, by omega, tapIndex_eq_mod (.inl (by omega))⟩

/-- Settles O33: the base index of a legal session keeps 10 cells clear of the cursor, on either side. -/
theorem tapsKeepClearOfTheCursor : Obligations.TapsKeepClearOfTheCursor := by
  intro s c hs he hc
  have hl := hs.sessionLegal he
  have hw := hl.cursors c hc
  obtain ⟨-, -, idx, hidx, -, hclear⟩ := lanePosition_index hl.cap_lo hl.cap_hi hw
  exact ⟨idx, hidx, fun j hj => ⟨tapIndex_ne_cursor hw hj hclear, tapIndex_above_cursor hj hclear⟩⟩

/-! ### The cursors after a block (spec/40_delay_line.md R77, R80) -/

/-- R121: PROCESS_BLOCK on a block with the invariant answers the state after its frames. -/
theorem exec_processBlock_of_inv {s : State} (hs : s.Inv) (b : Byte) (n : Half) (xs : List Word) :
    ∃ ys, exec (.processBlock b n xs) s = .next ((framesState b.toNat n.toNat xs s).respond ys) := by
  obtain ⟨ys, hf⟩ := frames_ok (b := b.toNat) (n := n.toNat) (xs := xs) hs.sessionLegal
  exact ⟨ys, congrArg respondFrames hf⟩

/-- Settles O34: the block answers, and its frames move the cursors one by one. -/
theorem blockMovesTheCursors : Obligations.BlockMovesTheCursors := by
  intro s b n xs hs he hx
  obtain ⟨ys, ht⟩ := exec_processBlock_of_inv hs b n xs
  exact ⟨_, ht, framesState_cursor n.toNat xs s (hs.sessionLegal he) he hx⟩

/-! ### The cells after a block (spec/40_delay_line.md R81, R82, spec/43_engine.md R110) -/

/-- Less than one turn from a place of the line does not lead back to it. -/
theorem add_mod_ne_self {cap w m : Nat} (hm : 0 < m) (hcap : m < cap) : (w + m) % cap ≠ w := by
  intro h
  have hturn : w ≡ w + m [MOD cap] := by simpa only [h] using Nat.mod_modEq (w + m) cap
  have hzero : 0 ≡ m [MOD cap] := Nat.ModEq.add_left_cancel' w hturn
  exact hm.ne (hzero.eq_of_lt_of_lt (Nat.zero_lt_of_lt hcap) hcap)

/-- R77: a frame moves each processed channel's cursor by 1. -/
theorem frameState_cursor_processed {s : State} (hs : s.Inv) {xs : List F32} {c : Nat} (hx : c < xs.length)
    (hc : c < s.channels.toNat) :
    ((frameState xs s).cursor c).toNat = ((s.cursor c).toNat + 1) % s.capacity.toNat := by
  have he := enabled_of_channel hs hc
  rw [frameState_cursor xs (hs.sessionLegal he) he, if_pos ⟨hx, hc⟩]

/-- R110: a frame leaves each processed channel's attenuated input in the cell at the channel's cursor. -/
theorem frameState_cell_cursor {s : State} (hs : s.Inv) {xs : List F32} {c : Nat} (hx : c < xs.length)
    (hc : c < s.channels.toNat) : ∃ x d, xs[c]? = some x ∧
      (frameState xs s).cell c (s.cursor c).toNat = some (attenuated d x) := by
  have he := enabled_of_channel hs hc
  obtain ⟨ys, hf⟩ := frame_ok (xs := xs) hs.sessionLegal
  have hl := (frame_on (processes_of_inv hs he (Nat.ne_zero_of_lt hx))).symm.trans hf
  obtain ⟨-, hlane, -⟩ := lanes_each xs 0 _ _ ys (inv_oscStep hs) he hl
  simp only [Nat.zero_add] at hlane
  have hget := List.getElem?_eq_getElem hx
  obtain ⟨u, y, hrun, -, -, hcell⟩ := hlane c xs[c] hget hc
  obtain ⟨-, hw, rfl, -⟩ := lane_cases hrun
  exact ⟨xs[c], _, hget, (hcell _).trans
    (laneState_cell_same (s := (oscStep s).draw (laneDraws * c)) hs.canonical.mem xs[c] (active_iff.2 ⟨hc, hw⟩))⟩

theorem framesState_active (b n : Nat) (xs : List F32) (s : State) (c i : Nat) :
    (framesState b n xs s).active c i = s.active c i := by
  obtain ⟨p, v, w, m, k, e⟩ := processedFrom_framesState b n xs s
  rw [e]; rfl

/-- R43: the frames of a block leave a cell alone that the channel's cursor does not come to. -/
theorem framesState_cell_unwritten {s : State} (hs : s.Inv) (b n : Nat) (xs : List F32) {c i : Nat}
    (h : ∀ k, k < n → ((s.cursor c).toNat + k) % s.capacity.toNat ≠ i) :
    (framesState b n xs s).cell c i = s.cell c i := by
  unfold State.cell
  rw [framesState_active]
  split
  · next ha =>
    obtain ⟨-, hi⟩ := active_iff.1 ha
    have hcap := s.capacity.isLt
    refine congrArg some (readWord_congr fun a h1 h2 => framesState_readByte n xs s hs fun d k _ _ hk => ?_)
    have hk32 := (Nat.mod_lt ((s.cursor d).toNat + k) (Nat.zero_lt_of_lt hi)).trans hcap
    have hne : d ≠ c ∨ ((s.cursor d).toNat + k) % s.capacity.toNat ≠ i := by
      by_cases hd : d = c
      · subst hd; exact .inr (h k hk)
      · exact .inl hd
    have := cellAddr_ne hk32 (hi.trans hcap) hne
    omega
  · rfl

/-- R81, R110: after a block the line holds the attenuated input of each of its latest `CAPACITY` frames: that of frame
`k` in the `k`-th cell from where the cursor began. -/
theorem framesState_cell_written {b c k : Nat} (hb : c < b) : ∀ {n : Nat} {xs : List F32} {s : State}, s.Inv →
    c < s.channels.toNat → xs.length = n * b → k < n → n ≤ k + s.capacity.toNat → ∃ x d, xs[k * b + c]? = some x ∧
      (framesState b n xs s).cell c (((s.cursor c).toNat + k) % s.capacity.toNat) = some (attenuated d x) := by
  induction k with
  | zero =>
    intro n xs s hs hc hx hk hn
    obtain ⟨n, rfl⟩ := Nat.exists_eq_add_one.2 hk
    have hlen : c < (xs.take b).length := by rw [List.length_take, hx, Nat.succ_mul]; omega
    have hw := hs.extent.cursors (enabled_of_channel hs hc) c hc
    obtain ⟨x, d, hget, hcell⟩ := frameState_cell_cursor hs hlen hc
    refine ⟨x, d, by rw [Nat.zero_mul, Nat.zero_add, ← hget, List.getElem?_take_of_lt hb], ?_⟩
    rw [framesState, Nat.add_zero, Nat.mod_eq_of_lt hw, ← hcell]
    refine framesState_cell_unwritten (inv_frameState hs _) b n _ fun k hkn => ?_
    rw [frameState_cursor_processed hs hlen hc, frameState_capacity, Nat.mod_add_mod, Nat.add_assoc]
    exact add_mod_ne_self (by omega) (by omega)
  | succ k ih =>
    intro n xs s hs hc hx hk hn
    obtain ⟨n, rfl⟩ := Nat.exists_eq_add_one.2 (Nat.zero_lt_of_lt hk)
    rw [Nat.succ_mul] at hx
    have hlen : c < (xs.take b).length := by rw [List.length_take]; omega
    obtain ⟨x, d, hget, hcell⟩ := ih (n := n) (xs := xs.drop b) (inv_frameState hs (xs.take b))
      (by rwa [frameState_channels]) (by rw [List.length_drop]; omega) (by omega)
      (by rw [frameState_capacity]; omega)
    refine ⟨x, d, by rw [← hget, List.getElem?_drop, Nat.succ_mul]; congr 1; omega, ?_⟩
    rw [framesState, ← hcell, frameState_cursor_processed hs hlen hc, frameState_capacity, Nat.mod_add_mod,
      Nat.add_assoc, Nat.add_comm 1]

/-- Settles O35: the cell of age `j` is that of frame `N - 1 - j`, and a cell no frame comes to keeps its `+0`. -/
theorem lineHoldsTheLatestInputs : Obligations.LineHoldsTheLatestInputs := by
  intro s b n xs c hs _ hcur hzero hx hb hc
  obtain ⟨ys, ht⟩ := exec_processBlock_of_inv hs b n xs
  have hw : (s.cursor c).toNat = 0 := congrArg BitVec.toNat (hcur c)
  refine ⟨_, ht, fun j hj => ⟨fun hjn => ?_, fun hnj => ?_⟩⟩
  · obtain ⟨x, d, hget, hcell⟩ := framesState_cell_written (k := n.toNat - 1 - j) hb hs hc hx (by omega) (by omega)
    rw [hw, Nat.zero_add, ← Nat.add_mod_right,
      show n.toNat - 1 - j + s.capacity.toNat = n.toNat + s.capacity.toNat - 1 - j by omega] at hcell
    exact ⟨x, d, hget, hcell⟩
  · have hi : n.toNat + s.capacity.toNat - 1 - j < s.capacity.toNat := by omega
    rw [Nat.mod_eq_of_lt hi, ← hzero c _ (active_iff.2 ⟨hc, hi⟩)]
    refine framesState_cell_unwritten hs b.toNat n.toNat xs fun k hk => ?_
    rw [hw, Nat.zero_add, Nat.mod_eq_of_lt (by omega)]
    omega

end Sys2Proof.Machine

/-! PROOFS of the statements about the oscillator (spec/41_oscillator.md R85 to R94). -/

namespace Sys2Proof.Machine

/-! ### Intervals and rounded arithmetic (spec/00_scope.md R12, R13) -/

/-- `x` is a number of the closed interval `[lo, hi]` (R13: no NaN is). -/
abbrev Within (lo hi x : F32) : Prop := le32 lo x = true ∧ le32 x hi = true

/-- No number lies between the greatest one below 1.0 and 1.0. -/
theorem lt32_one_iff {x : F32} : lt32 x 0x3F800000#32 = true ↔ le32 x 0x3F7FFFFF#32 = true := by
  have hnan : isNaN 0x3F800000#32 = false ∧ isNaN 0x3F7FFFFF#32 = false := by decide
  have hkey : ordKey 0x3F800000#32 = ordKey 0x3F7FFFFF#32 + 1 := by decide
  simp only [lt32_iff, le32_iff, hnan, hkey, Int.lt_add_one_iff, true_and]

/-- A number not at or above another is below it. -/
theorem lt32_of_not_le32 {a b : F32} (ha : isNaN a = false) (hb : isNaN b = false) (h : ¬ le32 b a = true) :
    lt32 a b = true := by
  rw [le32_iff] at h
  exact lt32_iff.2 ⟨ha, hb, by by_contra hc; exact h ⟨hb, ha, by omega⟩⟩

/-- A number above `+0` is finite or the positive infinity. -/
theorem eq_inf_or_finite_of_pos {b : F32} (h : lt32 0 b = true) : b = packF32 false infMag ∨ FiniteF32 b := by
  rcases eq_inf_or_finite (lt32_iff.1 h).2.1 with rfl | rfl | hf
  · exact .inl rfl
  · exact absurd h (by decide)
  · exact .inr hf

theorem ordKey_nonneg {a : F32} (h : le32 0 a = true) : 0 ≤ ordKey a := (le32_iff.1 h).2.2

theorem ordKey_pos {a : F32} (h : lt32 0 a = true) : 0 < ordKey a := (lt32_iff.1 h).2.2

theorem valueUnits_pos {a : F32} (h : lt32 0 a = true) : 0 < valueUnits a := by
  rw [valueUnits_eq_keyUnits, ← keyUnits_zero]
  exact keyUnits_strictMono (ordKey_pos h)

section Within
variable (n : Nat) {a b lo hi lo' hi' : F32}

/-- A sum lies between the sums of its terms' bounds. -/
theorem add32_within (hl : FiniteF32 lo) (hh : FiniteF32 hi) (hl' : FiniteF32 lo') (hh' : FiniteF32 hi')
    (ha : Within lo hi a) (hb : Within lo' hi' b) : Within (add32 0 lo lo') (add32 0 hi hi') (add32 n a b) := by
  have hfa := finite_of_le32 ha.1 ha.2 hl hh
  have hfb := finite_of_le32 hb.1 hb.2 hl' hh'
  exact ⟨add32_mono 0 n hl hl' hfa hfb ha.1 hb.1, add32_mono n 0 hfa hfb hh hh' ha.2 hb.2⟩

/-- A value less a constant lies between its bounds less the constant. -/
theorem sub32_within (hl : FiniteF32 lo) (hh : FiniteF32 hi) (hb : FiniteF32 b) (ha : Within lo hi a) :
    Within (sub32 0 lo b) (sub32 0 hi b) (sub32 n a b) := by
  have hfa := finite_of_le32 ha.1 ha.2 hl hh
  have hbb : le32 b b = true := le32_iff.2 ⟨isNaN_of_finite hb, isNaN_of_finite hb, le_rfl⟩
  exact ⟨sub32_mono 0 n hl hb hfa hb ha.1 hbb, sub32_mono n 0 hfa hb hh hb ha.2 hbb⟩

/-- A factor not below 0 times a value lies between the factor's products with the value's bounds. -/
theorem mul32_within (hl : FiniteF32 lo) (hh : FiniteF32 hi) (ha : FiniteF32 a) (h0 : le32 0 a = true)
    (hb : Within lo hi b) : Within (mul32 0 a lo) (mul32 0 a hi) (mul32 n a b) := by
  have hfb := finite_of_le32 hb.1 hb.2 hl hh
  exact ⟨mul32_mono 0 n ha h0 hl hfb hb.1, mul32_mono n 0 ha h0 hfb hh hb.2⟩

end Within

/-! ### Quotients of numbers that are not below 0 (spec/00_scope.md R12) -/

theorem div32_nonneg (n : Nat) {a b : F32} (ha : FiniteF32 a) (h0 : le32 0 a = true) (hb : lt32 0 b = true) :
    le32 0 (div32 n a b) = true := by
  rcases eq_inf_or_finite_of_pos hb with rfl | hf
  · rw [div32_finite_inf n ha]
    cases signBit a <;> decide
  · obtain ⟨hkey, hnan⟩ := div32_finite n ha hf (ordKey_pos hb)
    refine le32_iff.2 ⟨rfl, hnan, ?_⟩
    rw [hkey]
    exact roundKey_nonneg _ (mul_nonneg (keyUnits_nonneg (ordKey_nonneg h0)) (by positivity))

/-- G5: a quotient grows with its dividend and shrinks with its divisor. -/
theorem div32_mono (n m : Nat) {a a' b b' : F32} (ha : FiniteF32 a) (ha' : FiniteF32 a') (hb' : FiniteF32 b')
    (h0 : le32 0 a = true) (hle : le32 a a' = true) (hpos : lt32 0 b' = true) (hge : le32 b' b = true) :
    le32 (div32 n a b) (div32 m a' b') = true := by
  have h0' := le32_trans h0 hle
  have hb : lt32 0 b = true :=
    lt32_iff.2 ⟨rfl, (le32_iff.1 hge).2.1, lt_of_lt_of_le (ordKey_pos hpos) (le32_iff.1 hge).2.2⟩
  rcases eq_inf_or_finite_of_pos hb with rfl | hf
  · refine le32_trans (b := 0) ?_ (div32_nonneg m ha' h0' hpos)
    rw [div32_finite_inf n ha]
    cases signBit a <;> decide
  · obtain ⟨hkey, hnan⟩ := div32_finite n ha hf (ordKey_pos hb)
    obtain ⟨hkey', hnan'⟩ := div32_finite m ha' hb' (ordKey_pos hpos)
    have ub : 0 < keyUnits (ordKey b) := valueUnits_eq_keyUnits b ▸ valueUnits_pos hb
    have ub' : 0 < keyUnits (ordKey b') := valueUnits_eq_keyUnits b' ▸ valueUnits_pos hpos
    have hnum : keyUnits (ordKey a) * 2 ^ 149 ≤ keyUnits (ordKey a') * 2 ^ 149 :=
      mul_le_mul_of_nonneg_right (keyUnits_mono (le32_iff.1 hle).2.2) (by positivity)
    have hnum' : 0 ≤ keyUnits (ordKey a') * 2 ^ 149 :=
      mul_nonneg (keyUnits_nonneg (ordKey_nonneg h0')) (by positivity)
    refine le32_iff.2 ⟨hnan, hnan', ?_⟩
    rw [hkey, hkey']
    refine roundKey_mono (by omega) (by omega) ?_
    rw [Int.toNat_of_nonneg ub.le, Int.toNat_of_nonneg ub'.le]
    exact mul_le_mul hnum (keyUnits_mono (le32_iff.1 hge).2.2) ub'.le hnum'

/-! ### The LFO value and the smoothed value (R87, R88, R91) -/

/-- R87, R91: a sine of `[-1, 1]` gives an LFO value of `[0, 1]`: half of it lies in `[-0.5, 0.5]`. -/
theorem oscLfo_within (n : Nat) {v : F32} (hv : Within 0xBF800000#32 0x3F800000#32 v) :
    Within 0 0x3F800000#32 (oscLfo n v) := by
  have hhalf : Within 0xBF000000#32 0x3F000000#32 (mul32 n lit_0_5 v) := by
    have h := mul32_within n (a := lit_0_5) (by decide) (by decide) (by decide) (by decide) hv
    rwa [show mul32 0 lit_0_5 0xBF800000#32 = 0xBF000000#32 by decide +kernel, mul32_one 0 (by decide)] at h
  have hc : Within lit_0_5 lit_0_5 lit_0_5 := by decide
  have h := add32_within (n + 1) (by decide) (by decide) (by decide) (by decide) hc hhalf
  rwa [show add32 0 lit_0_5 0xBF000000#32 = 0 by decide +kernel,
    show add32 0 lit_0_5 0x3F000000#32 = 0x3F800000#32 by decide +kernel] at h

/-- A factor not below 0 times a value of `[0, 1]` lies between 0 and the factor. -/
theorem mul32_unit_within (n : Nat) {a b : F32} (ha : FiniteF32 a) (h0 : le32 0 a = true)
    (hb : Within 0 0x3F800000#32 b) : Within 0 a (mul32 n a b) := by
  have h := mul32_within n (by decide) (by decide) ha h0 hb
  rw [mul32_one 0 ha] at h
  have hz : magBits (mul32 0 a 0) = 0 := mul32_zero_mag 0 ha (by decide) (.inr rfl)
  have hkey : ordKey (mul32 0 a 0) = 0 := by rw [ordKey, hz]; exact ite_self 0
  exact ⟨le32_trans (le32_iff.2 ⟨rfl, (le32_iff.1 h.1).1, hkey.ge⟩) h.1, h.2⟩

/-- R88, R91: with the two products at most 0.9995 and 0.0005, the new `SMOOTH` is at most their sum, 1.0 exactly. -/
theorem oscSmooth_within (n : Nat) {smooth lfo : F32} (hs : Within 0 0x3F800000#32 smooth)
    (hl : Within 0 0x3F800000#32 lfo) : Within 0 0x3F800000#32 (oscSmooth n smooth lfo) := by
  have h := add32_within (n + 2) (by decide) (by decide) (by decide) (by decide)
    (mul32_unit_within n (a := lit_0_9995) (by decide) (by decide) hs)
    (mul32_unit_within (n + 1) (a := lit_0_0005) (by decide) (by decide) hl)
  rwa [show add32 0 0 0 = 0#32 by decide +kernel,
    show add32 0 lit_0_9995 lit_0_0005 = 0x3F800000#32 by decide +kernel] at h

/-- R91: at the ends of the interval the smoothing is exact, and no free NaN enters. -/
theorem oscSmooth_extremes (n : Nat) :
    oscSmooth n 0 0 = 0 ∧ oscSmooth n 0x3F800000#32 0x3F800000#32 = 0x3F800000#32 := by
  constructor
  · unfold oscSmooth
    rw [mul32_draw (by decide) (by decide) n, mul32_draw (by decide) (by decide) (n + 1),
      show mul32 0 lit_0_9995 0 = 0 by decide +kernel, show mul32 0 lit_0_0005 0 = 0 by decide +kernel,
      add32_draw (by decide) (by decide)]
    decide +kernel
  · unfold oscSmooth
    rw [mul32_one n (by decide), mul32_one (n + 1) (by decide), add32_draw (by decide) (by decide)]
    decide +kernel

/-- Settles O49: the two intervals, and the extremes by evaluation. -/
theorem smoothStaysInTheUnitInterval : Obligations.SmoothStaysInTheUnitInterval :=
  ⟨fun n _ h1 h2 => oscLfo_within n ⟨h1, h2⟩, fun n _ _ h1 h2 h3 h4 => oscSmooth_within n ⟨h1, h2⟩ ⟨h3, h4⟩,
    oscSmooth_extremes⟩

/-! ### The phase (R85, R86, R90) -/

/-- R86: a phase below 2.0 is below 1.0 after the one subtraction. -/
theorem oscWrap_within (n : Nat) {p : F32} (hp : Within 0 0x3FFFFFFF#32 p) : Within 0 0x3F7FFFFF#32 (oscWrap n p) := by
  unfold oscWrap
  split
  · next hge =>
    have h := sub32_within n (b := lit_1_0) (lo := lit_1_0) (by decide) (by decide) (by decide) ⟨hge, hp.2⟩
    exact ⟨le32_trans (by decide +kernel) h.1, le32_trans h.2 (by decide +kernel)⟩
  · next hlt =>
    exact ⟨hp.1, lt32_one_iff.1 (lt32_of_not_le32 (le32_iff.1 hp.1).2.1 rfl hlt)⟩

/-- R85, R90: a phase and an increment below 1.0 sum to less than 2.0. -/
theorem oscPhase_within (n : Nat) {rate sr32 phase : F32} (hi : Within 0 0x3F7FFFFF#32 (oscIncrement n rate sr32))
    (hp : Within 0 0x3F7FFFFF#32 phase) : Within 0 0x3F7FFFFF#32 (oscPhase n rate sr32 phase) := by
  refine oscWrap_within (n + 2) ?_
  have h := add32_within (n + 1) (by decide) (by decide) (by decide) (by decide) hp hi
  rwa [show add32 0 0 0 = 0#32 by decide +kernel,
    show add32 0 0x3F7FFFFF#32 0x3F7FFFFF#32 = 0x3FFFFFFF#32 by decide +kernel] at h

/-- R27: a rate of its domain is finite and above 0. -/
theorem rate_pos {rate : F32} (h : Within 0x3DCCCCCD#32 0x40000000#32 rate) :
    FiniteF32 rate ∧ lt32 0 rate = true := by
  obtain ⟨-, hnan, hkey⟩ := le32_iff.1 h.1
  have hlo : 0 < ordKey 0x3DCCCCCD#32 := by decide
  exact ⟨finite_of_le32 h.1 h.2 (by decide) (by decide), lt32_iff.2 ⟨rfl, hnan, lt_of_lt_of_le hlo hkey⟩⟩

/-- Settles O50: the increment is a quotient of positive numbers. -/
theorem phaseStaysBelowOne : Obligations.PhaseStaysBelowOne := by
  intro n rate sr32 phase hr1 hr2 hsr hinc hp1 hp2
  obtain ⟨hfin, hpos⟩ := rate_pos ⟨hr1, hr2⟩
  have hinc' : Within 0 0x3F7FFFFF#32 (oscIncrement n rate sr32) :=
    ⟨div32_nonneg n hfin (le32_of_lt32 hpos) hsr, lt32_one_iff.1 hinc⟩
  obtain ⟨h1, h2⟩ := oscPhase_within n hinc' ⟨hp1, lt32_one_iff.1 hp2⟩
  exact ⟨h1, lt32_one_iff.2 h2⟩

/-- R90: above the greatest rate every sample rate gives an increment below 1.0; the nearest is that of 2.0 over the
least number above 2.0. -/
theorem oscIncrement_lt_one (n : Nat) {rate sr32 : F32} (hr : Within 0x3DCCCCCD#32 0x40000000#32 rate)
    (hsr : lt32 0x40000000#32 sr32 = true) : lt32 (oscIncrement n rate sr32) 0x3F800000#32 = true := by
  obtain ⟨hfin, hpos⟩ := rate_pos hr
  obtain ⟨-, hnan, hkey⟩ := lt32_iff.1 hsr
  have htwo : ordKey 0x40000000#32 + 1 = ordKey 0x40000001#32 := by decide
  have hge : le32 0x40000001#32 sr32 = true := le32_iff.2 ⟨rfl, hnan, by omega⟩
  have hle := div32_mono n 0 hfin (by decide) (by decide) (le32_of_lt32 hpos) hr.2 (by decide) hge
  refine lt32_one_iff.2 (le32_trans hle ?_)
  decide +kernel

/-! ### The oscillator along a run (R39, R90, R91) -/

/-- One OSC_STEP keeps the ranges, if `SR32` is above the greatest rate. -/
theorem oscillatorInRange_oscStep {s : State} (hs : s.OscillatorInRange) (hp : s.ParamsLegal)
    (hsr : lt32 0x40000000#32 s.sr32 = true) : (oscStep s).OscillatorInRange := by
  have hpos : lt32 0 s.sr32 = true :=
    lt32_iff.2 ⟨rfl, (lt32_iff.1 hsr).2.1, lt_trans (by decide) (lt32_iff.1 hsr).2.2⟩
  have hphase := phaseStaysBelowOne s.nanDraw s.rate s.sr32 s.phase hp.rate.1 hp.rate.2 hpos
    (oscIncrement_lt_one s.nanDraw hp.rate hsr) hs.phase.1 hs.phase.2
  rw [← oscStep_phase] at hphase
  have hfin := finite_of_le32 hphase.1 (le32_of_lt32 hphase.2) (by decide) (by decide)
  refine ⟨hphase, ?_⟩
  rw [oscStep_smooth]
  exact oscSmooth_within _ hs.smooth (oscLfo_within _ (sin2pi_bounds hfin))

/-- What OSC_STEP needs to keep the ranges, and keeps. -/
structure State.OscillatorRuns (s : State) : Prop where
  range : s.OscillatorInRange
  params : s.ParamsLegal
  sampleRate : s.state = .enabled → lt32 0x40000000#32 s.sr32 = true

theorem oscillatorRuns_frameState {s : State} (h : s.OscillatorRuns) (xs : List F32) :
    (frameState xs s).OscillatorRuns := by
  refine frameState_keeps (P := State.OscillatorRuns) (fun s he h => ?_) (fun c x s _ _ h => ?_) xs s h
  · exact ⟨oscillatorInRange_oscStep h.range h.params (h.sampleRate he),
      ⟨h.params.rate, h.params.depth, h.params.mix⟩, h.sampleRate⟩
  · exact ⟨⟨h.range.phase, h.range.smooth⟩, ⟨h.params.rate, h.params.depth, h.params.mix⟩, h.sampleRate⟩

theorem oscillatorRuns_framesState {s : State} (h : s.OscillatorRuns) (b n : Nat) (xs : List F32) :
    (framesState b n xs s).OscillatorRuns :=
  framesState_keeps (P := State.OscillatorRuns) b (fun ys _ h => oscillatorRuns_frameState h ys) n xs s h

/-- The ranges speak of `PHASE` and `SMOOTH` alone. -/
theorem oscillatorInRange_congr {s t : State} (hs : s.OscillatorInRange) (hp : t.phase = s.phase)
    (hv : t.smooth = s.smooth) : t.OscillatorInRange :=
  ⟨hp ▸ hs.phase, hv ▸ hs.smooth⟩

/-- R133: RESET_SESSION leaves `PHASE` `+0` and `SMOOTH` 0.5. -/
theorem oscillatorInRange_resetSession (s : State) : (resetSession s).OscillatorInRange := by
  have hphase : le32 lit_0 lit_0 = true ∧ lt32 lit_0 lit_1_0 = true := by decide
  have hsmooth : le32 lit_0 lit_0_5 = true ∧ le32 lit_0_5 lit_1_0 = true := by decide
  exact ⟨hphase, hsmooth⟩

/-- R130: after RESET_SESSION an executed CONFIGURE touches the oscillator no more. -/
theorem oscillatorInRange_configure (ch : Half) (lo hi : Word) (s : State) :
    (configure ch lo hi s).OscillatorInRange := by
  have hreset := oscillatorInRange_resetSession (s.setSampleRate lo hi)
  obtain ⟨-, e⟩ | ⟨-, e⟩ := configure_cases ch lo hi s <;> rw [e] <;> exact oscillatorInRange_congr hreset rfl rfl

/-- R138: WRITE_REG writes neither register of the oscillator. -/
theorem oscillatorInRange_writeRegister {s : State} (hs : s.OscillatorInRange) (reg : Byte) (v : Word) :
    (writeRegister reg v s).OscillatorInRange := by
  obtain e | e | e | e | e := writeRegister_cases reg v s <;> rw [e]
  case inr.inr.inr.inl =>
    unfold State.writeStatus
    split
    · exact oscillatorInRange_congr hs rfl rfl
    · exact hs
  all_goals exact oscillatorInRange_congr hs rfl rfl

theorem oscillatorInRange_respondRead {s : State} (hs : s.OscillatorInRange) (found : Option Word) :
    (respondRead found s).OscillatorInRange := by
  cases found <;> exact oscillatorInRange_congr hs rfl rfl

/-- Every command keeps the ranges: CONFIGURE makes them anew, and only a processed frame steps the oscillator. -/
theorem oscillatorInRange_exec {i : Instr} {s t : State} (hs : s.OscillatorRuns) (h : exec i s = .next t) :
    t.OscillatorInRange := by
  cases exec_next h with
  | notExecuted ws => exact oscillatorInRange_congr hs.range rfl rfl
  | configure ch lo hi => exact oscillatorInRange_configure ch lo hi s
  | release => exact oscillatorInRange_congr hs.range rfl rfl
  | writeReg reg v => exact oscillatorInRange_writeRegister hs.range reg v
  | readReg => exact oscillatorInRange_respondRead hs.range _
  | readDl => exact oscillatorInRange_respondRead hs.range _
  | processFrame _ hf =>
    obtain ⟨rfl, -, -⟩ := frame_cases hf
    exact oscillatorInRange_congr (oscillatorRuns_frameState hs _).range rfl rfl
  | processBlock hf =>
    obtain rfl := frames_cases hf
    exact oscillatorInRange_congr (oscillatorRuns_framesState hs _ _ _).range rfl rfl

theorem oscillatorInRange_noCommand {s : State} (hs : s.OscillatorInRange) (e : DecodeError) :
    (noCommand e s).OscillatorInRange := by
  cases e <;> exact oscillatorInRange_congr hs rfl rfl

/-- Settles O51: the taking of responses and of the command's words touches no register, and then the command runs. -/
theorem stepKeepsTheOscillatorInRange : Obligations.StepKeepsTheOscillatorInRange := by
  refine ⟨⟨by decide, by decide⟩, fun s t hi hs hsr h => ?_⟩
  obtain ⟨i, rest, -, ho⟩ | ⟨e, -, ho⟩ := step_cases h
  · have hruns : (s.takeResponses.setInput rest).OscillatorRuns :=
      ⟨oscillatorInRange_congr hs rfl rfl, (inv_setInput (inv_takeResponses hi) rest).params, hsr⟩
    exact oscillatorInRange_exec hruns ho.symm
  · cases ho
    exact oscillatorInRange_noCommand (s := s.takeResponses) (oscillatorInRange_congr hs rfl rfl) e

/-! ### The oscillator after a processed frame (R85 to R89, R93) -/

/-- R89: a nonempty frame of an enabled block answers, and leaves the oscillator where one OSC_STEP leaves it. -/
theorem exec_processFrame_oscillator {s : State} {xs : List Word} (hs : s.Inv) (he : s.state = .enabled)
    (hxs : xs ≠ []) : ∃ t, exec (.processFrame 0 xs) s = .next t ∧ t.phase = (oscStep s).phase ∧
      t.smooth = (oscStep s).smooth := by
  have hp : s.processes xs.length = true := processes_of_inv hs he (mt List.length_eq_zero_iff.1 hxs)
  obtain ⟨ys, hf⟩ := frame_ok (xs := xs) hs.sessionLegal
  rw [frameState, if_pos hp] at hf
  exact ⟨_, exec_processFrame_ok hf, lanesState_phase 0 xs _, lanesState_smooth 0 xs _⟩

/-- Settles O39: OSC_STEP numbers its free NaNs from the state's count on. -/
theorem frameStepsTheOscillatorOnce : Obligations.FrameStepsTheOscillatorOnce := by
  intro s xs hs he hxs
  obtain ⟨t, ht, hphase, hsmooth⟩ := exec_processFrame_oscillator hs he hxs
  exact ⟨t, ht, fun k => s.nanDraw + k, hphase, hsmooth⟩

theorem isNaN_mul32 (n : Nat) {a b : F32} (h : isNaN a = true ∨ isNaN b = true) : isNaN (mul32 n a b) = true := by
  rw [mul32_nan n h]; exact freeNaN_isNaN n

theorem isNaN_add32 (n : Nat) {a b : F32} (h : isNaN a = true ∨ isNaN b = true) : isNaN (add32 n a b) = true := by
  rw [add32_nan n h]; exact freeNaN_isNaN n

theorem isNaN_div32 (n : Nat) {a b : F32} (h : isNaN a = true ∨ isNaN b = true) : isNaN (div32 n a b) = true := by
  rw [div32_nan n h]; exact freeNaN_isNaN n

/-- R85, R93: the increment at `SR32 = +0` is infinite. -/
theorem oscIncrement_zero (n : Nat) {rate : F32} (h : Within 0x3DCCCCCD#32 0x40000000#32 rate) :
    oscIncrement n rate 0 = 0x7F800000#32 := by
  obtain ⟨hfin, hpos⟩ := rate_pos h
  have hv := valueUnits_pos hpos
  have hsign : signBit rate = false := by
    by_contra hc
    rw [valueUnits, if_pos (by simpa using hc)] at hv
    omega
  unfold oscIncrement
  rw [div32_by_zero n hfin (by decide) (by decide), if_neg hv.ne', hsign]
  rfl

/-- R86, R93: an infinite increment makes the phase infinite, and the wrap leaves it so. -/
theorem oscPhase_infinite (n : Nat) {rate sr32 phase : F32} (hi : oscIncrement n rate sr32 = packF32 false infMag)
    (hp : le32 0 phase = true) : oscPhase n rate sr32 phase = packF32 false infMag := by
  have hsum : add32 (n + 1) phase (packF32 false infMag) = packF32 false infMag := by
    rcases eq_inf_or_finite (le32_iff.1 hp).2.1 with rfl | rfl | hf
    · exact add32_inf_inf (n + 1) false false
    · exact absurd hp (by decide)
    · exact add32_finite_inf (n + 1) hf false
  rw [oscPhase, hi, hsum, oscWrap, if_pos (by decide)]
  exact sub32_inf_finite (n + 2) (by decide) false

/-- R87, R88, R93: a sine that is a NaN makes `SMOOTH` a NaN. -/
theorem isNaN_oscSmooth (n m : Nat) (smooth : F32) {v : F32} (h : isNaN v = true) :
    isNaN (oscSmooth n smooth (oscLfo m v)) = true :=
  isNaN_add32 _ (.inr (isNaN_mul32 _ (.inr (isNaN_add32 _ (.inr (isNaN_mul32 _ (.inr h)))))))

/-- R93, R109: a `SMOOTH` that is a NaN gives a delay of 10 samples. -/
theorem laneDelay_of_isNaN (n : Nat) {s : State} (h : isNaN s.smooth = true) : laneDelay n s = lit_10 := by
  have hms : isNaN (delayTimeMs (n + 2) (modulatedDepth n s.depth s.smooth)) = true :=
    isNaN_add32 _ (.inr (isNaN_mul32 _ (.inr (isNaN_mul32 _ (.inr h)))))
  exact clamp32_nan _ _ (isNaN_div32 _ (.inl (isNaN_mul32 _ (.inl hms))))

/-- Settles O52: the infinity and the NaN pass through OSC_STEP, and the delay clamp ends the NaN. -/
theorem zeroSampleRateMakesTheOscillatorNaN : Obligations.ZeroSampleRateMakesTheOscillatorNaN := by
  intro s xs hs he hxs hsr hp
  obtain ⟨t, ht, hphase, hsmooth⟩ := exec_processFrame_oscillator hs he hxs
  have hinf : (oscStep s).phase = 0x7F800000#32 := by
    rw [oscStep_phase, hsr]
    exact oscPhase_infinite _ (oscIncrement_zero _ hs.params.rate) hp
  have hnan : isNaN t.smooth = true := by
    rw [hsmooth, oscStep_smooth, hinf]
    exact isNaN_oscSmooth _ _ _ (sin2pi_isNaN (by decide))
  exact ⟨t, ht, hphase.trans hinf, hnan, fun n => laneDelay_of_isNaN n hnan⟩

end Sys2Proof.Machine

/-! PROOFS of the statements about the interpolator (spec/42_interpolator.md R95 to R104). -/

namespace Sys2Proof.Machine

/-! ### The numbers of the free NaNs matter to no value (spec/00_scope.md U2) -/

/-- The same value, up to the encoding of a NaN. -/
def EqOrNaN (a b : F32) : Prop := a = b ∨ isNaN a = true ∧ isNaN b = true

@[simp] theorem EqOrNaN.refl (a : F32) : EqOrNaN a a := .inl rfl

@[simp] theorem eqOrNaN_freeNaN (n m : Nat) : EqOrNaN (freeNaN n) (freeNaN m) :=
  .inr ⟨freeNaN_isNaN n, freeNaN_isNaN m⟩

theorem EqOrNaN.eq {a b : F32} (h : EqOrNaN a b) (hb : isNaN b = false) : a = b :=
  h.resolve_right fun hnan => Bool.false_ne_true (hb.symm.trans hnan.2)

/-- An operation takes values equal up to NaNs to values equal up to NaNs, if it takes every NaN operand to the free NaN
and its number plays no other part. -/
theorem eqOrNaN_of_operation {op : Nat → F32 → F32 → F32}
    (hnan : ∀ {a b : F32} (n : Nat), isNaN a = true ∨ isNaN b = true → op n a b = freeNaN n)
    (hdraw : ∀ (n m : Nat) (a b : F32), EqOrNaN (op n a b) (op m a b)) (n m : Nat) {a a' b b' : F32}
    (ha : EqOrNaN a a') (hb : EqOrNaN b b') : EqOrNaN (op n a b) (op m a' b') := by
  rcases ha with rfl | ⟨ha, ha'⟩
  · rcases hb with rfl | ⟨hb, hb'⟩
    · exact hdraw n m a b
    · rw [hnan n (.inr hb), hnan m (.inr hb')]
      exact eqOrNaN_freeNaN n m
  · rw [hnan n (.inl ha), hnan m (.inl ha')]
    exact eqOrNaN_freeNaN n m

/-- R12: of operands that are no NaN, only opposite infinities have a NaN for a sum. -/
theorem add32_eqOrNaN_draw (n m : Nat) (a b : F32) : EqOrNaN (add32 n a b) (add32 m a b) := by
  unfold add32
  cases fpOf a <;> cases fpOf b
  case inf.inf s t => by_cases h : s = t <;> simp [h]
  all_goals simp

/-- R12: of operands that are no NaN, only a zero and an infinity have a NaN for a product. -/
theorem mul32_eqOrNaN_draw (n m : Nat) (a b : F32) : EqOrNaN (mul32 n a b) (mul32 m a b) := by
  unfold mul32
  cases fpOf a <;> cases fpOf b
  case inf.fin s t y => by_cases h : y = 0 <;> simp [h]
  case fin.inf s x t => by_cases h : x = 0 <;> simp [h]
  all_goals simp

section Operations
variable (n m : Nat) {a a' b b' : F32} (ha : EqOrNaN a a') (hb : EqOrNaN b b')
include ha hb

theorem add32_eqOrNaN : EqOrNaN (add32 n a b) (add32 m a' b') :=
  eqOrNaN_of_operation add32_nan add32_eqOrNaN_draw n m ha hb

theorem sub32_eqOrNaN : EqOrNaN (sub32 n a b) (sub32 m a' b') :=
  eqOrNaN_of_operation sub32_nan (fun n m a b => add32_eqOrNaN_draw n m a (neg32 b)) n m ha hb

theorem mul32_eqOrNaN : EqOrNaN (mul32 n a b) (mul32 m a' b') :=
  eqOrNaN_of_operation mul32_nan mul32_eqOrNaN_draw n m ha hb

end Operations

theorem crC1_eqOrNaN (n m : Nat) (t : Taps) : EqOrNaN (crC1 n t) (crC1 m t) :=
  mul32_eqOrNaN _ _ (.refl _) (sub32_eqOrNaN _ _ (.refl _) (.refl _))

theorem crC2_eqOrNaN (n m : Nat) (t : Taps) : EqOrNaN (crC2 n t) (crC2 m t) := by
  have product (i j : Nat) (a b : F32) := mul32_eqOrNaN i j (.refl a) (.refl b)
  exact sub32_eqOrNaN _ _ (add32_eqOrNaN _ _ (sub32_eqOrNaN _ _ (.refl _) (product ..)) (product ..)) (product ..)

theorem crC3_eqOrNaN (n m : Nat) (t : Taps) : EqOrNaN (crC3 n t) (crC3 m t) := by
  have scaledDifference (i j k l : Nat) (q a b : F32) :=
    mul32_eqOrNaN i j (.refl q) (sub32_eqOrNaN k l (.refl a) (.refl b))
  exact add32_eqOrNaN _ _ (scaledDifference ..) (scaledDifference ..)

/-- R99: all free NaNs of CR_INTERP end in its result, so a result that is no NaN is the same whatever they are. -/
theorem crInterp_eqOrNaN (n m : Nat) (t : Taps) (frac : F32) : EqOrNaN (crInterp n t frac) (crInterp m t frac) := by
  have square := mul32_eqOrNaN (n + 13) (m + 13) (.refl frac) (.refl frac)
  have cube := mul32_eqOrNaN (n + 14) (m + 14) square (.refl frac)
  have linear := mul32_eqOrNaN (n + 15) (m + 15) (crC1_eqOrNaN n m t) (.refl frac)
  have quadratic := mul32_eqOrNaN (n + 17) (m + 17) (crC2_eqOrNaN (n + 2) (m + 2) t) square
  have cubic := mul32_eqOrNaN (n + 19) (m + 19) (crC3_eqOrNaN (n + 8) (m + 8) t) cube
  exact add32_eqOrNaN _ _ (add32_eqOrNaN _ _ (add32_eqOrNaN _ _ (.refl _) linear) quadratic) cubic

/-! ### Exact cases and examples (R99, R100, R104) -/

/-- R100: where all three terms after `c0` are zeros, the result is `y1`, unless that is `-0`. -/
theorem crInterp_of_zero_terms (n : Nat) {t : Taps} {frac : F32} (hy : FiniteF32 t.y1) (hz : t.y1 ≠ 0x80000000#32)
    (h1 : magBits (mul32 (n + 15) (crC1 n t) frac) = 0)
    (h2 : magBits (mul32 (n + 17) (crC2 (n + 2) t) (mul32 (n + 13) frac frac)) = 0)
    (h3 : magBits (mul32 (n + 19) (crC3 (n + 8) t) (mul32 (n + 14) (mul32 (n + 13) frac frac) frac)) = 0) :
    crInterp n t frac = t.y1 := by
  unfold crInterp
  dsimp only
  rw [add32_zero_right _ hy hz h1, add32_zero_right _ hy hz h2, add32_zero_right _ hy hz h3]

/-- R100(a): at `frac = +0` the powers of the fraction are zeros, and so are their products with finite coefficients. -/
theorem crInterp_of_zero_fraction (n : Nat) {t : Taps} (hy : FiniteF32 t.y1) (hz : t.y1 ≠ 0x80000000#32)
    (h1 : FiniteF32 (crC1 n t)) (h2 : FiniteF32 (crC2 (n + 2) t)) (h3 : FiniteF32 (crC3 (n + 8) t)) :
    crInterp n t 0 = t.y1 := by
  have square (i : Nat) : mul32 i 0 0 = 0 := (mul32_draw (by decide) (by decide) i).trans (by decide +kernel)
  apply crInterp_of_zero_terms n hy hz
  · exact mul32_zero_mag _ h1 (by decide) (.inr rfl)
  · rw [square]
    exact mul32_zero_mag _ h2 (by decide) (.inr rfl)
  · rw [square, square]
    exact mul32_zero_mag _ h3 (by decide) (.inr rfl)

/-- R100(b), (d): where the coefficients are `+0`, so are the terms up to their signs, at every fraction of `[0, 1]`. -/
theorem crInterp_of_zero_coefficients (n : Nat) {t : Taps} {frac : F32} (hy : FiniteF32 t.y1)
    (hz : t.y1 ≠ 0x80000000#32) (hc : crC1 0 t = 0 ∧ crC2 0 t = 0 ∧ crC3 0 t = 0)
    (hf : Within 0 0x3F800000#32 frac) : crInterp n t frac = t.y1 := by
  obtain ⟨h1, h2, h3⟩ := hc
  have c1 (i : Nat) : crC1 i t = 0 := (h1 ▸ crC1_eqOrNaN i 0 t).eq rfl
  have c2 (i : Nat) : crC2 i t = 0 := (h2 ▸ crC2_eqOrNaN i 0 t).eq rfl
  have c3 (i : Nat) : crC3 i t = 0 := (h3 ▸ crC3_eqOrNaN i 0 t).eq rfl
  have finite {a b : F32} (h : Within 0 b a) (hb : FiniteF32 b) : FiniteF32 a := finite_of_le32 h.1 h.2 (by decide) hb
  have hfrac := finite hf (by decide)
  have hsquare := mul32_unit_within (n + 13) hfrac hf.1 hf
  have hcube := mul32_unit_within (n + 14) (finite hsquare hfrac) hsquare.1 hf
  have zero_term {i : Nat} {p : F32} (hp : FiniteF32 p) : magBits (mul32 i 0 p) = 0 :=
    mul32_zero_mag i (by decide) hp (.inl rfl)
  apply crInterp_of_zero_terms n hy hz
  · rw [c1]; exact zero_term hfrac
  · rw [c2]; exact zero_term (finite hsquare hfrac)
  · rw [c3]; exact zero_term (finite hcube (finite hsquare hfrac))

/-- Settles O54, by the zero terms of each case; the coefficients of equal taps 1.0 and `+0` cancel exactly. -/
theorem interpolatorExactCases : Obligations.InterpolatorExactCases := by
  refine ⟨fun n _ => crInterp_of_zero_fraction n, fun n frac h0 h1 => ?_⟩
  have hf : Within 0 0x3F800000#32 frac := ⟨h0, le32_of_lt32 h1⟩
  exact ⟨crInterp_of_zero_coefficients n (by decide) (by decide) (by decide +kernel) hf,
    crInterp_of_zero_coefficients n (by decide) (by decide) (by decide +kernel) hf⟩

/-- A result computed with the first numbers that is no NaN is the result with all others. -/
theorem crInterp_of_eval {t : Taps} {frac r : F32} (h : crInterp 0 t frac = r) (hr : isNaN r = false) (n : Nat) :
    crInterp n t frac = r :=
  (h ▸ crInterp_eqOrNaN n 0 t frac).eq hr

/-- Settles O53, by evaluating each example with the first numbers of free NaNs. -/
theorem interpolatorExamples : Obligations.InterpolatorExamples := fun n =>
  ⟨crInterp_of_eval (by decide +kernel) rfl n, crInterp_of_eval (by decide +kernel) rfl n,
    crInterp_of_eval (by decide +kernel) rfl n, crInterp_of_eval (by decide +kernel) rfl n,
    crInterp_of_eval (by decide +kernel) rfl n, crInterp_of_eval (by decide +kernel) rfl n⟩

end Sys2Proof.Machine

/-! PROOFS of the statements about the chorus voice engine (spec/43_engine.md R105 to R129). -/

namespace Sys2Proof.Machine

/-! ### More of the arithmetic (spec/00_scope.md R12, R13) -/

theorem finite_of_zero_mag {b : F32} (h : magBits b = 0) : FiniteF32 b := by
  unfold FiniteF32; rw [h]; decide

theorem mul32_comm (n : Nat) {a b : F32} (ha : FiniteF32 a) (hb : FiniteF32 b) : mul32 n a b = mul32 n b a := by
  rw [mul32_of_finite n ha hb, mul32_of_finite n hb ha, Nat.mul_comm, bne_comm]

theorem le32_refl {a : F32} (h : isNaN a = false) : le32 a a = true := le32_iff.2 ⟨h, h, le_rfl⟩

/-- A part of a factor not below 0 lies between 0 and the factor. -/
theorem unit_mul32_within (n : Nat) {a b : F32} (ha : FiniteF32 a) (h0 : le32 0 a = true)
    (hb : Within 0 0x3F800000#32 b) : Within 0 a (mul32 n b a) := by
  rw [mul32_comm n (finite_of_le32 hb.1 hb.2 (by decide) (by decide)) ha]
  exact mul32_unit_within n ha h0 hb

/-- 1.0 less a value of `[0, hi]` lies between 1.0 less `hi` and 1.0. -/
theorem one_sub32_within (n : Nat) {hi b : F32} (hh : FiniteF32 hi) (hb : Within 0 hi b) :
    Within (sub32 0 lit_1_0 hi) 0x3F800000#32 (sub32 n lit_1_0 b) := by
  have hfin := finite_of_le32 hb.1 hb.2 (by decide) hh
  have hone : le32 lit_1_0 lit_1_0 = true := by decide
  have hup := sub32_mono n 0 (a := lit_1_0) (b' := 0) (by decide) hfin (by decide) (by decide) hone hb.1
  rw [show sub32 0 lit_1_0 0 = 0x3F800000#32 by decide +kernel] at hup
  exact ⟨sub32_mono 0 n (by decide) hh (by decide) hfin hone hb.2, hup⟩

theorem ordKey_eq_magBits_or_neg (x : F32) : ordKey x = magBits x ∨ ordKey x = -(magBits x : Int) := by
  unfold ordKey; cases signBit x <;> simp

/-- A magnitude is at most a bound where the value lies between the bound and its negative. -/
theorem le32_abs32_iff {x b : F32} : le32 (abs32 x) b = true ↔ Within (neg32 b) b x := by
  have hkey := ordKey_eq_magBits_or_neg x
  rw [Within, le32_iff, le32_iff, le32_iff, isNaN_abs32, isNaN_neg32, ordKey_abs32, ordKey_neg32]
  constructor
  · rintro ⟨hx, hb, h⟩
    exact ⟨⟨hb, hx, by omega⟩, hx, hb, by omega⟩
  · rintro ⟨⟨hb, hx, h1⟩, -, -, h2⟩
    exact ⟨hx, hb, by omega⟩

/-- A magnitude above a bound is that of a value above the bound or below its negative. -/
theorem lt32_abs32_cases {x b : F32} (h : lt32 b (abs32 x) = true) : le32 b x = true ∨ le32 x (neg32 b) = true := by
  have hkey := ordKey_eq_magBits_or_neg x
  rw [lt32_iff, isNaN_abs32, ordKey_abs32] at h
  obtain ⟨hb, hx, hlt⟩ := h
  rw [le32_iff, le32_iff, isNaN_neg32, ordKey_neg32]
  rcases hkey with hk | hk
  · exact .inl ⟨hb, hx, by omega⟩
  · exact .inr ⟨hx, hb, by omega⟩

/-- A number of units with at most 24 bits above an exponent is the value of a magnitude. -/
theorem exists_unitsOf_of_dvd {k n : Nat} (hd : 2 ^ k ∣ n) (hn : n < 2 ^ (24 + k)) : ∃ m, unitsOf m = n := by
  obtain ⟨hlt, hge⟩ := scaled_div_bounds (n := n) (d := 1)
  have hjk : dropBits 24 n 1 ≤ k := by
    rcases Nat.eq_zero_or_pos (dropBits 24 n 1) with h0 | hpos
    · omega
    · have hlow := (dropBits_pos hpos).1
      rw [Nat.div_one] at hlow
      have := (Nat.pow_lt_pow_iff_right (by norm_num : 1 < 2)).1 (hlow.trans_lt hn)
      omega
  rw [Nat.one_mul] at hlt hge
  refine ⟨dropBits 24 n 1 * 8388608 + n / 2 ^ dropBits 24 n 1, ?_⟩
  rw [unitsOf_scaled ((Nat.eq_zero_or_pos _).imp_right hge) hlt.le]
  exact Nat.div_mul_cancel ((pow_dvd_pow 2 hjk).trans hd)

/-- The part of a value below 1.0 is a value. -/
theorem exists_unitsOf_mod_one (m : Nat) : ∃ m', unitsOf m' = unitsOf m % 2 ^ 149 := by
  rcases Nat.lt_or_ge m 8388608 with hm | hm
  · refine ⟨m, ?_⟩
    rw [unitsOf_small (by omega), Nat.mod_eq_of_lt (by omega)]
  · obtain ⟨k, sig, hu, -, hsig, -⟩ := unitsOf_normal hm
    rw [hu]
    rcases Nat.lt_or_ge k 149 with hk | hk
    · refine exists_unitsOf_of_dvd (k := k) ((Nat.dvd_mod_iff (pow_dvd_pow 2 hk.le)).2 (Nat.dvd_mul_left _ _)) ?_
      calc sig * 2 ^ k % 2 ^ 149 ≤ sig * 2 ^ k := Nat.mod_le _ _
        _ < 2 ^ 24 * 2 ^ k := Nat.mul_lt_mul_of_pos_right hsig (by positivity)
        _ = 2 ^ (24 + k) := (pow_add 2 24 k).symm
    · exact ⟨0, by rw [unitsOf_zero, Nat.mod_eq_zero_of_dvd ((pow_dvd_pow 2 hk).mul_left sig)]⟩

theorem unitsOf_one : unitsOf 1065353216 = 2 ^ 149 := by unfold unitsOf; norm_num

/-! ### Frames that process nothing, and a block as its frames (R121 to R123) -/

theorem State.respond_nil (s : State) : s.respond [] = s := by simp [State.respond]

/-- PROCESS_BLOCK answers with the outputs of its frames. -/
theorem exec_processBlock_ok {b : Byte} {n : Half} {xs ys : List F32} {s u : State}
    (h : frames b.toNat n.toNat xs s = .ok (u, ys)) : exec (.processBlock b n xs) s = .next (u.respond ys) :=
  congrArg respondFrames h

theorem processes_of_disabled {s : State} (h : s.state ≠ .enabled) (b : Nat) : s.processes b = false := by
  rw [Bool.eq_false_iff]
  exact fun hp => h (processes_iff.1 hp).1

theorem processes_no_lanes (s : State) : s.processes 0 = false := by
  rw [Bool.eq_false_iff]
  exact fun hp => absurd (processes_iff.1 hp).2.1 (by decide)

/-- Settles O37: no frame without lanes is processed, and it has no sample to pass through. -/
theorem emptyFramesDoNothing : Obligations.EmptyFramesDoNothing := by
  intro s
  refine ⟨?_, fun n => ?_, fun b => ?_⟩
  · rw [exec_processFrame_ok (frame_off (processes_no_lanes s)), State.respond_nil]
  · rw [exec_processBlock_ok (b := 0)
      (frames_passThrough n.toNat [] s (.inl (processes_no_lanes s)) (Nat.mul_zero _).symm), State.respond_nil]
  · rw [exec_processBlock_ok (n := 0) (u := s) (ys := []) rfl, State.respond_nil]

/-- Settles O36: a disabled block processes no frame, and a frame that is not processed is its own response. -/
theorem disabledBlockPassesThrough : Obligations.DisabledBlockPassesThrough := fun s h =>
  ⟨fun _ => exec_processFrame_ok (frame_off (processes_of_disabled h _)),
    fun _ n xs hx => exec_processBlock_ok (frames_passThrough n.toNat xs s (.inr h) hx)⟩

/-- R121: the frames of a block and the PROCESS_FRAME commands it is do the same: the responses of the earlier frames,
already out in the one and kept back in the other, change nothing. -/
theorem respondFrames_frames (b : Nat) : ∀ (n : Nat) (xs : List Word) (s : State),
    respondFrames (frames b n xs s) = execAll (frameCommands b n xs) s := by
  intro n
  induction n with
  | zero => intro xs s; exact congrArg Host.Outcome.next s.respond_nil
  | succ n ih =>
    intro xs s
    have hexec : exec (.processFrame 0 (xs.take b)) s = respondFrames (frame (xs.take b) s) := rfl
    rw [frames, frameCommands, execAll, hexec]
    cases frame (xs.take b) s with
    | error f => rfl
    | ok p =>
      obtain ⟨u, ys⟩ := p
      have hrest : execAll (frameCommands b n (xs.drop b)) (u.respond ys) =
          respondFrames ((frames b n (xs.drop b) u).map fun p => (p.1.respond ys, p.2)) := by
        rw [← ih, frames_respond]
      refine Eq.trans ?_ hrest.symm
      dsimp only
      cases frames b n (xs.drop b) u with
      | error f => rfl
      | ok q => exact congrArg Host.Outcome.next (by simp [State.respond])

/-- Settles O41, by the equation of the frames for every number of them. -/
theorem blockIsItsFrames : Obligations.BlockIsItsFrames := fun s b n xs =>
  respondFrames_frames b.toNat n.toNat xs s

/-! ### The delay (R106 to R109, R125) -/

/-- Settles O43: the clamp's bounds, and the NaN that passes through the product and the quotient to the clamp. -/
theorem delayIsClamped : Obligations.DelayIsClamped := by
  intro n ms sr32 cap h1 h2
  obtain ⟨hlo, hhi⟩ := delaySamples_bounds n ms sr32 h1 h2
  exact ⟨hlo, hhi, fun h => clamp32_nan _ _ (isNaN_div32 _ (.inl (isNaN_mul32 _ (.inl h))))⟩

/-- R106, R107, R125: with `DEPTH = +0` both products are zeros for a finite `SMOOTH`, and the delay time is 15 ms. -/
theorem delayTimeMs_of_depth_zero (n m : Nat) {smooth : F32} (h : FiniteF32 smooth) :
    delayTimeMs m (modulatedDepth n 0 smooth) = lit_15 := by
  have hcurve : magBits (mul32 n 0 0) = 0 := mul32_zero_mag n (by decide) (by decide) (.inl rfl)
  have hdepth : magBits (modulatedDepth n 0 smooth) = 0 :=
    mul32_zero_mag (n + 1) (finite_of_zero_mag hcurve) h (.inl hcurve)
  have hswing : magBits (mul32 m lit_7 (modulatedDepth n 0 smooth)) = 0 :=
    mul32_zero_mag m (by decide) (finite_of_zero_mag hdepth) (.inr hdepth)
  exact add32_zero_right (m + 1) (by decide) (by decide) hswing

/-- R108, R125: 15 ms at 44100 Hz are 661.5 samples. -/
theorem delaySamples_15ms_44100 (n : Nat) : delaySamples n lit_15 0x472C4400#32 1543 = 0x44256000#32 := by
  have hproduct : mul32 n lit_15 0x472C4400#32 = 0x49217FC0#32 :=
    (mul32_draw (by decide) (by decide) n).trans (by decide +kernel)
  have hquotient : div32 (n + 1) 0x49217FC0#32 lit_1000 = 0x44256000#32 :=
    (div32_draw (by decide) (by decide) (by decide) _).trans (by decide +kernel)
  rw [delaySamples, hproduct, hquotient]
  decide +kernel

/-- Settles O45: the delay time is that of `DEPTH = +0`, and at 44100 Hz its samples are evaluated. -/
theorem depthZeroGivesAFixedDelay : Obligations.DepthZeroGivesAFixedDelay := by
  intro s hdepth hsmooth n
  have hdelay : laneDelay n s = delaySamples (n + 4) lit_15 s.sr32 s.capacity.toNat := by
    rw [laneDelay, hdepth, delayTimeMs_of_depth_zero n (n + 2) hsmooth]
  refine ⟨n + 4, hdelay, fun hsr hcap => ?_⟩
  rw [hdelay, hsr, hcap]
  exact delaySamples_15ms_44100 (n + 4)

/-! ### The fraction of the read position (R111, R112) -/

/-- R112: a position less its base index is exact, and lies in `[0, 1)`. -/
theorem fraction_exact (n : Nat) {rp : F32} {idx : Nat} (hf : FiniteF32 rp) (h0 : 0 ≤ ordKey rp)
    (hidx : floorInt rp = some idx) (hle : idx ≤ 16777216) :
    valueUnits (fraction n rp idx) = valueUnits rp - (idx : Int) * 2 ^ 149 ∧
      le32 0 (fraction n rp idx) = true ∧ lt32 (fraction n rp idx) 0x3F800000#32 = true := by
  obtain ⟨m, hm⟩ := Int.eq_ofNat_of_zero_le h0
  have hrp : keyUnits (ordKey rp) = (unitsOf m : Int) := by rw [hm, keyUnits_ofNat]
  have hfloor : idx = unitsOf m / 2 ^ 149 := by
    rw [floorInt_of_nonneg hf h0, hrp] at hidx
    exact (Option.some.inj hidx).symm
  obtain ⟨r, hr⟩ := exists_unitsOf_mod_one m
  have hsub : (unitsOf m : Int) - idx * 2 ^ 149 = unitsOf r := by
    have := Nat.div_add_mod (unitsOf m) (2 ^ 149)
    rw [← hfloor, ← hr] at this
    rw [← this]; push_cast; ring
  have hlt : r < 1065353216 := by
    rw [← unitsOf_lt_iff, hr, unitsOf_one]
    exact Nat.mod_lt _ (by positivity)
  obtain ⟨hfi, -, hui⟩ := toF32_exact hle
  obtain ⟨hkey, hnan⟩ := sub32_finite n hf hfi
  have hinf := infMag_eq
  have hexact : ordKey (fraction n rp idx) = r := by
    unfold fraction
    rw [hkey, hrp, hui, hsub, ← keyUnits_ofNat]
    have := roundKey_exact (k := (r : Int)) (d := 1) one_pos (by omega) (by omega)
    rwa [Nat.cast_one, mul_one] at this
  refine ⟨?_, le32_iff.2 ⟨rfl, hnan, ?_⟩, lt32_iff.2 ⟨hnan, rfl, ?_⟩⟩
  · rw [valueUnits_eq_keyUnits, valueUnits_eq_keyUnits, hexact, keyUnits_ofNat, hrp, hsub]
  · rw [hexact]; exact Int.natCast_nonneg r
  · rw [hexact]; show (r : Int) < ((1065353216 : Nat) : Int); exact_mod_cast hlt

/-- Settles O44: the read position of a legal session is an index, and the difference from it is exact. -/
theorem readPositionIsAnIndexAndAFraction : Obligations.ReadPositionIsAnIndexAndAFraction := by
  intro s c n hs he hc
  have hl := hs.sessionLegal he
  obtain ⟨hf, h0, idx, hidx, hle, -⟩ := lanePosition_index hl.cap_lo hl.cap_hi (hl.cursors c hc)
  exact ⟨idx, hidx, hle, fraction_exact n hf h0 hidx (hle.trans hl.cap_hi)⟩

/-! ### The compensation gain (R114) -/

/-- R114: how far the depth is above 0.3, as a part of 0.7: a value of `[0, 1]`. -/
theorem depthExcess_within (n m : Nat) {depth : F32} (h : Within lit_0_3 0x3F800000#32 depth) :
    Within 0 0x3F800000#32 (div32 m (sub32 n depth lit_0_3) lit_0_7) := by
  have hexcess := sub32_within n (b := lit_0_3) (by decide) (by decide) (by decide) h
  rw [show sub32 0 lit_0_3 lit_0_3 = 0 by decide +kernel,
    show sub32 0 0x3F800000#32 lit_0_3 = lit_0_7 by decide +kernel] at hexcess
  have hfin := finite_of_le32 hexcess.1 hexcess.2 (by decide) (by decide)
  have htop := div32_mono m 0 (b := lit_0_7) (b' := lit_0_7) hfin (by decide) (by decide) hexcess.1 hexcess.2
    (by decide) (by decide)
  rw [show div32 0 lit_0_7 lit_0_7 = 0x3F800000#32 by decide +kernel] at htop
  exact ⟨div32_nonneg m hfin hexcess.1 (by decide), htop⟩

/-- R114: from 0.3 on the gain is 1.0 less a value of `[0, 0.2]`. -/
theorem depthGain_within (n : Nat) {depth : F32} (h : Within lit_0_3 0x3F800000#32 depth) :
    Within 0x3F4CCCCD#32 0x3F800000#32 (depthGain n depth) := by
  have hcut := unit_mul32_within (n + 2) (a := lit_0_2) (by decide) (by decide) (depthExcess_within n (n + 1) h)
  have hgain := one_sub32_within (n + 3) (by decide) hcut
  rwa [show sub32 0 lit_1_0 lit_0_2 = 0x3F4CCCCD#32 by decide +kernel] at hgain

theorem depthGain_one (n : Nat) : depthGain n 0x3F800000#32 = 0x3F4CCCCD#32 := by
  have hexcess : sub32 n 0x3F800000#32 lit_0_3 = lit_0_7 :=
    (sub32_draw (by decide) (by decide) n).trans (by decide +kernel)
  have hpart : div32 (n + 1) lit_0_7 lit_0_7 = 0x3F800000#32 :=
    (div32_draw (by decide) (by decide) (by decide) _).trans (by decide +kernel)
  have hcut : mul32 (n + 2) 0x3F800000#32 lit_0_2 = lit_0_2 := by
    rw [mul32_comm _ (by decide) (by decide), mul32_one _ (by decide)]
  rw [depthGain, hexcess, hpart, hcut, sub32_draw (by decide) (by decide)]
  decide +kernel

theorem compensate_of_le (n : Nat) {depth : F32} (d : F32) (h : le32 depth lit_0_3 = true) :
    compensate n depth d = d := by
  unfold compensate; rw [gt32_false_of_le h]; exact if_neg Bool.false_ne_true

/-- Settles O55: the interval of the gain, the comparison that leaves the rest alone, and full depth. -/
theorem compensationAttenuatesByAtMostAFifth : Obligations.CompensationAttenuatesByAtMostAFifth :=
  ⟨fun n _ hlo hhi => depthGain_within n ⟨le32_of_lt32 hlo, hhi⟩, fun n _ d h => compensate_of_le n d h,
    depthGain_one⟩

/-! ### The soft clip (R117, R128) -/

/-- R117: beyond a knee, 0.3 of the excess is added to it. -/
def clipBeyond (n : Nat) (knee out : F32) : F32 :=
  add32 (n + 3) knee (mul32 (n + 2) (sub32 (n + 1) out knee) lit_0_3)

theorem softClip_of_le (n : Nat) {out : F32} (h : le32 (abs32 out) lit_0_99 = true) : softClip n out = out := by
  unfold softClip; rw [gt32_false_of_le h]; exact if_neg Bool.false_ne_true

theorem softClip_of_isNaN (n : Nat) {out : F32} (h : isNaN out = true) : softClip n out = out :=
  if_neg (by rw [gt32, lt32_of_isNaN (.inr (by rwa [isNaN_abs32]))]; exact Bool.false_ne_true)

/-- R117: above 0.99 the knee is 0.99, and below -0.99 it is -0.99. -/
theorem softClip_beyond (n : Nat) {out : F32} (h : lt32 lit_0_99 (abs32 out) = true) :
    softClip n out = clipBeyond n (if gt32 out lit_0 then lit_0_99 else neg32 lit_0_99) out := by
  have hknee : mul32 n (if gt32 out lit_0 then lit_1_0 else lit_m1) lit_0_99 =
      if gt32 out lit_0 then lit_0_99 else neg32 lit_0_99 := by
    rw [mul32_draw (by split <;> decide) (by decide)]
    split <;> decide +kernel
  unfold softClip
  rw [gt32, h, if_pos rfl, hknee]
  rfl

/-- What lies between two bounds is clipped to between what they are clipped to. -/
theorem clipBeyond_within (n : Nat) {knee lo hi out : F32} (hk : FiniteF32 knee) (hl : FiniteF32 lo)
    (hh : FiniteF32 hi) (hdl : FiniteF32 (sub32 0 lo knee)) (hdh : FiniteF32 (sub32 0 hi knee))
    (hpl : FiniteF32 (mul32 0 lit_0_3 (sub32 0 lo knee))) (hph : FiniteF32 (mul32 0 lit_0_3 (sub32 0 hi knee)))
    (h : Within lo hi out) :
    Within (add32 0 knee (mul32 0 lit_0_3 (sub32 0 lo knee))) (add32 0 knee (mul32 0 lit_0_3 (sub32 0 hi knee)))
      (clipBeyond n knee out) := by
  have hdiff := sub32_within (n + 1) hl hh hk h
  have hprod := mul32_within (n + 2) (a := lit_0_3) hdl hdh (by decide) (by decide) hdiff
  rw [mul32_comm (n + 2) (by decide) (finite_of_le32 hdiff.1 hdiff.2 hdl hdh)] at hprod
  have hrefl := le32_refl (isNaN_of_finite hk)
  exact add32_within (n + 3) hk hk hpl hph ⟨hrefl, hrefl⟩ hprod

/-- R128: an output of magnitude at most 1.0233 is brought back to `[-1, 1]`. -/
theorem softClip_within (n : Nat) {out : F32} (h : Within 0xBF82FB7F#32 0x3F82FB7F#32 out) :
    Within 0xBF800000#32 0x3F800000#32 (softClip n out) := by
  by_cases hc : lt32 lit_0_99 (abs32 out) = true
  · rw [softClip_beyond n hc]
    rcases lt32_abs32_cases hc with hup | hdown
    · rw [show gt32 out lit_0 = true from lt32_iff.2 ⟨rfl, (le32_iff.1 hup).2.1,
        lt_of_lt_of_le (by decide) (le32_iff.1 hup).2.2⟩, if_pos rfl]
      have hclip := clipBeyond_within n (knee := lit_0_99) (by decide) (by decide) (by decide) (by decide +kernel)
        (by decide +kernel) (by decide +kernel) (by decide +kernel) ⟨hup, h.2⟩
      exact ⟨le32_trans (by decide +kernel) hclip.1, le32_trans hclip.2 (by decide +kernel)⟩
    · rw [gt32_false_of_le (le32_trans hdown (by decide)), if_neg Bool.false_ne_true]
      have hclip := clipBeyond_within n (knee := neg32 lit_0_99) (by decide) (by decide) (by decide)
        (by decide +kernel) (by decide +kernel) (by decide +kernel) (by decide +kernel) ⟨h.1, hdown⟩
      exact ⟨le32_trans (by decide +kernel) hclip.1, le32_trans hclip.2 (by decide +kernel)⟩
  · have hnan : isNaN (abs32 out) = false := by rw [isNaN_abs32]; exact (le32_iff.1 h.1).2.1
    have hle : le32 (abs32 out) lit_0_99 = true := by
      by_contra hn
      exact hc (lt32_of_not_le32 rfl hnan hn)
    rw [softClip_of_le n hle]
    exact ⟨le32_trans (by decide) (le32_abs32_iff.1 hle).1, le32_trans (le32_abs32_iff.1 hle).2 (by decide)⟩

/-- R117: an infinity keeps its excess over the knee infinite. -/
theorem softClip_inf (n : Nat) (s : Bool) : softClip n (packF32 s infMag) = packF32 s infMag := by
  have hknee : FiniteF32 (if gt32 (packF32 s infMag) lit_0 then lit_0_99 else neg32 lit_0_99) := by
    split <;> decide
  have hfactor : mul32 (n + 2) (packF32 s infMag) lit_0_3 = packF32 s infMag := by
    rw [mul32_inf_finite _ (by decide), if_neg (by decide +kernel), show signBit lit_0_3 = false by decide,
      Bool.bne_false]
  rw [softClip_beyond n (by cases s <;> decide), clipBeyond, sub32_inf_finite _ hknee, hfactor,
    add32_finite_inf _ hknee]

/-- Settles O56: at most the knee, a NaN, an infinity, and the bound by what it is clipped to. -/
theorem softClipBounds : Obligations.SoftClipBounds := by
  refine ⟨fun n _ => softClip_of_le n, fun n _ => softClip_of_isNaN n,
    fun n => ⟨softClip_inf n false, softClip_inf n true⟩, fun n out h => ?_⟩
  have hbound : neg32 0x3F82FB7F#32 = 0xBF82FB7F#32 ∧ neg32 0x3F800000#32 = 0xBF800000#32 := by decide
  rw [le32_abs32_iff, hbound.1] at h
  rw [le32_abs32_iff, hbound.2]
  exact softClip_within n h

/-! ### The mix (R115, R116, R126) -/

/-- R115, R126: `MIX = +0` gives the input the gain 1.0 and a finite wet sample the gain 0. -/
theorem mixDown_of_mix_zero (n : Nat) {x wet : F32} (hx : FiniteF32 x) (hz : x ≠ 0x80000000#32)
    (hw : FiniteF32 wet) : mixDown n 0 x wet = x := by
  have hdry : dryGain (n + 1) 0 = 0x3F800000#32 := (sub32_draw (by decide) (by decide) _).trans (by decide +kernel)
  have hgain : magBits (wetGain n 0) = 0 := mul32_zero_mag n (by decide) (by decide) (.inl rfl)
  rw [mixDown, hdry, mul32_one _ hx]
  exact add32_zero_right _ hx hz (mul32_zero_mag _ hw (finite_of_zero_mag hgain) (.inr hgain))

/-- Settles O46: the mix is the input, and the soft clip leaves it alone. -/
theorem mixZeroIsDry : Obligations.MixZeroIsDry := by
  intro n m x wet hw hle hz
  have hwithin := le32_abs32_iff.1 hle
  have hx : FiniteF32 x := finite_of_le32 hwithin.1 hwithin.2 (by decide) (by decide)
  rw [mixDown_of_mix_zero n hx hz hw, softClip_of_le m hle]

/-! ### One lane, as its pseudocode is written (R119) -/

/-- R109: the clamp, its comparisons in the order of the pseudocode. -/
theorem clamp32_eq_ite (v lo hi : F32) :
    clamp32 v lo hi = if le32 lo v = false then lo else if lt32 hi v = true then hi else v := by
  unfold clamp32 ge32 gt32
  cases le32 lo v <;> rfl

/-- R78, R110: a tap is read from the line that the lane has written. -/
theorem laneState_cell_tap {s : State} {c : Nat} (x : F32) (hc : c < s.channels.toNat) (hcap : 0 < s.capacity.toNat)
    (idx j : Nat) : (laneState c x s).cell c (tapIndex s.capacity.toNat idx j) =
      some ((laneWritten c x s).mem.readWord (cellAddr c (tapIndex s.capacity.toNat idx j))) :=
  if_pos (active_iff.2 ⟨hc, tapIndex_lt hcap idx j⟩)

/-- Settles O40: LANE numbers its free NaNs from the state's count on, in the order of the pseudocode, and with the clamp
written as there the output is the pseudocode's by definition. -/
theorem laneFollowsItsPseudocode : Obligations.LaneFollowsItsPseudocode := by
  intro s c x hs he hc
  have hl := hs.sessionLegal he
  have hw := hl.cursors c hc
  have hcap : 0 < s.capacity.toNat := Nat.zero_lt_of_lt hw
  obtain ⟨-, -, idx, hidx, hle, -⟩ := lanePosition_index hl.cap_lo hl.cap_hi hw
  have ha := active_iff.2 ⟨hc, hw⟩
  have htap (j m : Nat) (h : m + 1 = idx + j ∨ m + 1 = idx + j + s.capacity.toNat) :=
    (congrArg ((laneState c x s).cell c) (tapIndex_eq_mod h).symm).trans (laneState_cell_tap x hc hcap idx j)
  let taps := tapsAt c idx (laneWritten c x s)
  refine ⟨fun k => s.nanDraw + k, idx, taps.y0, taps.y1, taps.y2, taps.y3, _, _, lane_some x ha hidx, ?_⟩
  simp only [← clamp32_eq_ite]
  exact ⟨hidx, hle, htap 0 _ (.inr (by omega)), htap 1 _ (.inl rfl), htap 2 _ (.inl rfl), htap 3 _ (.inl rfl), rfl,
    laneState_cell_same hs.canonical.mem x ha, laneState_cursor_same c x hl.wptr hcap,
    fun _ => laneState_cursor_other c x s, fun _ _ => laneState_cell_other x, rfl⟩

/-! ### Silence (R127) -/

/-- R96 to R99: the interpolation of zeros is a zero, at every fraction of `[0, 1]`. -/
theorem crInterp_zero_mag (n : Nat) {t : Taps} {frac : F32} (h0 : magBits t.y0 = 0) (h1 : magBits t.y1 = 0)
    (h2 : magBits t.y2 = 0) (h3 : magBits t.y3 = 0) (hf : Within 0 0x3F800000#32 frac) :
    magBits (crInterp n t frac) = 0 := by
  have scaled (i : Nat) {a b : F32} (ha : FiniteF32 a) (hb : magBits b = 0) : magBits (mul32 i a b) = 0 :=
    mul32_zero_mag i ha (finite_of_zero_mag hb) (.inr hb)
  have hc1 : magBits (crC1 n t) = 0 := scaled _ (by decide) (sub32_zeros_mag _ h2 h0)
  have hc2 : magBits (crC2 (n + 2) t) = 0 :=
    sub32_zeros_mag _ (add32_zeros_mag _ (sub32_zeros_mag _ h0 (scaled _ (by decide) h1)) (scaled _ (by decide) h2))
      (scaled _ (by decide) h3)
  have hc3 : magBits (crC3 (n + 8) t) = 0 :=
    add32_zeros_mag _ (scaled _ (by decide) (sub32_zeros_mag _ h3 h0))
      (scaled _ (by decide) (sub32_zeros_mag _ h1 h2))
  have finite {a b : F32} (h : Within 0 b a) (hb : FiniteF32 b) : FiniteF32 a := finite_of_le32 h.1 h.2 (by decide) hb
  have hfrac := finite hf (by decide)
  have hsquare := mul32_unit_within (n + 13) hfrac hf.1 hf
  have hcube := mul32_unit_within (n + 14) (finite hsquare hfrac) hsquare.1 hf
  have term (i : Nat) {a b : F32} (ha : magBits a = 0) (hb : FiniteF32 b) : magBits (mul32 i a b) = 0 :=
    mul32_zero_mag i (finite_of_zero_mag ha) hb (.inl ha)
  exact add32_zeros_mag _ (add32_zeros_mag _ (add32_zeros_mag _ h1 (term _ hc1 hfrac))
    (term _ hc2 (finite hsquare hfrac))) (term _ hc3 (finite hcube (finite hsquare hfrac)))

/-- R114: a zero times the gain of a legal depth is a zero. -/
theorem compensate_zero_mag (n : Nat) {depth d : F32} (hdepth : le32 depth 0x3F800000#32 = true)
    (hd : magBits d = 0) : magBits (compensate n depth d) = 0 := by
  unfold compensate
  split
  · next h =>
    have hgain := depthGain_within n ⟨le32_of_lt32 h, hdepth⟩
    exact mul32_zero_mag _ (finite_of_zero_mag hd) (finite_of_le32 hgain.1 hgain.2 (by decide) (by decide)) (.inl hd)
  · exact hd

/-- R115, R116: zeros mix to a zero, at every mix of `[0, 1]`. -/
theorem mixDown_zero_mag (n : Nat) {mix x d : F32} (hmix : Within 0 0x3F800000#32 mix) (hx : magBits x = 0)
    (hd : magBits d = 0) : magBits (mixDown n mix x d) = 0 := by
  have hwet := unit_mul32_within n (a := lit_0_95) (by decide) (by decide) hmix
  have hdry := one_sub32_within (n + 1) (by decide) hmix
  exact add32_zeros_mag _
    (mul32_zero_mag _ (finite_of_zero_mag hx) (finite_of_le32 hdry.1 hdry.2 (by decide +kernel) (by decide)) (.inl hx))
    (mul32_zero_mag _ (finite_of_zero_mag hd) (finite_of_le32 hwet.1 hwet.2 (by decide) (by decide)) (.inl hd))

theorem softClip_zero_mag (n : Nat) {out : F32} (h : magBits out = 0) : magBits (softClip n out) = 0 := by
  have hle : le32 (abs32 out) lit_0_99 = true := by
    rw [le32_iff, isNaN_abs32, ordKey_abs32, h]
    exact ⟨isNaN_of_finite (finite_of_zero_mag h), rfl, by decide⟩
  rw [softClip_of_le n hle, h]

/-- Every cell of channel `c` is a zero. -/
def State.Silent (s : State) (c : Nat) : Prop := ∀ i w, s.cell c i = some w → magBits w = 0

theorem silent_laneState {s : State} {c : Nat} {x : F32} (hs : s.Inv) (hz : s.Silent c) (hx : magBits x = 0)
    (ha : s.active c (s.cursor c).toNat = true) : (laneState c x s).Silent c := by
  intro i w hw
  by_cases hi : i = (s.cursor c).toNat
  · subst hi
    rw [laneState_cell_same hs.canonical.mem x ha] at hw
    rw [← Option.some.inj hw]
    exact mul32_zero_mag _ (finite_of_zero_mag hx) (by decide) (.inl hx)
  · rw [laneState_cell_other x (.inr hi)] at hw
    exact hz i w hw

/-- R127: a lane of a silent line with a zero for its input answers a zero and leaves the line silent. -/
theorem lane_silent {s u : State} {c : Nat} {x y : F32} (hs : s.Inv) (hz : s.Silent c) (hx : magBits x = 0)
    (h : lane c x s = .ok (u, y)) : u.Silent c ∧ magBits y = 0 := by
  obtain ⟨hc, hw, rfl, idx, hidx, rfl⟩ := lane_cases h
  have hl := hs.sessionLegal (enabled_of_channel hs hc)
  have hsilent := silent_laneState hs hz hx (active_iff.2 ⟨hc, hw⟩)
  have htap (j : Nat) := hsilent _ _ (laneState_cell_tap x hc (Nat.zero_lt_of_lt hw) idx j)
  obtain ⟨hf, h0, idx', hidx', hle, -⟩ := lanePosition_index hl.cap_lo hl.cap_hi hw
  obtain rfl : idx' = idx := Option.some.inj (hidx'.symm.trans hidx)
  obtain ⟨-, hlo, hhi⟩ := fraction_exact (s.nanDraw + 9) hf h0 hidx (hle.trans hl.cap_hi)
  exact ⟨hsilent, softClip_zero_mag _ (mixDown_zero_mag _ hs.params.mix hx (compensate_zero_mag _ hs.params.depth.2
    (crInterp_zero_mag _ (htap 0) (htap 1) (htap 2) (htap 3) ⟨hlo, le32_of_lt32 hhi⟩)))⟩

/-- R127: a frame with a zero for the input of a silent channel answers a zero there and leaves the channel silent. -/
theorem frame_silent {s : State} {xs : List F32} {c : Nat} (hs : s.Inv) (hz : s.Silent c)
    (hc : c < s.channels.toNat) (hlen : c < xs.length) (hx : ∀ x, xs[c]? = some x → magBits x = 0) :
    ∃ ys, frame xs s = .ok (frameState xs s, ys) ∧ ys.length = xs.length ∧ (frameState xs s).Silent c ∧
      ∃ y, ys[c]? = some y ∧ magBits y = 0 := by
  have he := enabled_of_channel hs hc
  obtain ⟨ys, hf⟩ := frame_ok (xs := xs) hs.sessionLegal
  have hrun := (frame_on (processes_of_inv hs he (Nat.ne_zero_of_lt hlen))).symm.trans hf
  obtain ⟨-, hlane, -⟩ := lanes_each xs 0 _ _ ys (inv_oscStep hs) he hrun
  simp only [Nat.zero_add] at hlane
  have hget := List.getElem?_eq_getElem hlen
  obtain ⟨u, y, hu, hy, -, hcell⟩ := hlane c xs[c] hget hc
  have hinv : ((oscStep s).draw (laneDraws * c)).Inv :=
    inv_congr (inv_oscStep hs) rfl rfl rfl rfl rfl rfl rfl rfl
  obtain ⟨hsilent, hy0⟩ := lane_silent hinv hz (hx _ hget) hu
  exact ⟨ys, hf, (frame_cases hf).2.1, fun i w hw => hsilent i w (hcell i ▸ hw), y, hy, hy0⟩

/-- R127: the frames of a block with zeros for the inputs of a silent channel answer zeros there. -/
theorem frames_silent {b c : Nat} (hb : c < b) : ∀ (n : Nat) (xs : List F32) (s : State), s.Inv → s.Silent c →
    c < s.channels.toNat → xs.length = n * b →
    (∀ k x, k < n → xs[k * b + c]? = some x → magBits x = 0) →
    ∃ ys, frames b n xs s = .ok (framesState b n xs s, ys) ∧
      ∀ k, k < n → ∃ y, ys[k * b + c]? = some y ∧ magBits y = 0 := by
  intro n
  induction n with
  | zero => intro xs s _ _ _ _ _; exact ⟨[], rfl, fun k hk => absurd hk (Nat.not_lt_zero k)⟩
  | succ n ih =>
    intro xs s hs hz hc hx hzeros
    rw [Nat.succ_mul] at hx
    have hlen : (xs.take b).length = b := by rw [List.length_take]; omega
    have hfirst (x : F32) (h : (xs.take b)[c]? = some x) : magBits x = 0 := by
      rw [List.getElem?_take_of_lt hb] at h
      exact hzeros 0 x n.succ_pos (by rwa [Nat.zero_mul, Nat.zero_add])
    have hrest (k : Nat) (x : F32) (hk : k < n) (h : (xs.drop b)[k * b + c]? = some x) : magBits x = 0 := by
      rw [List.getElem?_drop] at h
      exact hzeros (k + 1) x (by omega) (by rw [← h, Nat.succ_mul]; congr 1; omega)
    obtain ⟨ys, hf, hyl, hz', y, hy, hy0⟩ := frame_silent hs hz hc (by omega) hfirst
    obtain ⟨zs, hfs, hzs⟩ := ih (xs.drop b) _ (inv_frameState hs (xs.take b)) hz' (by rwa [frameState_channels])
      (by rw [List.length_drop]; omega) hrest
    refine ⟨ys ++ zs, by simp only [frames, framesState, hf, hfs], fun k hk => ?_⟩
    cases k with
    | zero => exact ⟨y, by rw [Nat.zero_mul, Nat.zero_add, List.getElem?_append_left (by omega), hy], hy0⟩
    | succ k =>
      obtain ⟨z, hz, hz0⟩ := hzs k (by omega)
      refine ⟨z, ?_, hz0⟩
      rw [← hz, Nat.succ_mul, List.getElem?_append_right (by omega)]
      congr 1; omega

/-- Settles O47: every frame of the block keeps the channel silent and answers a zero there. -/
theorem silenceStaysSilent : Obligations.SilenceStaysSilent := by
  intro s b n xs c hs _ hx hb hc hz hzeros
  obtain ⟨ys, hf, hys⟩ := frames_silent hb n.toNat xs s hs hz hc hx hzeros
  exact ⟨_, ys, exec_processBlock_ok hf, congrArg (· ++ ys) (framesState_respOut b.toNat n.toNat xs s), hys⟩

end Sys2Proof.Machine

/-! PROOFS of the statements about the control commands (spec/44_control.md R130 to R146). -/

namespace Sys2Proof.Machine

/-! ### The checks of CONFIGURE (R131) -/

/-- R131: the three checks in their order. No capacity is below 4, so the lower bound refuses nothing. -/
theorem checkConfig_eq_ite (sr : F64) (ch : Nat) : checkConfig sr ch =
    if isNaN64 sr = true ∨ signBit64 sr = true ∨ magBits64 sr = 0 then .badSampleRate
    else if ch = 0 ∨ maxChannels < ch then .badChannelCount
    else if magBits64 sr = infMag64 ∨ maxCapacity < capacityOf sr then .badCapacity
    else .enabled := by
  have hcap : ¬ capacityOf sr < 4 := by have := le_capacityOf sr; omega
  simp only [checkConfig, sampleRateNotPositive, Bool.or_eq_true, decide_eq_true_eq, hcap, false_or]
  rw [ite_or (magBits64 sr = infMag64)]

/-- R131: a sample rate that passes the checks is no NaN. -/
theorem isNaN64_of_pass {sr : F64} {ch : Nat} (h : checkConfig sr ch = .enabled) : isNaN64 sr = false :=
  decide_eq_false (Nat.not_lt.2 ((checkConfig_enabled_iff sr ch).1 h).1.le)

/-- Settles O60: seven evaluations of `capacityOf`. -/
theorem capacityExamples : Obligations.CapacityExamples := by
  unfold Obligations.CapacityExamples
  decide +kernel

/-! ### What CONFIGURE leaves (R130 to R134) -/

/-- R69, R130: a CONFIGURE with no reserved field set is executed. -/
theorem exec_configure_of_zero (ch : Half) (lo hi : Word) (s : State) :
    exec (.configure 0 ch lo hi) s = .next (configure ch lo hi s) := rfl

theorem configure_of_pass {ch : Half} {lo hi : Word} (h : checkConfig (sampleRateOf lo hi) ch.toNat = .enabled)
    (s : State) : configure ch lo hi s =
      startSession (sampleRateOf lo hi) ch.toNat (resetSession (s.setSampleRate lo hi)) := by
  rw [configure, h]

theorem configure_of_fail {ch : Half} {lo hi : Word} {code : StateCode}
    (h : checkConfig (sampleRateOf lo hi) ch.toNat = code) (hne : code ≠ .enabled) (s : State) :
    configure ch lo hi s = endSession code (resetSession (s.setSampleRate lo hi)) := by
  obtain ⟨he, -⟩ | ⟨-, e⟩ := configure_cases ch lo hi s
  · exact absurd (h.symm.trans he) hne
  · rw [e, h]

/-- R133: every cursor is 0 after the reset of a session, and neither its start nor its end moves one. -/
theorem configure_cursor (ch : Half) (lo hi : Word) (s : State) (c : Nat) : (configure ch lo hi s).cursor c = 0 := by
  obtain ⟨-, e⟩ | ⟨-, e⟩ := configure_cases ch lo hi s <;> rw [e] <;> rfl

/-- R134, R136: a block without channels has no active cell. -/
theorem endSession_cell (code : StateCode) (s : State) (c i : Nat) : (endSession code s).cell c i = none :=
  if_neg fun ha => Nat.not_lt_zero c (active_iff.1 ha).1

section StartSession
variable {sr : F64} (ch : Half) (s : State)

/-- R131: a capacity the block has fits its register. -/
theorem startSession_capacity_toNat (h : capacityOf sr ≤ maxCapacity) :
    (startSession sr ch.toNat s).capacity.toNat = capacityOf sr := by
  have hmax := maxCapacity_bounds.2
  exact (BitVec.toNat_ofNat ..).trans (Nat.mod_eq_of_lt (by omega))

/-- R24: the channel count is the operand, widened. -/
theorem startSession_channels : (startSession sr ch.toNat s).channels = ch.zeroExtend 32 :=
  BitVec.ofNat_toNat 32 ch

/-- R132: the clear leaves every cell of the session +0. -/
theorem startSession_cell (h : capacityOf sr ≤ maxCapacity) {c i : Nat} (hc : c < ch.toNat) (hi : i < capacityOf sr) :
    (startSession sr ch.toNat s).cell c i = some 0 := by
  have hch : (startSession sr ch.toNat s).channels.toNat = ch.toNat := by
    rw [startSession_channels, BitVec.zeroExtend, BitVec.toNat_setWidth]
    omega
  have ha : (startSession sr ch.toNat s).active c i = true :=
    active_iff.2 ⟨by rwa [hch], by rwa [startSession_capacity_toNat ch s h]⟩
  rw [State.cell, if_pos ha]
  exact congrArg some (readWord_nil _)

end StartSession

/-- Settles O16: the checks pass, and a session starts from the reset state. -/
theorem configureStartsASession : Obligations.ConfigureStartsASession := by
  intro s ch lo hi sr cap hfin hsign hpos hch hchmax hcap
  have hpass : checkConfig sr ch.toNat = .enabled := (checkConfig_enabled_iff sr _).2
    ⟨hfin, hsign, hpos, hch, hchmax, le_trans (by decide) (le_capacityOf sr), hcap⟩
  refine ⟨_, exec_configure_of_zero ch lo hi s, ?_, ?_, fun n => ?_, configure_cursor ch lo hi s, fun c i hc hi => ?_⟩
  all_goals rw [configure_of_pass hpass]
  · rw [← startSession_channels ch (sr := sr) s]
    rfl
  · exact startSession_capacity_toNat ch _ hcap
  · exact roundF32_draw (isNaN64_of_pass hpass) _ n
  · exact startSession_cell ch _ hcap hc hi

/-- Settles O17: each clause is a branch of `checkConfig`, and a session ends in that state. -/
theorem configureEntersDisabledStates : Obligations.ConfigureEntersDisabledStates := by
  intro s ch lo hi sr badRate badCount badCap code h
  have hcode : checkConfig sr ch.toNat = code ∧ code ≠ .enabled := by
    rw [checkConfig_eq_ite]
    obtain ⟨hr, rfl⟩ | ⟨hr, hn, rfl⟩ | ⟨hr, hn, hc, rfl⟩ := h
    · exact ⟨if_pos hr, by decide⟩
    · exact ⟨(if_neg hr).trans (if_pos hn), by decide⟩
    · exact ⟨(if_neg hr).trans ((if_neg hn).trans (if_pos hc)), by decide⟩
  have e := configure_of_fail hcode.1 hcode.2 s
  refine ⟨_, exec_configure_of_zero ch lo hi s, ?_, configure_cursor ch lo hi s, fun c i => ?_⟩
  · rw [e]; rfl
  · rw [e, endSession_cell]

/-- Settles O19: a session's end, twice. -/
theorem releaseEndsTheSession : Obligations.ReleaseEndsTheSession := fun s =>
  ⟨endSession .released s, rfl, rfl, endSession_cell .released s, rfl⟩

/-! ### WRITE_REG and the parameters (R138 to R141) -/

/-- R37: a number is assigned to the register that has it. -/
theorem regOfNumber_eq_some {reg : Byte} {name : RegName} (h : regOfNumber reg = some name) :
    reg = numberOfReg name := by
  unfold regOfNumber at h
  split at h <;> cases h
  all_goals exact BitVec.eq_of_toNat_eq (by assumption)

/-- R138, R140: a register that is no parameter and not `STATUS`, or no register, is not written. -/
theorem writeRegister_not_writable {reg : Byte} (h0 : reg ≠ 0x00) (h8 : reg ≠ 0x08) (h9 : reg ≠ 0x09)
    (hA : reg ≠ 0x0A) (v : Word) (s : State) : writeRegister reg v s = s.setBadCmd := by
  unfold writeRegister
  cases h : regOfNumber reg with
  | none => rfl
  | some name =>
    have hreg := regOfNumber_eq_some h
    cases name
    case status => exact absurd hreg h0
    case rate => exact absurd hreg h8
    case depth => exact absurd hreg h9
    case mix => exact absurd hreg hA
    all_goals rfl

/-- Settles O21: the clamp of a parameter in the order of its comparisons, and the other two cases as `writeRegister` has
them. -/
theorem writeRegStores : Obligations.WriteRegStores := by
  intro s v clampParam
  have hclamp (lo hi : F32) : clampParam lo hi = clamp32 v lo hi := (clamp32_eq_ite v lo hi).symm
  rw [hclamp, hclamp]
  exact ⟨rfl, rfl, rfl, rfl, fun reg h0 h8 h9 hA => congrArg _ (writeRegister_not_writable h0 h8 h9 hA v s)⟩

/-- R27 to R29: the registers that WRITE_REG alone writes. -/
def State.parameters (s : State) : F32 × F32 × F32 := (s.rate, s.depth, s.mix)

theorem configure_parameters (ch : Half) (lo hi : Word) (s : State) :
    (configure ch lo hi s).parameters = s.parameters := by
  obtain ⟨-, e⟩ | ⟨-, e⟩ := configure_cases ch lo hi s <;> rw [e] <;> rfl

theorem respondRead_parameters (found : Option Word) (s : State) :
    (respondRead found s).parameters = s.parameters := by
  cases found <;> rfl

theorem State.ProcessedFrom.parameters {s t : State} (h : s.ProcessedFrom t) : t.parameters = s.parameters := by
  obtain ⟨p, v, w, m, k, rfl⟩ := h
  rfl

/-- R141: no command but WRITE_REG writes a parameter. -/
theorem exec_parameters {i : Instr} {s t : State} (h : exec i s = .next t)
    (hi : ∀ reg imm v, i ≠ .writeReg reg imm v) : t.parameters = s.parameters := by
  cases exec_next h with
  | notExecuted ws => rfl
  | configure ch srLo srHi => exact configure_parameters ch srLo srHi s
  | release => rfl
  | writeReg reg v => exact absurd rfl (hi reg _ v)
  | readReg => exact respondRead_parameters _ s
  | readDl => exact respondRead_parameters _ s
  | processFrame _ hf =>
    obtain ⟨rfl, -, -⟩ := frame_cases hf
    exact (processedFrom_frameState _ (processedFrom_refl s)).parameters
  | processBlock hf =>
    obtain rfl := frames_cases hf
    exact (processedFrom_framesState _ _ _ s).parameters

/-- Settles O30: the parameters as a whole, and the three clamped writes. -/
theorem parametersAreWrittenOnlyByWriteReg : Obligations.ParametersAreWrittenOnlyByWriteReg := by
  refine ⟨fun s t i h hi => by simpa [State.parameters] using exec_parameters h hi, fun s v reg hreg => ?_⟩
  obtain rfl | rfl | rfl := hreg <;> exact ⟨_, rfl, rfl⟩

/-! ### Two CONFIGUREs with the same operands (R135) -/

/-- What commands other than WRITE_REG leave alone, CONFIGURE included: the parameters and the host's words. -/
def State.SameInputs (s t : State) : Prop := t.parameters = s.parameters ∧ t.hostWords = s.hostWords

theorem sameInputs_exec {i : Instr} {s t u : State} (hu : u.SameInputs s) (h : exec i s = .next t)
    (hi : ∀ reg imm v, i ≠ .writeReg reg imm v) : u.SameInputs t := by
  obtain ⟨hin, hlog, -⟩ := sessionRegistersChangeOnlyInConfigureAndRelease s t i h
  exact ⟨(exec_parameters h hi).trans hu.1, (Prod.ext hin hlog : t.hostWords = s.hostWords).trans hu.2⟩

theorem sameInputs_execAll {u : State} : ∀ {is : List Instr} {s t : State}, u.SameInputs s →
    (∀ reg imm v, Instr.writeReg reg imm v ∉ is) → execAll is s = .next t → u.SameInputs t := by
  intro is
  induction is with
  | nil => rintro s t hu - ⟨⟩; exact hu
  | cons i is ih =>
    intro s t hu hi h
    rw [execAll] at h
    split at h
    · next s' hs' =>
      exact ih (sameInputs_exec hu hs' fun reg imm v e => hi reg imm v (e ▸ List.mem_cons_self ..))
        (fun reg imm v hm => hi reg imm v (List.mem_cons_of_mem _ hm)) h
    · cases h
    · cases h

/-- R133, R135: CONFIGURE computes the rest of its next state from its operands alone, except `SR32` where it fails. -/
theorem configure_congr {s t : State} (h : s.SameInputs t) (ch : Half) (lo hi : Word) :
    configure ch lo hi t = { configure ch lo hi s with
      badCmd := (configure ch lo hi t).badCmd, sr32 := (configure ch lo hi t).sr32,
      respOut := (configure ch lo hi t).respOut, nanDraw := (configure ch lo hi t).nanDraw } := by
  obtain ⟨hp, hw⟩ := h
  cases s
  cases t
  simp only [State.parameters, State.hostWords, Prod.mk.injEq] at hp hw
  obtain ⟨rfl, rfl, rfl⟩ := hp
  obtain ⟨rfl, rfl⟩ := hw
  by_cases hc : checkConfig (sampleRateOf lo hi) ch.toNat = .enabled
  · rw [configure_of_pass hc, configure_of_pass hc]
    rfl
  · rw [configure_of_fail rfl hc, configure_of_fail rfl hc]
    rfl

/-- R132: `SR32` of a session is its sample rate rounded, whatever the state before. -/
theorem configure_sr32_of_enabled {ch : Half} {lo hi : Word} {s : State}
    (h : (configure ch lo hi s).state = .enabled) (t : State) :
    (configure ch lo hi t).sr32 = (configure ch lo hi s).sr32 := by
  obtain ⟨hc, e⟩ | ⟨hc, e⟩ := configure_cases ch lo hi s
  · rw [e, configure_of_pass hc t]
    exact roundF32_draw (isNaN64_of_pass hc) _ _
  · rw [e] at h
    exact absurd h hc

/-- Settles O18: the commands between keep the parameters and the host's words, and the rest is computed again. -/
theorem configureIsIdempotent : Obligations.ConfigureIsIdempotent := by
  intro s s1 s2 s3 ch lo hi is his h1 hs h3
  cases h1
  cases h3
  have hfirst : (configure ch lo hi s).SameInputs s :=
    ⟨(configure_parameters ch lo hi s).symm, (configure_hostWords ch lo hi s).symm⟩
  have hbetween : (configure ch lo hi s).SameInputs s2 := sameInputs_execAll ⟨rfl, rfl⟩ his hs
  have hsame : s.SameInputs s2 := ⟨hbetween.1.trans hfirst.1.symm, hbetween.2.trans hfirst.2.symm⟩
  exact ⟨configure_congr hsame ch lo hi, fun h => configure_sr32_of_enabled h s2⟩

/-! ### READ_REG and READ_DL (R142 to R146) -/

/-- R21, R22: `STATUS` as a number: 8 for `BADCMD`, and the code of the state. -/
theorem statusWord_eq_ofNat (s : State) :
    s.statusWord = BitVec.ofNat 32 ((if s.badCmd then 8 else 0) + s.state.code.toNat) := by
  unfold State.statusWord
  cases s.badCmd <;> cases s.state <;> rfl

theorem rsvIndex_zero (reg : Byte) : rsvIndex reg 0 = false := Bool.and_false _

/-- R142: READ_REG with no index responds to what it finds. -/
theorem exec_readReg_zero (reg : Byte) (s : State) :
    exec (.readReg reg 0) s = .next (respondRead (readRegister reg 0 s) s) := by
  rw [exec, execReadReg, rsvIndex_zero]
  rfl

/-- R142: a register that is found is responded, and nothing else happens. -/
theorem exec_readReg_found {reg : Byte} {w : Word} {s : State} (h : readRegister reg 0 s = some w) :
    exec (.readReg reg 0) s = .next { s with respOut := s.respOut ++ [w] } := by
  rw [exec_readReg_zero, h]
  rfl

/-- R58, R142: READ_REG of `WPTR` takes any index. -/
theorem exec_readReg_wptr (idx : Half) (s : State) :
    exec (.readReg 0x20 idx) s = .next (respondRead (readRegister 0x20 idx s) s) := rfl

/-- R142: a cursor is found while enabled and in range. -/
theorem readRegister_wptr (idx : Half) (s : State) : readRegister 0x20 idx s =
    if s.state = .enabled ∧ idx.toNat < s.channels.toNat then some (s.cursor idx.toNat) else none := by
  show readNamed .wptr idx s = _
  simp only [readNamed, State.isEnabled, decide_eq_true_eq]

/-- R142, R145: a read that finds a value under a condition. -/
theorem respondRead_ite (c : Prop) [Decidable c] (w : Word) (s : State) :
    respondRead (if c then some w else none) s =
      if c then { s with respOut := s.respOut ++ [w] } else { s with respOut := s.respOut ++ [0], badCmd := true } := by
  split <;> rfl

/-- R34: an unassigned number is no register's. -/
theorem readRegister_unassigned {reg : Byte} (h : ∀ name, reg ≠ numberOfReg name) (idx : Half) (s : State) :
    readRegister reg idx s = none := by
  unfold readRegister
  cases hr : regOfNumber reg with
  | none => rfl
  | some name => exact absurd (regOfNumber_eq_some hr) (h name)

/-- Settles O23: each number is looked up, the cursor under its condition; the numbers of the list are the registers'. -/
theorem readRegResponds : Obligations.ReadRegResponds := by
  intro s found
  refine ⟨?_, exec_readReg_found rfl, exec_readReg_found rfl, exec_readReg_found rfl, exec_readReg_found rfl,
    exec_readReg_found rfl, exec_readReg_found rfl, exec_readReg_found rfl, exec_readReg_found rfl,
    exec_readReg_found rfl, exec_readReg_found rfl, exec_readReg_found rfl, exec_readReg_found rfl,
    exec_readReg_found rfl, fun idx => ?_, fun reg hreg => ?_⟩
  · refine exec_readReg_found ((congrArg some (statusWord_eq_ofNat s)).trans ?_)
    cases s.state <;> rfl
  · rw [exec_readReg_wptr, readRegister_wptr, respondRead_ite]
  · have hname (name : RegName) : reg ≠ numberOfReg name := by
      rintro rfl
      revert hreg
      cases name <;> decide
    rw [exec_readReg_zero, readRegister_unassigned hname]
    rfl

/-- R69, R145: READ_DL with no reserved field set is executed. -/
theorem exec_readDl_zero (ch : Half) (i : Word) (s : State) :
    exec (.readDl 0 ch i) s = .next (respondRead (readCell ch i s) s) := rfl

/-- R145: READ_DL finds an active cell of an enabled block. -/
theorem readCell_eq_ite (ch : Half) (i : Word) (s : State) : readCell ch i s =
    if s.state = .enabled ∧ ch.toNat < s.channels.toNat ∧ i.toNat < s.capacity.toNat then
      some (s.mem.readWord (cellAddr ch.toNat i.toNat)) else none := by
  simp only [readCell, State.cell, State.isEnabled, decide_eq_true_eq, active_iff]
  exact (ite_and ..).symm

/-- Settles O24: the cell under its condition. -/
theorem readDlResponds : Obligations.ReadDlResponds := by
  intro s ch i
  rw [exec_readDl_zero, readCell_eq_ite, respondRead_ite]

/-- `t` is `s` but for the responses and `BADCMD`, which is not cleared. -/
def State.ReadFrom (s t : State) : Prop :=
  t = { s with respOut := t.respOut, badCmd := t.badCmd } ∧ (s.badCmd = true → t.badCmd = true)

theorem readFrom_notExecuted (s : State) (ws : List Word) : s.ReadFrom (s.notExecuted ws) := ⟨rfl, fun _ => rfl⟩

theorem readFrom_respondRead (found : Option Word) (s : State) : s.ReadFrom (respondRead found s) := by
  cases found with
  | some w => exact ⟨rfl, id⟩
  | none => exact readFrom_notExecuted s [0]

/-- Settles O25: a read is not executed, or responds to what it finds. -/
theorem readsChangeNothingElse : Obligations.ReadsChangeNothingElse := by
  rintro s t i (⟨reg, idx, rfl⟩ | ⟨r, ch, k, rfl⟩) h
  all_goals
    cases exec_next h with
    | notExecuted ws => exact readFrom_notExecuted s ws
    | _ => exact readFrom_respondRead _ s

end Sys2Proof.Machine

/-! PROOFS of the statements about the command errors and the block's states (spec/60_exceptions.md R150 to R166). -/

namespace Sys2Proof.Machine

/-! ### No halt and no partial command (R150, R165, R176) -/

/-- Settles O13: what the step of a state with the invariant answers is the next state. -/
theorem stepNeverStops : Obligations.StepNeverStops := fun _ hs => stepsOn_of_inv hs

/-- Settles O7: the decoder finds no command, and for neither of the two reasons does the block do anything. -/
theorem stepWaitsForWholeCommands : Obligations.StepWaitsForWholeCommands := by
  intro s h
  have hwait : ∃ e, decode s.cmdIn = .error e ∧ noCommand e s.takeResponses = s.takeResponses := by
    obtain hc | ⟨k, hk⟩ := h
    · exact ⟨.noHeader, by rw [hc]; rfl, rfl⟩
    · exact ⟨.incomplete k, hk, rfl⟩
  obtain ⟨e, he, hsame⟩ := hwait
  obtain ⟨i, rest, hd, -⟩ | ⟨e', he', hs⟩ := step_cases (s := s) rfl
  · cases he.symm.trans hd
  · cases he.symm.trans he'
    rw [hs, hsame]
    rfl

/-! ### The disabled states (R158) -/

/-- R130: an executed CONFIGURE enables the block only where its checks pass. -/
theorem checkConfig_of_configure_enabled {ch : Half} {lo hi : Word} {s : State}
    (h : (configure ch lo hi s).state = .enabled) : checkConfig (sampleRateOf lo hi) ch.toNat = .enabled := by
  obtain ⟨hc, -⟩ | ⟨hc, e⟩ := configure_cases ch lo hi s
  · exact hc
  · rw [e] at h
    exact h

/-- Settles O20: a command that is not executed keeps the state; of the three things another can do to the session,
CONFIGURE's is the one that can enable the block. -/
theorem onlyConfigureEnables : Obligations.OnlyConfigureEnables := by
  intro s t i hs h ht
  by_cases hr : rsvOf i = true
  · cases (exec_of_rsvOf hr s).symm.trans h
    exact absurd ht hs
  · obtain ⟨r, ch, lo, hi, rfl, rfl⟩ | ⟨r, imm, rfl, rfl⟩ | ⟨hreg, -⟩ := exec_session_cases h
    · obtain rfl : r = 0 := by_contra fun hne => hr (rsvR_of_ne hne)
      exact ⟨ch, lo, hi, rfl, checkConfig_of_configure_enabled ht⟩
    · cases ht
    · exact absurd ((congrArg Prod.fst hreg).symm.trans ht) hs

/-! ### `BADCMD` after a command (R152, R153) -/

/-- R152(c) to (e): a write to a register that cannot be written, or a read that finds no value. -/
def operandError (s : State) : Instr → Bool
  | .writeReg reg _ _ => decide (reg ∉ [0x00, 0x08, 0x09, 0x0A])
  | .readReg reg idx => (readRegister reg idx s).isNone
  | .readDl _ ch k => (readCell ch k s).isNone
  | _ => false

/-- R139: the executed write to `STATUS` with bit 3 set. -/
def clearsBadCmd : Instr → Bool
  | .writeReg reg imm v => decide (reg = 0x00 ∧ imm = 0) && v.getLsbD 3
  | _ => false

theorem clearsBadCmd_iff {i : Instr} :
    clearsBadCmd i = true ↔ ∃ v : Word, i = .writeReg 0x00 0 v ∧ v.getLsbD 3 = true := by
  constructor
  · intro h
    cases i with
    | writeReg reg imm v =>
      obtain ⟨hf, hv⟩ := Bool.and_eq_true_iff.1 h
      obtain ⟨rfl, rfl⟩ := of_decide_eq_true hf
      exact ⟨v, rfl, hv⟩
    | _ => cases h
  · rintro ⟨v, rfl, hv⟩
    exact hv

theorem configure_badCmd (ch : Half) (lo hi : Word) (s : State) : (configure ch lo hi s).badCmd = s.badCmd := by
  obtain ⟨-, e⟩ | ⟨-, e⟩ := configure_cases ch lo hi s <;> rw [e] <;> rfl

theorem writeStatus_badCmd (v : Word) (s : State) : (s.writeStatus v).badCmd = (s.badCmd && !v.getLsbD 3) := by
  unfold State.writeStatus
  cases v.getLsbD 3
  · exact (Bool.and_true _).symm
  · exact (Bool.and_false _).symm

/-- R138 to R140: a write to no writable register sets the bit, a write to `STATUS` may clear it. -/
theorem writeRegister_badCmd (reg : Byte) (v : Word) (s : State) : (writeRegister reg v s).badCmd =
    (operandError s (.writeReg reg 0 v) || s.badCmd && !clearsBadCmd (.writeReg reg 0 v)) := by
  by_cases hw : reg ∈ [0x00, 0x08, 0x09, 0x0A]
  · simp only [List.mem_cons, List.not_mem_nil, or_false] at hw
    obtain rfl | rfl | rfl | rfl := hw
    · exact writeStatus_badCmd v s
    all_goals exact (Bool.and_true _).symm
  · have he : operandError s (.writeReg reg 0 v) = true := decide_eq_true hw
    simp only [List.mem_cons, List.not_mem_nil, or_false, not_or] at hw
    obtain ⟨h0, h8, h9, hA⟩ := hw
    rw [he, writeRegister_not_writable h0 h8 h9 hA]
    rfl

/-- R142, R145: a read that finds no value sets the bit. -/
theorem respondRead_badCmd (found : Option Word) (s : State) :
    (respondRead found s).badCmd = (found.isNone || s.badCmd) := by
  cases found <;> rfl

theorem framesState_badCmd (b n : Nat) (xs : List F32) (s : State) : (framesState b n xs s).badCmd = s.badCmd :=
  framesState_keeps (P := fun t => t.badCmd = s.badCmd) b
    (fun ys u h => (frameState_badCmd ys u).trans h) n xs s rfl

/-- R152, R153: `BADCMD` is set after a command that is an error, and otherwise as before, unless it was cleared. -/
theorem exec_badCmd {i : Instr} {s t : State} (h : exec i s = .next t) :
    t.badCmd = (rsvOf i || operandError s i || s.badCmd && !clearsBadCmd i) := by
  cases exec_next h with
  | notExecuted ws hr => rw [hr]; rfl
  | configure ch lo hi hr => simp [rsvOf, hr, operandError, clearsBadCmd, configure_badCmd]
  | release hr => simp [rsvOf, hr, operandError, clearsBadCmd, endSession]
  | @writeReg reg imm v hr =>
    obtain rfl : imm = 0 := by simpa [rsvImm] using hr
    exact writeRegister_badCmd reg v s
  | readReg reg idx hr => simp [rsvOf, hr, operandError, clearsBadCmd, respondRead_badCmd]
  | readDl ch cell hr => simp [rsvOf, hr, operandError, clearsBadCmd, respondRead_badCmd]
  | processFrame hr hf =>
    obtain ⟨rfl, -, -⟩ := frame_cases hf
    simp [rsvOf, hr, operandError, clearsBadCmd, frameState_badCmd]
  | processBlock hf =>
    obtain rfl := frames_cases hf
    simp [rsvOf, operandError, clearsBadCmd, framesState_badCmd]

/-! ### The bit is sticky (R153) -/

/-- R153: a set bit is cleared by the clearing write and by nothing else. -/
theorem exec_badCmd_false_iff {i : Instr} {s t : State} (hs : s.badCmd = true) (h : exec i s = .next t) :
    t.badCmd = false ↔ ∃ v : Word, i = .writeReg 0x00 0 v ∧ v.getLsbD 3 = true := by
  rw [exec_badCmd h, hs, ← clearsBadCmd_iff]
  constructor
  · simp
  · intro hc
    obtain ⟨v, rfl, -⟩ := clearsBadCmd_iff.1 hc
    rw [hc]
    rfl

/-- R70, R165: an idle port keeps a set bit, and an illegal header sets it. -/
theorem noCommand_badCmd {s : State} (hs : s.badCmd = true) (e : DecodeError) : (noCommand e s).badCmd = true := by
  cases e with
  | illegalOpcode op => rfl
  | noHeader => exact hs
  | incomplete k => exact hs

/-- Settles O28: a command by the bit after it, a step by its command or the lack of one. -/
theorem badCmdIsSticky : Obligations.BadCmdIsSticky := by
  refine ⟨rfl, fun _ => rfl, fun s t i hs h => exec_badCmd_false_iff hs h, fun s t hs h => ?_⟩
  obtain ⟨i, rest, hd, ho⟩ | ⟨e, hd, ho⟩ := step_cases h
  · rw [exec_badCmd_false_iff (s := s.takeResponses.setInput rest) hs ho.symm, hd]
    simp
  · cases ho
    rw [noCommand_badCmd (s := s.takeResponses) hs e, hd]
    simp

/-! ### The command errors (R152) -/

/-- R37, R142: READ_REG finds no value under an unassigned number, nor for a cursor out of range. -/
theorem readRegister_eq_none_iff (reg : Byte) (idx : Half) (s : State) : readRegister reg idx s = none ↔
    reg ∉ [0x00, 0x01, 0x02, 0x03, 0x04, 0x05, 0x08, 0x09, 0x0A, 0x10, 0x11, 0x20, 0x30, 0x31, 0x32] ∨
      (reg = 0x20 ∧ ¬(s.state = .enabled ∧ idx.toNat < s.channels.toNat)) := by
  cases hr : regOfNumber reg with
  | none =>
    have hassigned :
        ∀ r ∈ [0x00, 0x01, 0x02, 0x03, 0x04, 0x05, 0x08, 0x09, 0x0A, 0x10, 0x11, 0x20, 0x30, 0x31, 0x32],
          regOfNumber r ≠ none := by decide
    rw [readRegister, hr]
    exact iff_of_true rfl (.inl fun hm => hassigned reg hm hr)
  | some name =>
    obtain rfl := regOfNumber_eq_some hr
    cases name with
    | wptr =>
      rw [show numberOfReg .wptr = 0x20 from rfl, readRegister_wptr]
      simp
    | _ => exact iff_of_false (Option.some_ne_none _) (by simp [numberOfReg])

/-- R145: READ_DL finds a cell of the session in an enabled block only. -/
theorem readCell_eq_none_iff (ch : Half) (k : Word) (s : State) : readCell ch k s = none ↔
    ¬(s.state = .enabled ∧ ch.toNat < s.channels.toNat ∧ k.toNat < s.capacity.toNat) := by
  rw [readCell_eq_ite]
  simp

/-- R152(c) to (e), spelled out. -/
theorem operandError_iff (s : State) (i : Instr) : operandError s i = true ↔
    (∃ reg imm v, i = .writeReg reg imm v ∧ reg ∉ [0x00, 0x08, 0x09, 0x0A]) ∨
    (∃ reg idx, i = .readReg reg idx ∧ readRegister reg idx s = none) ∨
    (∃ r ch k, i = .readDl r ch k ∧ readCell ch k s = none) := by
  cases i <;> simp [operandError]

/-- Settles O29: from a clear bit, the bit after the command is whether the command is an error. -/
theorem badCmdIsSetOnlyByCommandErrors : Obligations.BadCmdIsSetOnlyByCommandErrors := by
  intro s t i hs h
  simp only [exec_badCmd h, hs, Bool.false_and, Bool.or_false, Bool.or_eq_true, operandError_iff,
    readRegister_eq_none_iff, readCell_eq_none_iff]

end Sys2Proof.Machine
